-- ==== Sys2Proof/Word.lean ====
section
/-! DEFINITION. The widths of AB7219-CC (spec/00_scope.md R8, R9): a byte (a register address, a register value,
a framebuffer cell) and a half word (a wire frame, a column number). -/

namespace Sys2Proof

/-- One byte: a register address, a register value, a framebuffer cell, a byte of a command or of a transaction (R8). -/
abbrev Byte := BitVec 8

/-- Sixteen bits: a wire frame F = A, D with A the high byte (R70), or the column operand of MXCOL and MXLED (R67). -/
abbrev Half := BitVec 16

end Sys2Proof
end

