-- ==== Sys2Proof/Config.lean ====
section
/-! DEFINITION. The implementation parameters (spec/00_scope.md R7) and the free values.
The parameters are configuration state, fixed when an instance is constructed (R20), so they are a record that State
holds and every statement over all states covers every legal parameter choice. The free values are constants with no
body: nothing in Lean can evaluate one. -/

namespace Sys2Proof

/-- The level of the select/latch line (R24). -/
inductive Level where
  | low
  | high
  deriving DecidableEq, Repr, Inhabited

/-- Which front-end an instance has: NONE, MATRIX or SEVENSEG (R4, R7). -/
inductive Frontend where
  | none
  | matrix
  | sevenseg
  deriving DecidableEq, Repr

/-- The order in which the bits of one byte go onto the wire (R7, R48). -/
inductive BitOrder where
  | msbFirst
  | lsbFirst
  deriving DecidableEq, Repr

/-- The power state of a device (R158). -/
inductive Power where
  | shutdown
  | normal
  deriving DecidableEq, Repr, Inhabited

/-- A clock rate: any positive number of cycles a second (R7). -/
abbrev ClockRate := { hz : Nat // 0 < hz }

/-- The parameters of an instance (R7, R20, R37). No command changes one. -/
structure Params where
  /-- `N`, the chain length. -/
  n : Nat
  /-- `W_T`, the width of the target selector in bits. -/
  wT : Nat
  /-- `FRONTEND`. -/
  frontend : Frontend
  /-- `SEL_ID`, an opaque identifier handed to the transport; no rule depends on it (D6). -/
  selId : Nat
  /-- `CLK_HZ`, "any positive" (R7); no rule depends on it (R92, D5). -/
  clkHz : ClockRate
  /-- `BIT_ORDER` (R48). -/
  bitOrder : BitOrder
  /-- `DECODE_RAW`, the decode-mode value that means raw (R7, D22). -/
  decodeRaw : Byte
  /-- `HEX_TABLE`, 16 segment patterns (R108). -/
  hexTable : List Byte
  /-- `TRANSPORT_LIVE`: every `Xfer` is assumed to answer (R7, R86). -/
  transportLive : Bool
  deriving DecidableEq, Repr

/-- `NMAX = 2^W_T - 1`, the largest legal chain length (R7, R21). -/
def Params.nMax (p : Params) : Nat := 2 ^ p.wT - 1

/-- `T_ALL = 2^W_T - 1`, the conventional broadcast selector (R7, R69). -/
def Params.tAll (p : Params) : Nat := 2 ^ p.wT - 1

/-- The parameters of the instance that `State.reset` constructs. DESIGN CHOICE (log entry 2): the spec leaves `N`,
`FRONTEND`, `SEL_ID`, `CLK_HZ` and `TRANSPORT_LIVE` to the model's caller. `W_T`, `BIT_ORDER` and `DECODE_RAW` are R7's defaults.
PRESUMED (log entry 3): `HEX_TABLE` is the family's table as R108 quotes it from general knowledge. -/
def resetParams : Params where
  n := 2
  wT := 8
  frontend := .matrix
  selId := 0
  clkHz := ⟨1, Nat.one_pos⟩
  bitOrder := .msbFirst
  decodeRaw := 0x00
  hexTable := [0x7E, 0x30, 0x6D, 0x79, 0x33, 0x5B, 0x5F, 0x70, 0x7F, 0x7B, 0x77, 0x1F, 0x4E, 0x3D, 0x4F, 0x47]
  transportLive := false

/-- The level at which a failed transaction leaves the select line: a draw that nothing constrains (R85, R144, U16).
Applied to the draw counter of State, so each failure has a fresh one (log entry 5). -/
opaque Config.selAfterFail : Nat → Level

/-- What the shift register of device `k` holds once the transfer of a transaction failed or stalled: unknown, so a draw that
nothing constrains (R34, R135). Applied to the draw counter of State and to `k` (log entry 12). -/
opaque Config.shiftCutShort : Nat → Nat → Half

/-- The power state of a device whose shutdown register holds a byte other than 0x00 and 0x01: any value (R131, R158, U4). -/
opaque Config.powerOf : Byte → Power

/-- How many digits beyond the first a device scans, 0 to 7, for a scan-limit byte: any value within "digits to scan,
1..8" (R39, R130, U10). -/
opaque Config.scanBeyondFirst : Byte → Fin 8

end Sys2Proof
end

