-- ==== Sys2Proof/Syntax.lean ====
section
/-! DEFINITION. The instructions: the 9 commands of the command record (spec/30_encoding.md R65, R66) and the 14 wire
frames the devices run (R70, R71), one constructor per row of spec/opcode_table.json. -/

namespace Sys2Proof

/-- One command, or one wire frame. Operand fields are unsigned (R67). -/
inductive Instr where
  /-- WRREG reg, val, tgt (R87). -/
  | wrreg (reg val : Byte) (tgt : Nat)
  /-- WRALL reg, payload (R88). -/
  | wrall (reg : Byte) (payload : List Byte)
  /-- MXCLR (R97). -/
  | mxclr
  /-- MXROW row, rmask; the mask has 8*N bits (R98). -/
  | mxrow (row : Byte) (rmask : Nat)
  /-- MXCOL col, cmask (R99). -/
  | mxcol (col : Half) (cmask : Byte)
  /-- MXLED row, col, led; led is one bit, true for lit (R100). -/
  | mxled (row : Byte) (col : Half) (led : Bool)
  /-- SSINIT (R109). -/
  | ssinit
  /-- SSCLR (R110). -/
  | ssclr
  /-- SSHEX digit, hexval, tgt (R111). -/
  | sshex (digit hexval : Byte) (tgt : Nat)
  /-- The frame (0x00, 0x00) (R119). -/
  | noop
  /-- The frame (0x01, d) (R120). -/
  | digit0 (d : Byte)
  /-- The frame (0x02, d) (R121). -/
  | digit1 (d : Byte)
  /-- The frame (0x03, d) (R122). -/
  | digit2 (d : Byte)
  /-- The frame (0x04, d) (R123). -/
  | digit3 (d : Byte)
  /-- The frame (0x05, d) (R124). -/
  | digit4 (d : Byte)
  /-- The frame (0x06, d) (R125). -/
  | digit5 (d : Byte)
  /-- The frame (0x07, d) (R126). -/
  | digit6 (d : Byte)
  /-- The frame (0x08, d) (R127). -/
  | digit7 (d : Byte)
  /-- The frame (0x09, d) (R128). -/
  | decodeMode (d : Byte)
  /-- The frame (0x0A, d) (R129). -/
  | intensity (d : Byte)
  /-- The frame (0x0B, d) (R130). -/
  | scanlimit (d : Byte)
  /-- The frame (0x0C, d) (R131). -/
  | shutdown (d : Byte)
  /-- The frame (0x0F, d) (R132). -/
  | disptest (d : Byte)
  deriving DecidableEq, Repr

end Sys2Proof
end

