-- ==== Sys2Proof/WellFormed.lean ====
section
/-! DEFINITION. Which parameters make an instance (spec/70_reset_and_hazards.md R159), which instructions an instance can
be given (spec/30_encoding.md R65 to R69), and the reasons a byte string is refused (spec/60_exceptions.md R140, R147). -/

namespace Sys2Proof

/-- The six refusal reasons of R147, each with what R140 says it records beside `cmd_index`. -/
inductive RefuseReason where
  /-- `RF_RESERVED_OP`: op 0x9 to 0xF; records the opcode byte. -/
  | reservedOp (opcode : Byte)
  /-- `RF_RESERVED_BITS`: opcode bits 7:4 or a field bit above its width set; records the byte string. -/
  | reservedBits (bytes : List Byte)
  /-- `RF_LENGTH`: the byte string is shorter or longer than its format; records the length. -/
  | length (len : Nat)
  /-- `RF_NO_FRONTEND`: a command of an absent front-end; records op. -/
  | noFrontend (op : Nat)
  /-- `RF_REENTRANT`: a command issued while another is executing. -/
  | reentrant
  /-- `RF_CONFIG`: construction with illegal parameters; records the parameters. -/
  | config (p : Params)
  deriving DecidableEq, Repr

/-- The parameters R159 accepts: `1 ≤ N ≤ NMAX`, `W_T ≥ 1`, sixteen table entries (R21, R140). -/
abbrev Params.Legal (p : Params) : Prop :=
  1 ≤ p.n ∧ p.n ≤ p.nMax ∧ 1 ≤ p.wT ∧ p.hexTable.length = 16

/-- The instruction is a wire frame, not a command (R64). -/
def Instr.isFrame : Instr → Bool
  | .wrreg _ _ _ | .wrall _ _ | .mxclr | .mxrow _ _ | .mxcol _ _ | .mxled _ _ _ | .ssinit | .ssclr | .sshex _ _ _ => false
  | .noop | .digit0 _ | .digit1 _ | .digit2 _ | .digit3 _ | .digit4 _ | .digit5 _ | .digit6 _ | .digit7 _
  | .decodeMode _ | .intensity _ | .scanlimit _ | .shutdown _ | .disptest _ => true

/-- The command record's `op` (R66); a wire frame has none. -/
def Instr.op : Instr → Option Nat
  | .wrreg _ _ _ => some 0
  | .wrall _ _ => some 1
  | .mxclr => some 2
  | .mxrow _ _ => some 3
  | .mxcol _ _ => some 4
  | .mxled _ _ _ => some 5
  | .ssinit => some 6
  | .ssclr => some 7
  | .sshex _ _ _ => some 8
  | .noop | .digit0 _ | .digit1 _ | .digit2 _ | .digit3 _ | .digit4 _ | .digit5 _ | .digit6 _ | .digit7 _
  | .decodeMode _ | .intensity _ | .scanlimit _ | .shutdown _ | .disptest _ => none

/-- The front-end an instruction needs, NONE when it needs none (R66). -/
def Instr.frontend : Instr → Frontend
  | .mxclr | .mxrow _ _ | .mxcol _ _ | .mxled _ _ _ => .matrix
  | .ssinit | .ssclr | .sshex _ _ _ => .sevenseg
  | .wrreg _ _ _ | .wrall _ _
  | .noop | .digit0 _ | .digit1 _ | .digit2 _ | .digit3 _ | .digit4 _ | .digit5 _ | .digit6 _ | .digit7 _
  | .decodeMode _ | .intensity _ | .scanlimit _ | .shutdown _ | .disptest _ => .none

/-- Every operand fits its field for this instance's `N` and `W_T` (R65, R67). -/
def Instr.fieldsFit (p : Params) : Instr → Bool
  | .wrreg _ _ tgt => tgt < 2 ^ p.wT
  | .wrall _ payload => payload.length = p.n
  | .mxrow _ rmask => rmask < 2 ^ (8 * p.n)
  | .sshex _ _ tgt => tgt < 2 ^ p.wT
  | .mxclr | .mxcol _ _ | .mxled _ _ _ | .ssinit | .ssclr => true
  | .noop | .digit0 _ | .digit1 _ | .digit2 _ | .digit3 _ | .digit4 _ | .digit5 _ | .digit6 _ | .digit7 _
  | .decodeMode _ | .intensity _ | .scanlimit _ | .shutdown _ | .disptest _ => true

/-- The instance has the front-end the instruction needs (R66). -/
def Instr.frontendPresent (p : Params) (i : Instr) : Bool :=
  i.frontend == .none || i.frontend == p.frontend

/-- The instruction is one this instance can be given: its front-end is present and its operands fit. -/
def Instr.wellFormed (p : Params) (i : Instr) : Bool :=
  i.frontendPresent p && i.fieldsFit p

end Sys2Proof
end

