-- ==== Sys2Proof/Decode.lean ====
section
/-! DEFINITION. The two encodings of spec/30_encoding.md R64: the command record (R65, R66, R75, R76) and the wire frame
(R70, R71). Decoding is total on any bytes and refuses by name, in the order of spec/60_exceptions.md R148. -/

namespace Sys2Proof

/-- A field of `width` bits takes this many bytes (R65). -/
def fieldBytes (width : Nat) : Nat := (width + 7) / 8

/-- A natural as `count` bytes, least significant first (R65). -/
def natBytes : Nat → Nat → List Byte
  | 0, _ => []
  | count + 1, v => BitVec.ofNat 8 v :: natBytes count (v / 256)

/-- The natural a field's bytes stand for, least significant first (R65, R67). -/
def bytesNat : List Byte → Nat
  | [] => 0
  | b :: bs => b.toNat + 256 * bytesNat bs

/-- The front-end the command `op` needs (R66). -/
def opFrontend (op : Nat) : Frontend :=
  if op < 2 then .none else if op < 6 then .matrix else if op < 9 then .sevenseg else .none

/-- The length in bytes of the command `op`, told from `op`, `N` and `W_T` alone (R65, R76). -/
def commandLength (p : Params) (op : Nat) : Nat :=
  match op with
  | 0 => 3 + fieldBytes p.wT
  | 1 => 2 + p.n
  | 2 => 1
  | 3 => 2 + p.n
  | 4 => 4
  | 5 => 5
  | 6 => 1
  | 7 => 1
  | 8 => 3 + fieldBytes p.wT
  | _ => 0

/-- The operands of the command `op`, from the field bytes after the opcode byte (R65, R67); none where a bit above a
field's width is set. -/
def decodeFields (p : Params) (op : Nat) (fields : List Byte) : Option Instr :=
  match op with
  | 0 =>
    match fields with
    | reg :: val :: tgt => if bytesNat tgt < 2 ^ p.wT then some (.wrreg reg val (bytesNat tgt)) else none
    | _ => none
  | 1 =>
    match fields with
    | reg :: payload => some (.wrall reg payload)
    | _ => none
  | 2 => some .mxclr
  | 3 =>
    match fields with
    | row :: rmask => some (.mxrow row (bytesNat rmask))
    | _ => none
  | 4 =>
    match fields with
    | [colLo, colHi, cmask] => some (.mxcol (colHi ++ colLo) cmask)
    | _ => none
  | 5 =>
    match fields with
    | [row, colLo, colHi, led] => if led.toNat < 2 then some (.mxled row (colHi ++ colLo) (led == 1)) else none
    | _ => none
  | 6 => some .ssinit
  | 7 => some .ssclr
  | 8 =>
    match fields with
    | digit :: hexval :: tgt =>
      if bytesNat tgt < 2 ^ p.wT then some (.sshex digit hexval (bytesNat tgt)) else none
    | _ => none
  | _ => none

/-- The command a byte string stands for, or the reason it is refused, checked in R148's order: opcode bits 7:4, reserved
op, absent front-end, length, bits above a field's width. An empty string has no opcode byte and is refused for its
length (DESIGN CHOICE, log entry 16). -/
def decode (p : Params) (bytes : List Byte) : Except RefuseReason Instr :=
  match bytes with
  | [] => .error (.length 0)
  | opcode :: fields =>
    if opcode.toNat / 16 ≠ 0 then .error (.reservedBits bytes)
    else if 9 ≤ opcode.toNat then .error (.reservedOp opcode)
    else if opFrontend opcode.toNat ≠ .none ∧ opFrontend opcode.toNat ≠ p.frontend then
      .error (.noFrontend opcode.toNat)
    else if bytes.length ≠ commandLength p opcode.toNat then .error (.length bytes.length)
    else match decodeFields p opcode.toNat fields with
      | some i => .ok i
      | none => .error (.reservedBits bytes)

/-- The documented frame `(a, d)` stands for (R71); none for an undocumented one (R133). -/
def decodeFrame (a d : Byte) : Option Instr :=
  match a.toNat with
  | 0 => if d = 0 then some .noop else none
  | 1 => some (.digit0 d)
  | 2 => some (.digit1 d)
  | 3 => some (.digit2 d)
  | 4 => some (.digit3 d)
  | 5 => some (.digit4 d)
  | 6 => some (.digit5 d)
  | 7 => some (.digit6 d)
  | 8 => some (.digit7 d)
  | 9 => some (.decodeMode d)
  | 10 => some (.intensity d)
  | 11 => some (.scanlimit d)
  | 12 => some (.shutdown d)
  | 15 => some (.disptest d)
  | _ => none

/-- The frame `F` with address byte `a` and value byte `d` (R70). -/
def frameOf (a d : Byte) : Half := a ++ d

/-- The address byte of a frame read as one 16-bit number (R70). -/
def frameAddr (f : Half) : Byte := f.extractLsb' 8 8

/-- The value byte of a frame read as one 16-bit number (R70). -/
def frameData (f : Half) : Byte := f.extractLsb' 0 8

/-- The bytes of an instruction: a command's record (R65), or a frame's two bytes, address first (R70). -/
def encode (p : Params) : Instr → List Byte
  | .wrreg reg val tgt => 0x00 :: reg :: val :: natBytes (fieldBytes p.wT) tgt
  | .wrall reg payload => 0x01 :: reg :: payload
  | .mxclr => [0x02]
  | .mxrow row rmask => 0x03 :: row :: natBytes p.n rmask
  | .mxcol col cmask => [0x04, col.extractLsb' 0 8, col.extractLsb' 8 8, cmask]
  | .mxled row col led => [0x05, row, col.extractLsb' 0 8, col.extractLsb' 8 8, if led then 1 else 0]
  | .ssinit => [0x06]
  | .ssclr => [0x07]
  | .sshex digit hexval tgt => 0x08 :: digit :: hexval :: natBytes (fieldBytes p.wT) tgt
  | .noop => [0x00, 0x00]
  | .digit0 d => [0x01, d]
  | .digit1 d => [0x02, d]
  | .digit2 d => [0x03, d]
  | .digit3 d => [0x04, d]
  | .digit4 d => [0x05, d]
  | .digit5 d => [0x06, d]
  | .digit6 d => [0x07, d]
  | .digit7 d => [0x08, d]
  | .decodeMode d => [0x09, d]
  | .intensity d => [0x0A, d]
  | .scanlimit d => [0x0B, d]
  | .shutdown d => [0x0C, d]
  | .disptest d => [0x0F, d]

/-- The layer of a table row: a row of 16 bits is a wire frame, any other is a command record (log entry 20). -/
def tableFrame (nbits : Nat) : Bool := nbits == 16

/-- The byte string of the command whose bits are `w`: byte `i` is bits 8i+7 to 8i, extended with zero bytes to the
command's length for these parameters (log entry 20). -/
def tableCommand (p : Params) (nbits w : Nat) : List Byte :=
  natBytes (max (nbits / 8) (commandLength p (w % 256))) w

/-- The parameters with the front-end that the command whose bits are `w` needs, if it needs one. -/
def tableParams (p : Params) (w : Nat) : Params :=
  if opFrontend (w % 256) = .none then p else { p with frontend := opFrontend (w % 256) }

/-- The instruction read from a table word: bit 0 is the least significant bit of the command's first byte, or of the
frame `F` (R65, R70). Commands are read for the instance of `resetParams`, with the front-end they need. -/
def decodeTableWord (nbits w : Nat) : Option Instr :=
  if tableFrame nbits then decodeFrame (BitVec.ofNat 8 (w / 256)) (BitVec.ofNat 8 w)
  else (decode (tableParams resetParams w) (tableCommand resetParams nbits w)).toOption

end Sys2Proof
end

