-- ==== Sys2Proof/Machine/State.lean ====
section
/-! DEFINITION. The architectural state of AB7219-CC, of its front-ends and of the device chain (spec/10_state.md), as
plain data, and the state after construction (R40; spec/70_reset_and_hazards.md R159). -/

namespace Sys2Proof.Machine

/-- A command's returned status (R25). -/
inductive Status where
  | ok
  | fail
  deriving DecidableEq, Repr

/-- The events of the history `H` (R27). -/
inductive Event where
  /-- The bus is acquired. -/
  | acq
  /-- The bus is released. -/
  | rel
  /-- An edge of the select line, to this level. -/
  | sel (level : Level)
  /-- One byte handed to the transport. -/
  | byte (b : Byte)
  /-- The transport reported failure. -/
  | xfail
  deriving DecidableEq, Repr

/-- What the transport answers to one `Xfer` (R86). -/
inductive Answer where
  | ok
  | fail
  /-- No answer at all, ever. -/
  | stall
  deriving DecidableEq, Repr

/-- Whose pseudocode the controller is running (R12, R149, R159). Between steps it is `idle` unless a transfer stalled
(R145). -/
inductive Activity where
  | idle
  /-- A host command. -/
  | command
  /-- The SSINIT of construction, which is not a host command (R159). -/
  | construction
  deriving DecidableEq, Repr

/-- The fault codes (R140). There is one. -/
inductive FaultCode where
  /-- `F_TRANSPORT`. -/
  | transport
  deriving DecidableEq, Repr

/-- The sticky fault mark with the information R140 records (D35). -/
structure FaultRecord where
  code : FaultCode
  /-- The index of the faulting command; none for construction's SSINIT (R159). -/
  cmdIndex : Option Nat
  /-- The 0-based index of the transaction within the command. -/
  txn : Nat
  /-- The index `j` of the byte that failed within the transaction. -/
  byte : Nat
  deriving DecidableEq, Repr

/-- The thirteen registers of a device (R32). -/
inductive DevReg where
  | digit0
  | digit1
  | digit2
  | digit3
  | digit4
  | digit5
  | digit6
  | digit7
  | decode
  | intensity
  | scanlimit
  | shutdown
  | disptest
  deriving DecidableEq, Repr

/-- One device of the chain. A register is `none` while it holds "no value", which is the spec's own state of a register
(R35, R133, R135). `sr` is the device's shift register, 16 bits that always hold something (R34; log entry 12). -/
structure Device where
  digit0 : Option Byte
  digit1 : Option Byte
  digit2 : Option Byte
  digit3 : Option Byte
  digit4 : Option Byte
  digit5 : Option Byte
  digit6 : Option Byte
  digit7 : Option Byte
  decode : Option Byte
  intensity : Option Byte
  scanlimit : Option Byte
  shutdown : Option Byte
  disptest : Option Byte
  sr : Half
  deriving DecidableEq, Repr

/-- A device at power-on: no register of R32 holds a value (R35, D27). The spec gives the shift register of R34 no reset value:
0x0000 is DESIGN CHOICE, log entry 30. -/
def Device.powerOn : Device where
  digit0 := none
  digit1 := none
  digit2 := none
  digit3 := none
  digit4 := none
  digit5 := none
  digit6 := none
  digit7 := none
  decode := none
  intensity := none
  scanlimit := none
  shutdown := none
  disptest := none
  sr := 0x0000

/-- The framebuffer `fb` as the list of its cells that are not 0x00, addresses strictly rising (R29; log entry 15). -/
abbrev Memory := List Host.Cell

/-- What a cell that is not listed reads as: 0x00, the spec's contents after construction (R29, R40). -/
def unlistedCell : Byte := 0x00

/-- The canonical form of `Memory`: addresses strictly rising, no entry equal to what an unlisted cell reads as. -/
def Memory.wf : Memory → Bool
  | [] => true
  | (a, v) :: m => decide (v ≠ unlistedCell) && m.all (fun c => decide (a < c.1)) && Memory.wf m

/-- The machine (R13): the controller with its front-end, the device chain, and the outside world as plain data. -/
structure State where
  /-- The configuration, fixed at construction (R20). -/
  params : Params
  /-- `bus_owned` (R24). -/
  busOwned : Bool
  /-- `sel` (R24). -/
  sel : Level
  /-- `fault`, sticky (R24, R141). -/
  fault : Option FaultRecord
  /-- `refused`, sticky (R24, R146). -/
  refused : Bool
  /-- The recorded refusals: `cmd_index` and the reason, oldest first (R140, R146; log entry 8). -/
  refusals : List (Nat × RefuseReason)
  /-- `cmd_index`, the index of the host's next command (R23). -/
  cmdIndex : Nat
  /-- What the controller is running (R12, R145, R149). -/
  activity : Activity
  /-- The event history `H`, oldest first (R27). -/
  history : List Event
  /-- The statuses returned to the host, each with its command's index (R25, R41; log entry 17). -/
  returned : List (Nat × Status)
  /-- The framebuffer `fb` (R29). -/
  mem : Memory
  /-- The device chain, device `k` at index `k` (R32). -/
  devices : List Device
  /-- The devices that have still to apply the frame in their shift register at a rising edge that is taken device by
  device; the model's own field (log entry 13). -/
  latching : List Nat
  /-- The byte strings of the commands the host has still to issue, next first (R13, R23; log entry 1). -/
  host : List (List Byte)
  /-- The answers the transport gives to the transfers to come, next first; past the end it answers ok
  (R13, R86; log entry 4). -/
  transport : List Answer
  /-- The model's own counter that selects the next free value (log entry 5). -/
  draws : Nat
  deriving DecidableEq, Repr

/-- Why the machine stops. Every constructor stops the machine or an observation where the spec gives no value or no
further step, so each is safe. -/
inductive Fault where
  /-- Raised by every command, and by `step`, once `fault` is set: "Such a state is stuck, not final" (R150). Safe. -/
  | afterFault
  /-- Raised by SSHEX when `HEX_TABLE` lacks the entry: such parameters make no instance (R159), so no state of an
  instance raises it (log entry 21). Safe. -/
  | noHexEntry
  /-- Raised by the host's read of a framebuffer cell that does not exist. The spec gives such a read no outcome: R45 says
  that no command makes it. DESIGN CHOICE, log entry 27. Safe. -/
  | noSuchCell
  /-- Raised by the observation of a register of a device that does not exist, of which R41 says nothing. DESIGN CHOICE, log
  entry 27. Safe. -/
  | noSuchDevice
  /-- Raised by the observation of a device register that holds no value: the spec says that reading it faults (R35, R133,
  D27). No instruction raises it (R33, R137). Safe. -/
  | noValue
  deriving DecidableEq, Repr

/-- Why an instruction has no meaning. -/
inductive Refusal where
  /-- Raised only by an arm of `exec` for an instruction that has no meaning in this model yet; no arm raises it now. The
  spec's own refusals (R146) are next states with the `refused` mark set. Safe. -/
  | notModelled (mnemonic : String)
  deriving DecidableEq, Repr

/-- The state every instance starts from, before a SEVENSEG instance's SSINIT (R159). `answers` are the transport's answers
to come; a live transport never stalls (R86). -/
def State.initial (p : Params) (answers : List Answer) : State where
  params := p
  busOwned := false
  sel := .high
  fault := none
  refused := false
  refusals := []
  cmdIndex := 0
  activity := .idle
  history := []
  returned := []
  mem := []
  devices := List.replicate p.n Device.powerOn
  latching := []
  host := []
  transport := if p.transportLive then answers.filter (fun a => decide (a ≠ .stall)) else answers
  draws := 0

/-- The machine right after construction with the parameters of `resetParams` (R40, R159). A MATRIX instance's construction
sends nothing (R161), so this is the initial state. The host has issued nothing yet, and the transport's answers to come
are all ok (log entries 1, 2 and 4). -/
def State.reset : State := State.initial resetParams []

end Sys2Proof.Machine
end

