-- ==== Sys2Proof/Machine/Device.lean ====
section
/-! DEFINITION. One device of the chain: its registers and what a latched frame does to them (spec/10_state.md R32 to R39,
spec/43_wire_frames.md R116 to R135). -/

namespace Sys2Proof.Machine

/-- What a register of a device holds; `none` is "no value" (R35). -/
def regOf (r : DevReg) (dev : Device) : Option Byte :=
  match r with
  | .digit0 => dev.digit0
  | .digit1 => dev.digit1
  | .digit2 => dev.digit2
  | .digit3 => dev.digit3
  | .digit4 => dev.digit4
  | .digit5 => dev.digit5
  | .digit6 => dev.digit6
  | .digit7 => dev.digit7
  | .decode => dev.decode
  | .intensity => dev.intensity
  | .scanlimit => dev.scanlimit
  | .shutdown => dev.shutdown
  | .disptest => dev.disptest

/-- A device register is written: it holds the whole byte (R39, R53). -/
def writeReg (r : DevReg) (d : Byte) (dev : Device) : Device :=
  match r with
  | .digit0 => { dev with digit0 := some d }
  | .digit1 => { dev with digit1 := some d }
  | .digit2 => { dev with digit2 := some d }
  | .digit3 => { dev with digit3 := some d }
  | .digit4 => { dev with digit4 := some d }
  | .digit5 => { dev with digit5 := some d }
  | .digit6 => { dev with digit6 := some d }
  | .digit7 => { dev with digit7 := some d }
  | .decode => { dev with decode := some d }
  | .intensity => { dev with intensity := some d }
  | .scanlimit => { dev with scanlimit := some d }
  | .shutdown => { dev with shutdown := some d }
  | .disptest => { dev with disptest := some d }

/-- The wire address of a register (R38). -/
def regAddr : DevReg → Byte
  | .digit0 => 0x01
  | .digit1 => 0x02
  | .digit2 => 0x03
  | .digit3 => 0x04
  | .digit4 => 0x05
  | .digit5 => 0x06
  | .digit6 => 0x07
  | .digit7 => 0x08
  | .decode => 0x09
  | .intensity => 0x0A
  | .scanlimit => 0x0B
  | .shutdown => 0x0C
  | .disptest => 0x0F

/-- `digit_k[i]`, for `i` in 0..7 (R32). -/
def digitReg : Nat → DevReg
  | 0 => .digit0
  | 1 => .digit1
  | 2 => .digit2
  | 3 => .digit3
  | 4 => .digit4
  | 5 => .digit5
  | 6 => .digit6
  | _ => .digit7

/-- `Undocumented(k)`: every register of the device is left with no value (R133). -/
def loseRegs (dev : Device) : Device := { Device.powerOn with sr := dev.sr }

/-- `Apply(k, A, D)`, the frame's effect on the device that latches it (R118). A documented frame writes exactly the
register it names. -/
def applyFrame (a d : Byte) (dev : Device) : Device :=
  match a.toNat with
  | 0 => if d = 0 then dev else loseRegs dev
  | 1 => writeReg .digit0 d dev
  | 2 => writeReg .digit1 d dev
  | 3 => writeReg .digit2 d dev
  | 4 => writeReg .digit3 d dev
  | 5 => writeReg .digit4 d dev
  | 6 => writeReg .digit5 d dev
  | 7 => writeReg .digit6 d dev
  | 8 => writeReg .digit7 d dev
  | 9 => writeReg .decode d dev
  | 10 => writeReg .intensity d dev
  | 11 => writeReg .scanlimit d dev
  | 12 => writeReg .shutdown d dev
  | 15 => writeReg .disptest d dev
  | _ => loseRegs dev

/-- The device applies the frame in its shift register at the rising edge (R117). -/
def latchDevice (dev : Device) : Device := applyFrame (frameAddr dev.sr) (frameData dev.sr) dev

/-- Device `k` while bytes are passing through its shift register and no edge has come: the registers stay (R55, R117), and
the shift register holds the free value that `draw` selects (R34, R135; log entries 12 and 26). -/
def loseShift (draw k : Nat) (dev : Device) : Device := { dev with sr := Config.shiftCutShort draw k }

/-- Device `k` after a transaction cut short: no register holds a value and the frame in the shift register is unknown
(R135). -/
def loseDevice (draw k : Nat) (_ : Device) : Device := loseShift draw k Device.powerOn

/-- The frame of slot `k` in a byte string, `(b_2k, b_2k+1)` (R116); none where the string is too short. -/
def slotOf (bytes : List Byte) (k : Nat) : Option Half :=
  match bytes[2 * k]?, bytes[2 * k + 1]? with
  | some a, some d => some (frameOf a d)
  | _, _ => none

/-- The brightness level in effect, `D & 0x0F` (R39, R129). -/
def levelOf (dev : Device) : Option Byte := dev.intensity.map (· &&& 0x0F)

/-- The device is in raw decode mode (R39, R112, R128). -/
def rawMode (p : Params) (dev : Device) : Option Bool := dev.decode.map (· == p.decodeRaw)

/-- The device's power state (R131, R158): 0x00 is shutdown, 0x01 normal; for any other byte a free value (U4). -/
def powerOf (dev : Device) : Option Power :=
  dev.shutdown.map fun d => if d = 0x00 then .shutdown else if d = 0x01 then .normal else Config.powerOf d

/-- How many digits the device scans, 1 to 8 (R39, R130): which number a byte stands for is a free value (U10). -/
def digitsScanned (dev : Device) : Option Nat :=
  dev.scanlimit.map fun d => 1 + (Config.scanBeyondFirst d).val

end Sys2Proof.Machine
end

