-- ==== Sys2Proof/Machine/Flags.lean ====
section
/-! DEFINITION. The machine has no condition flags (spec/10_state.md R25, spec/40_core.md R178). What stands in their place
are the marks and the status: the cause codes (spec/60_exceptions.md R140), the `refused` mark (R146), the returned status
(R25) and the command index (R23). -/

namespace Sys2Proof.Machine

/-- The code of a status (R140). -/
def statusCode : Status → Byte
  | .ok => 0x00
  | .fail => 0x01

/-- The code of a fault (R140). -/
def faultCode : FaultCode → Byte
  | .transport => 0x10

/-- The code of a refusal (R140). -/
def refusalCode : RefuseReason → Byte
  | .reservedOp _ => 0x20
  | .reservedBits _ => 0x21
  | .length _ => 0x22
  | .noFrontend _ => 0x23
  | .reentrant => 0x24
  | .config _ => 0x25

/-- `refuse(reason)`: the mark is set, the reason and `cmd_index` are recorded, and the command counts (R23, R146). -/
def refuse (reason : RefuseReason) (s : State) : State :=
  { s with
    refused := true
    refusals := s.refusals ++ [(s.cmdIndex, reason)]
    cmdIndex := s.cmdIndex + 1 }

/-- The controller begins a host command (R12). -/
def start (s : State) : State := { s with activity := .command }

/-- The command returns this status to the host (R25) and counts (R23; that it counts when it ends is log entry 28). -/
def complete (status : Status) (s : State) : State :=
  { s with
    activity := .idle
    returned := s.returned ++ [(s.cmdIndex, status)]
    cmdIndex := s.cmdIndex + 1 }

end Sys2Proof.Machine
end

