-- ==== Sys2Proof/Machine/Operands.lean ====
section
/-! DEFINITION. How operands become bytes and cells: the target resolver (spec/40_core.md R81), the frame sequencer
(R82 to R84), the framebuffer's index (spec/20_memory.md R45), the matrix masks (R49, R50) and the segment table
(spec/42_sevenseg.md R108). -/

namespace Sys2Proof.Machine

/-- A resolved target (R81). -/
inductive Target where
  | all
  | one (k : Nat)
  deriving DecidableEq, Repr

/-- `Resolve(t)` (R81). -/
def resolve (n t : Nat) : Target :=
  if n = 1 ∨ n ≤ t then .all else .one t

/-- `SlotFrame(i, s, r, v)`: the frame of slot `i` (R82). -/
def slotFrame (i : Nat) (target : Target) (r v : Byte) : List Byte :=
  if target = .all ∨ target = .one i then [r, v] else [0x00, 0x00]

/-- `UniSeq(r, v, t)`: the byte string of a single-value write (R83). -/
def uniSeq (n : Nat) (r v : Byte) (t : Nat) : List Byte :=
  (List.range n).flatMap fun i => slotFrame i (resolve n t) r v

/-- `PaySeq(r, P)`: the byte string of a per-device-payload broadcast (R84). -/
def paySeq (r : Byte) (payload : List Byte) : List Byte :=
  payload.flatMap fun v => [r, v]

/-- The address of framebuffer cell `(row, d)`, `row` in 0..7: one address per pair, so that no two cells share one
(R29, R103; log entry 15). -/
def cellAddr (row d : Nat) : Nat := 8 * d + row

/-- The register address of digit `k`, `0x01 + k` (R96, R110, R111). -/
def digitAddr (k : Nat) : Byte := BitVec.ofNat 8 (1 + k)

/-- The register address of decode-mode (R38, R109). -/
def decodeAddr : Byte := 0x09

/-- Byte `d` of a row mask, `(rmask >> 8d) & 0xFF` (R49, R98). -/
def maskByte (rmask d : Nat) : Byte := BitVec.ofNat 8 (rmask >>> (8 * d))

/-- The cell's byte with bit `b` set or cleared: `old | (1 << b)` or `old & (0xFF & ~(1 << b))` (R99, R100). -/
def setBit (b : Nat) (on : Bool) (old : Byte) : Byte :=
  if on then old ||| (1#8 <<< b) else old &&& (0xFF#8 &&& ~~~(1#8 <<< b))

/-- The index of a numeral in `HEX_TABLE`, `hexval & 0x0F` (R111). -/
def hexIndex (hexval : Byte) : Nat := (hexval &&& 0x0F).toNat

/-- The bits of a byte in the order in which they go onto the wire (R48). -/
def wireBits (order : BitOrder) (b : Byte) : List Bool :=
  match order with
  | .lsbFirst => (List.range 8).map b.getLsbD
  | .msbFirst => (List.range 8).map b.getMsbD

/-- The seven-segment codes of the built-in character generator that the spec lists (R113); no command emits one as such. -/
def codeDash : Byte := 0x0A
/-- The code of the letter E (R113). -/
def codeE : Byte := 0x0B
/-- The code of the letter H (R113). -/
def codeH : Byte := 0x0C
/-- The code of the letter L (R113). -/
def codeL : Byte := 0x0D
/-- The code of the letter P (R113). -/
def codeP : Byte := 0x0E
/-- The code of a blank (R113). -/
def codeBlank : Byte := 0x0F

end Sys2Proof.Machine
end

