-- ==== Sys2Proof/Machine/Ops.lean ====
section
/-! DEFINITION. The shared operations: the framebuffer (spec/20_memory.md R45), the events (spec/00_scope.md R11), the
rising edge (spec/43_wire_frames.md R117), the transaction (spec/40_core.md R85), the transport failure, which is the one
exception of this machine (spec/60_exceptions.md R141, R144), and the acceptance of a command (R148). There is no return
from an exception (R153). -/

namespace Sys2Proof.Machine

/-! ### The framebuffer -/

/-- Read one cell. -/
def memRead : Memory → Nat → Byte
  | [], _ => unlistedCell
  | (b, v) :: m, a => if b = a then v else memRead m a

/-- Write one cell, keeping the canonical form. -/
def memWrite : Memory → Nat → Byte → Memory
  | [], a, v => if v = unlistedCell then [] else [(a, v)]
  | (b, w) :: m, a, v =>
    if a < b then (if v = unlistedCell then (b, w) :: m else (a, v) :: (b, w) :: m)
    else if a = b then (if v = unlistedCell then m else (a, v) :: m)
    else (b, w) :: memWrite m a v

/-- `MemRead((row, d), 1)` (R11, R45). -/
def readCell (row d : Nat) (s : State) : Byte := memRead s.mem (cellAddr row d)

/-- `MemWrite((row, d), 1, v)` (R11, R45). -/
def writeCell (row d : Nat) (v : Byte) (s : State) : State :=
  { s with mem := memWrite s.mem (cellAddr row d) v }

/-- Row `row` of the framebuffer, device 0 first (R96). -/
def readRow (row : Nat) (s : State) : List Byte :=
  (List.range s.params.n).map fun d => readCell row d s

/-! ### Events, the bus and the select line -/

/-- Append one event to `H` (R27). -/
def record (e : Event) (s : State) : State := { s with history := s.history ++ [e] }

/-- `Acquire()` (R11). -/
def acquire (s : State) : State := record .acq { s with busOwned := true }

/-- `Release()` (R11). -/
def release (s : State) : State := record .rel { s with busOwned := false }

/-- `SetSel(L)` (R11). -/
def setSel (l : Level) (s : State) : State := record (.sel l) { s with sel := l }

/-- The transport's next answer (R86). -/
def nextAnswer (s : State) : Answer := s.transport.headD .ok

/-- The transport has given its next answer. -/
def popAnswer (s : State) : State := { s with transport := s.transport.tail }

/-! ### The device chain -/

/-- Every device `k` has received the frame of slot `k` (R34, R116). A device past the last slot, which no instance has
(R134), keeps what its shift register holds. -/
def deliver (bytes : List Byte) (s : State) : State :=
  { s with devices := s.devices.mapIdx fun k dev => { dev with sr := (slotOf bytes k).getD dev.sr } }

/-- The rising edge that ends a transaction: all devices apply their frames in the same step (R55, R117). -/
def risingEdge (s : State) : State := { s with devices := s.devices.map latchDevice }

/-- What an edge taken device by device does at its next device; no device register changes where no edge is under way
(R117). -/
def atEdge (f : Device → Device) (s : State) : State :=
  match s.latching with
  | [] => s
  | k :: ks => { s with devices := s.devices.modify k f, latching := ks }

/-- The frame instruction writes register `r` of the device at the edge (R118, R120 to R132). -/
def writeAtEdge (r : DevReg) (d : Byte) (s : State) : State := atEdge (writeReg r d) s

/-! ### The exception: a transport failure -/

/-- `raise Fault(F_TRANSPORT)` in transaction `txn` at byte `j` (R85, R135, R141, R144): XFAIL is recorded, the select line
is left at a drawn level, the bus is released, every register of every device holds no value, and the sticky mark is set
if it is not set yet. The command ends with no status and counts (R23); construction's SSINIT is no command (R159). -/
def raiseTransport (txn j : Nat) (s : State) : State :=
  release (record .xfail
    { s with
      sel := Config.selAfterFail s.draws
      draws := s.draws + 1
      devices := s.devices.mapIdx (loseDevice s.draws)
      fault := match s.fault with
        | some r => some r
        | none => some
          { code := .transport
            cmdIndex := if s.activity = .construction then none else some s.cmdIndex
            txn := txn
            byte := j }
      cmdIndex := if s.activity = .construction then s.cmdIndex else s.cmdIndex + 1
      activity := .idle })

/-! ### The transaction -/

/-- A transfer stalls: no edge comes, and the shift registers are somewhere within the transaction (R34, R55, R145; log
entries 12 and 26). -/
def stallTransfer (s : State) : State :=
  { s with devices := s.devices.mapIdx (loseShift s.draws), draws := s.draws + 1 }

/-- How a command's pseudocode goes on after an operation. -/
inductive Run where
  /-- It goes on from this state. -/
  | go (s : State)
  /-- It does no more: the transport failed or stalled. -/
  | stop (s : State)
  deriving DecidableEq, Repr

/-- Do the rest of the pseudocode if it goes on (R93). -/
def andThen (r : Run) (f : State → Run) : Run :=
  match r with
  | .go s => f s
  | .stop s => .stop s

/-- Do `f` for each index of a list in order, stopping where the command stops (R93). -/
def forEach : List Nat → (Nat → State → Run) → State → Run
  | [], _, s => .go s
  | k :: ks, f, s => andThen (f k s) (forEach ks f)

/-- How the transfer of a byte string ends (R86). -/
inductive Sending where
  | sent (s : State)
  /-- The transfer of byte `j` failed. -/
  | failed (j : Nat) (s : State)
  /-- The transport never answers. -/
  | stalled (s : State)
  deriving DecidableEq, Repr

/-- `Xfer` of each byte in order, `j` counting from the index of the first (R85, R86). -/
def sendBytes : List Byte → Nat → State → Sending
  | [], _, s => .sent s
  | b :: bs, j, s =>
    match nextAnswer s with
    | .ok => sendBytes bs (j + 1) (popAnswer (record (.byte b) s))
    | .fail => .failed j (popAnswer (record (.byte b) s))
    | .stall => .stalled (popAnswer (record (.byte b) s))

/-- `Transact(bytes)`, the command's transaction number `txn` (R85). A stalled transfer leaves the bus owned, the select
line low and the command running, for ever (R145, V4). It does not count: R23 and R145 leave open when `cmd_index` advances, and
in this model it advances at the end of a command, DESIGN CHOICE, log entry 28. -/
def transact (txn : Nat) (bytes : List Byte) (s : State) : Run :=
  match sendBytes bytes 0 (setSel .low (acquire s)) with
  | .sent s' => .go (release (risingEdge (setSel .high (deliver bytes s'))))
  | .failed j s' => .stop (raiseTransport txn j s')
  | .stalled s' => .stop (stallTransfer s')

/-! ### Issuing a command -/

/-- The outcomes of a step of this machine. -/
abbrev Result := Host.Outcome State Fault Refusal

/-- The controller takes a host command that needs front-end `need`, unless it is stuck after a fault (R150), is already
running one (R148, R149), or lacks the front-end (R147). DESIGN CHOICE, log entry 9: a command given while another one, or
construction's SSINIT (R159), is executing is refused with RF_REENTRANT at once, under the current `cmd_index`, and counts. -/
def accept (need : Frontend) (op : Nat) (body : State → Result) (s : State) : Result :=
  if s.fault.isSome then .fault .afterFault
  else if s.activity ≠ .idle then .next (refuse .reentrant s)
  else if need ≠ .none ∧ need ≠ s.params.frontend then .next (refuse (.noFrontend op) s)
  else body s

/-- The command returns `OK` if it ran to its end; if it stopped, it returns nothing (R25, R139). -/
def finish (r : Run) : Result :=
  match r with
  | .go s => .next (complete .ok s)
  | .stop s => .next s

/-- A range error returns `FAIL` before any effect (R142); otherwise the command runs. -/
def ifInRange (inRange : Bool) (body : State → Run) (s : State) : Result :=
  if inRange then finish (body (start s)) else .next (complete .fail s)

/-! ### Fetching -/

/-- The frame in the shift register of device `k` (R34, R70); none where there is no such device. -/
def frameAt (k : Nat) (s : State) : Option Half := (s.devices[k]?).map Device.sr

/-- Device 0 holds frame `f` and is the one that applies it at the next step (log entries 13 and 20). -/
def placeFrame (f : Half) (s : State) : State :=
  { s with devices := s.devices.modify 0 (fun dev => { dev with sr := f }), latching := [0] }

/-- The instance has this front-end; one that is exchanged starts with an empty framebuffer (R29). -/
def withFrontend (fe : Frontend) (s : State) : State :=
  if s.params.frontend = fe then s else { s with params := { s.params with frontend := fe }, mem := [] }

/-- The controller is idle between two commands, with no fault recorded and no edge under way (R24). -/
def quiesce (s : State) : State :=
  { s with fault := none, activity := .idle, busOwned := false, sel := .high, latching := [] }

/-- The host issues `bytes` next, to an instance that has the front-end the command needs and is idle (log entry 20). -/
def placeCommand (need : Frontend) (bytes : List Byte) (s : State) : State :=
  let s' := quiesce (if need = .none then s else withFrontend need s)
  { s' with host := bytes :: s'.host }

end Sys2Proof.Machine
end

