-- ==== Sys2Proof/Machine/CoreCommands.lean ====
section
/-! DEFINITION. The core commands (spec/40_core.md R87, R88). -/

namespace Sys2Proof.Machine

/-- WRREG: one transaction `UniSeq(reg, val, tgt)` (R87). Any register address is sent unchanged (R73). -/
def execWrreg (reg val : Byte) (tgt : Nat) (s : State) : Result :=
  accept .none 0 (fun s => finish (transact 0 (uniSeq s.params.n reg val tgt) (start s))) s

/-- WRALL: one transaction `PaySeq(reg, payload)`; a payload that does not have exactly `N` bytes is refused with
`RF_LENGTH` (R88). -/
def execWrall (reg : Byte) (payload : List Byte) (s : State) : Result :=
  accept .none 1 (fun s =>
    if payload.length = s.params.n then finish (transact 0 (paySeq reg payload) (start s))
    else .next (refuse (.length (2 + payload.length)) s)) s

end Sys2Proof.Machine
end

