-- ==== Sys2Proof/Machine/Frames.lean ====
section
/-! DEFINITION. The wire frames, the instructions the devices run (spec/43_wire_frames.md R119 to R133). A frame acts on the
device that is at the rising edge (`State.latching`), and on no other device (R118). Where no edge is under way a frame
changes nothing (R117). No frame has a status and none raises an exception. -/

namespace Sys2Proof.Machine

/-- The frame `(0x00, 0x00)` changes no register (R119). -/
def execNoop (s : State) : Result := .next (atEdge id s)

/-- DIGIT0: `digit_k[0]` holds the byte (R120). -/
def execDigit0 (d : Byte) (s : State) : Result := .next (writeAtEdge .digit0 d s)

/-- DIGIT1: `digit_k[1]` holds the byte (R121). -/
def execDigit1 (d : Byte) (s : State) : Result := .next (writeAtEdge .digit1 d s)

/-- DIGIT2: `digit_k[2]` holds the byte (R122). -/
def execDigit2 (d : Byte) (s : State) : Result := .next (writeAtEdge .digit2 d s)

/-- DIGIT3: `digit_k[3]` holds the byte (R123). -/
def execDigit3 (d : Byte) (s : State) : Result := .next (writeAtEdge .digit3 d s)

/-- DIGIT4: `digit_k[4]` holds the byte (R124). -/
def execDigit4 (d : Byte) (s : State) : Result := .next (writeAtEdge .digit4 d s)

/-- DIGIT5: `digit_k[5]` holds the byte (R125). -/
def execDigit5 (d : Byte) (s : State) : Result := .next (writeAtEdge .digit5 d s)

/-- DIGIT6: `digit_k[6]` holds the byte (R126). -/
def execDigit6 (d : Byte) (s : State) : Result := .next (writeAtEdge .digit6 d s)

/-- DIGIT7: `digit_k[7]` holds the byte (R127). -/
def execDigit7 (d : Byte) (s : State) : Result := .next (writeAtEdge .digit7 d s)

/-- DECODE: `decode_k` holds the byte (R128). -/
def execDecodeMode (d : Byte) (s : State) : Result := .next (writeAtEdge .decode d s)

/-- INTENSITY: `intensity_k` holds the byte (R129); all eight bits are stored, the low nibble is the level. -/
def execIntensity (d : Byte) (s : State) : Result := .next (writeAtEdge .intensity d s)

/-- SCANLIMIT: `scanlimit_k` holds the byte (R130); what the byte means is not in the source. -/
def execScanlimit (d : Byte) (s : State) : Result := .next (writeAtEdge .scanlimit d s)

/-- SHUTDOWN: `shutdown_k` holds the byte (R131); no other register changes. -/
def execShutdown (d : Byte) (s : State) : Result := .next (writeAtEdge .shutdown d s)

/-- DISPTEST: `disptest_k` holds the byte (R132); the source gives no values. -/
def execDisptest (d : Byte) (s : State) : Result := .next (writeAtEdge .disptest d s)

/-- An undocumented frame, or a shift register whose contents are unknown: every register of the device at the edge is
left with no value (R133, R135). -/
def execUndocumented (s : State) : Result := .next (atEdge loseRegs s)

end Sys2Proof.Machine
end

