-- ==== Sys2Proof/Machine/Matrix.lean ====
section
/-! DEFINITION. The matrix front-end's commands (spec/41_matrix.md R96 to R100). -/

namespace Sys2Proof.Machine

/-- `PushRow(row)`: framebuffer row `row` goes to every device in one transaction (R96). It is transaction number `txn` of
its command. -/
def pushRow (txn row : Nat) (s : State) : Run :=
  transact txn (paySeq (digitAddr row) (readRow row s)) s

/-- Every cell of one row is written, device `d`'s with `v d` (R97, R98). -/
def writeRow (row : Nat) (v : Nat → Byte) (s : State) : State :=
  (List.range s.params.n).foldl (fun s d => writeCell row d (v d) s) s

/-- Every cell of the framebuffer is zeroed (R97). -/
def clearCells (s : State) : State :=
  (List.range 8).foldl (fun s row => writeRow row (fun _ => 0x00) s) s

/-- One bit of one cell is set or cleared, by a read and a write of the whole cell (R53, R99, R100). -/
def updateBit (row d b : Nat) (on : Bool) (s : State) : State :=
  writeCell row d (setBit b on (readCell row d s)) s

/-- MXCLR's pseudocode: all cells zeroed first, then the rows pushed in ascending order (R97, D19). -/
def clearMatrix (s : State) : Run :=
  forEach (List.range 8) (fun row s => pushRow row row s) (clearCells s)

/-- MXROW's pseudocode for a valid row (R98). -/
def setRow (row rmask : Nat) (s : State) : Run :=
  pushRow 0 row (writeRow row (maskByte rmask) s)

/-- MXCOL's pseudocode for a valid column: each row's update is followed at once by its push (R99, D18). -/
def setCol (col : Nat) (cmask : Byte) (s : State) : Run :=
  forEach (List.range 8)
    (fun row s => pushRow row row (updateBit row (col / 8) (col % 8) (cmask.getLsbD row) s)) s

/-- MXLED's pseudocode for a valid row and column (R100). -/
def setLed (row col : Nat) (led : Bool) (s : State) : Run :=
  pushRow 0 row (updateBit row (col / 8) (col % 8) led s)

/-- MXCLR (R97). -/
def execMxclr (s : State) : Result :=
  accept .matrix 2 (fun s => finish (clearMatrix (start s))) s

/-- MXROW: `FAIL` when `row` > 7 (R98, R142). -/
def execMxrow (row : Byte) (rmask : Nat) (s : State) : Result :=
  accept .matrix 3 (ifInRange (row.toNat ≤ 7) (setRow row.toNat rmask)) s

/-- MXCOL: `FAIL` when `col` ≥ 8×`N` (R99, R142, D17). -/
def execMxcol (col : Half) (cmask : Byte) (s : State) : Result :=
  accept .matrix 4 (fun s => ifInRange (col.toNat < 8 * s.params.n) (setCol col.toNat cmask) s) s

/-- MXLED: `FAIL` when `row` > 7 or `col` > 7 (R100, R142, D20). -/
def execMxled (row : Byte) (col : Half) (led : Bool) (s : State) : Result :=
  accept .matrix 5 (ifInRange (row.toNat ≤ 7 && col.toNat ≤ 7) (setLed row.toNat col.toNat led)) s

end Sys2Proof.Machine
end

