-- ==== Sys2Proof/Machine/SevenSeg.lean ====
section
/-! DEFINITION. The seven-segment front-end's commands (spec/42_sevenseg.md R109 to R111). -/

namespace Sys2Proof.Machine

/-- SSINIT's pseudocode: `DECODE_RAW` to decode-mode on all devices (R109, D22). Construction runs it too (R159). -/
def initSegments (s : State) : Run :=
  transact 0 (uniSeq s.params.n decodeAddr s.params.decodeRaw s.params.tAll) s

/-- SSCLR's pseudocode: 0x00 to digits 0 to 7, ascending, on all devices (R110, D21). -/
def clearSegments (s : State) : Run :=
  forEach (List.range 8) (fun k s => transact k (uniSeq s.params.n (digitAddr k) 0x00 s.params.tAll) s) s

/-- SSINIT (R109). -/
def execSsinit (s : State) : Result :=
  accept .sevenseg 6 (fun s => finish (initSegments (start s))) s

/-- SSCLR (R110). -/
def execSsclr (s : State) : Result :=
  accept .sevenseg 7 (fun s => finish (clearSegments (start s))) s

/-- SSHEX: a digit over 7 is a silent no-op that returns `OK` (R111, R143); otherwise one transaction with the numeral's
segment pattern. -/
def execSshex (digit hexval : Byte) (tgt : Nat) (s : State) : Result :=
  accept .sevenseg 8 (fun s =>
    if 7 < digit.toNat then .next (complete .ok s)
    else match s.params.hexTable[hexIndex hexval]? with
      | some pattern => finish (transact 0 (uniSeq s.params.n (digitAddr digit.toNat) pattern tgt) (start s))
      | none => .fault .noHexEntry) s

end Sys2Proof.Machine
end

