-- ==== Sys2Proof/Machine/Dispatch.lean ====
section
/-! DEFINITION. One arm per instruction, each one direct call of its meaning. -/

namespace Sys2Proof.Machine

def exec (i : Instr) (s : State) : Host.Outcome State Fault Refusal :=
  match i with
  -- core commands (spec/40_core.md)
  | .wrreg reg val tgt => Sys2Proof.Machine.execWrreg reg val tgt s
  | .wrall reg payload => Sys2Proof.Machine.execWrall reg payload s
  -- matrix front-end (spec/41_matrix.md)
  | .mxclr => Sys2Proof.Machine.execMxclr s
  | .mxrow row rmask => Sys2Proof.Machine.execMxrow row rmask s
  | .mxcol col cmask => Sys2Proof.Machine.execMxcol col cmask s
  | .mxled row col led => Sys2Proof.Machine.execMxled row col led s
  -- seven-segment front-end (spec/42_sevenseg.md)
  | .ssinit => Sys2Proof.Machine.execSsinit s
  | .ssclr => Sys2Proof.Machine.execSsclr s
  | .sshex digit hexval tgt => Sys2Proof.Machine.execSshex digit hexval tgt s
  -- wire frames (spec/43_wire_frames.md)
  | .noop => Sys2Proof.Machine.execNoop s
  | .digit0 d => Sys2Proof.Machine.execDigit0 d s
  | .digit1 d => Sys2Proof.Machine.execDigit1 d s
  | .digit2 d => Sys2Proof.Machine.execDigit2 d s
  | .digit3 d => Sys2Proof.Machine.execDigit3 d s
  | .digit4 d => Sys2Proof.Machine.execDigit4 d s
  | .digit5 d => Sys2Proof.Machine.execDigit5 d s
  | .digit6 d => Sys2Proof.Machine.execDigit6 d s
  | .digit7 d => Sys2Proof.Machine.execDigit7 d s
  | .decodeMode d => Sys2Proof.Machine.execDecodeMode d s
  | .intensity d => Sys2Proof.Machine.execIntensity d s
  | .scanlimit d => Sys2Proof.Machine.execScanlimit d s
  | .shutdown d => Sys2Proof.Machine.execShutdown d s
  | .disptest d => Sys2Proof.Machine.execDisptest d s

end Sys2Proof.Machine
end

