-- ==== Sys2Proof/Machine/Step.lean ====
section
/-! DEFINITION. One step of the machine: a device at a rising edge taken device by device runs the frame in its shift
register; otherwise the controller runs the host's next command to its end (spec/00_scope.md R12, R13), waits for ever on a
stalled transfer (spec/60_exceptions.md R145), or is stuck after a fault (R150). -/

namespace Sys2Proof.Machine

/-- The device at the edge runs the frame in its shift register (R70, R117); an undocumented frame leaves its registers with
no value (R133). A device that does not exist, which no instance has at an edge, changes nothing. -/
def stepFrame (k : Nat) (s : State) : Host.Outcome State Fault Refusal :=
  match frameAt k s with
  | some f =>
    match decodeFrame (frameAddr f) (frameData f) with
    | some i => exec i s
    | none => execUndocumented s
  | none => execNoop s

/-- The host issues its next command (R65, R148). With none left, nothing happens (R151). -/
def stepCommand (s : State) : Host.Outcome State Fault Refusal :=
  match s.host with
  | [] => .next s
  | bytes :: rest =>
    match decode s.params bytes with
    | .ok i => exec i { s with host := rest }
    | .error reason => .next (refuse reason { s with host := rest })

/-- One step. -/
def step (s : State) : Host.Outcome State Fault Refusal :=
  match s.latching with
  | k :: _ => stepFrame k s
  | [] =>
    if s.fault.isSome then .fault .afterFault
    else if s.activity ≠ .idle then .next s
    else stepCommand s

/-- `s` with the table word `w` where the next step fetches (log entry 20): a frame in the shift register of device 0, at an
edge; a command at the head of the host's queue, of an idle instance that has its front-end. -/
def State.withFetchWord (s : State) (nbits w : Nat) : State :=
  if tableFrame nbits then placeFrame (BitVec.ofNat 16 w) s
  else placeCommand (opFrontend (w % 256)) (tableCommand s.params nbits w) s

end Sys2Proof.Machine
end

