-- ==== Sys2Proof/Machine/Assembly.lean ====
section
/-! DEFINITION. The assembler's syntax (spec/30_encoding.md R77), the pseudo-instructions (R78) and the disassembler (R79),
over lists of characters. What R77 leaves open (where spaces and tabs may stand, capitals, the case of hexadecimal digits,
which lines are no command and which are errors, in which operand positions `ALL` is accepted) is log entry 22. -/

namespace Sys2Proof.Machine

/-! ### Pseudo-instructions -/

/-- The pseudo-instructions of R78. -/
inductive Pseudo where
  | bcast (reg val : Byte)
  | nop
  | shdn (tgt : Nat)
  | wake (tgt : Nat)
  | intens (v : Byte) (tgt : Nat)
  | scanlim (v : Byte) (tgt : Nat)
  | decmode (v : Byte) (tgt : Nat)
  | dtest (v : Byte) (tgt : Nat)
  | digit (n : Nat) (v : Byte) (tgt : Nat)
  deriving DecidableEq, Repr

/-- The one command a pseudo-instruction expands to; none is an assembly error (R78). -/
def expand (p : Params) : Pseudo → Option Instr
  | .bcast reg val => some (.wrreg reg val p.tAll)
  | .nop => some (.wrreg 0x00 0x00 p.tAll)
  | .shdn tgt => some (.wrreg (regAddr .shutdown) 0x00 tgt)
  | .wake tgt => some (.wrreg (regAddr .shutdown) 0x01 tgt)
  | .intens v tgt => some (.wrreg (regAddr .intensity) v tgt)
  | .scanlim v tgt => some (.wrreg (regAddr .scanlimit) v tgt)
  | .decmode v tgt => some (.wrreg (regAddr .decode) v tgt)
  | .dtest v tgt => some (.wrreg (regAddr .disptest) v tgt)
  | .digit n v tgt => if n ≤ 7 then some (.wrreg (BitVec.ofNat 8 (0x01 + n)) v tgt) else none

/-! ### Words of a line -/

/-- The parts of a line. -/
inductive Token where
  | word (w : List Char)
  | comma
  | openBrace
  | closeBrace
  deriving DecidableEq, Repr

/-- The word collected so far, if any; `acc` is reversed. -/
def flushWord (acc : List Char) : List Token :=
  if acc = [] then [] else [.word acc.reverse]

/-- The brace that opens a list of payload bytes. -/
def openChar : Char := Char.ofNat 123
/-- The brace that closes a list of payload bytes. -/
def closeChar : Char := Char.ofNat 125

/-- Cut a line into its parts; `;` starts a comment (R77). -/
def lex : List Char → List Char → List Token
  | [], acc => flushWord acc
  | c :: cs, acc =>
    if c = ';' then flushWord acc
    else if c = ' ' ∨ c = '\t' then flushWord acc ++ lex cs []
    else if c = ',' then flushWord acc ++ .comma :: lex cs []
    else if c = openChar then flushWord acc ++ .openBrace :: lex cs []
    else if c = closeChar then flushWord acc ++ .closeBrace :: lex cs []
    else lex cs (c :: acc)

/-- One operand: a word, or a list of words in braces. -/
inductive Operand where
  | word (w : List Char)
  | list (ws : List (List Char))
  deriving DecidableEq, Repr

/-- The operands of a line, separated by commas; `inside` is the list read so far where a brace is open (R77). -/
def parseOperands : Option (List (List Char)) → List Token → Option (List Operand)
  | none, [.word w] => some [.word w]
  | none, .word w :: .comma :: rest => (parseOperands none rest).map (.word w :: ·)
  | none, .openBrace :: rest => parseOperands (some []) rest
  | some inside, .word w :: .comma :: rest => parseOperands (some (inside ++ [w])) rest
  | some inside, [.word w, .closeBrace] => some [.list (inside ++ [w])]
  | some inside, .word w :: .closeBrace :: .comma :: rest =>
    (parseOperands none rest).map (.list (inside ++ [w]) :: ·)
  | _, _ => none

/-! ### Numbers and names -/

/-- The value of a digit, decimal or hexadecimal. -/
def digitValue (c : Char) : Option Nat :=
  let v := c.toNat
  if 48 ≤ v ∧ v ≤ 57 then some (v - 48)
  else if 65 ≤ v ∧ v ≤ 70 then some (v - 55)
  else if 97 ≤ v ∧ v ≤ 102 then some (v - 87)
  else none

/-- The number the digits stand for in a base, after `acc`. -/
def parseDigits (base : Nat) : List Char → Nat → Option Nat
  | [], acc => some acc
  | c :: cs, acc =>
    match digitValue c with
    | some v => if v < base then parseDigits base cs (base * acc + v) else none
    | none => none

/-- A number, decimal or hexadecimal with `0x` (R77). -/
def parseNumber : List Char → Option Nat
  | [] => none
  | '0' :: 'x' :: [] => none
  | '0' :: 'x' :: c :: cs => parseDigits 16 (c :: cs) 0
  | c :: cs => parseDigits 10 (c :: cs) 0

/-- The register names that may stand for a `reg` number (R77). -/
def regName (w : List Char) : Option Byte :=
  if w = ['N', 'O', 'O', 'P', 'R', 'E', 'G'] then some 0x00
  else if w = ['D', 'I', 'G', 'I', 'T', '0'] then some 0x01
  else if w = ['D', 'I', 'G', 'I', 'T', '1'] then some 0x02
  else if w = ['D', 'I', 'G', 'I', 'T', '2'] then some 0x03
  else if w = ['D', 'I', 'G', 'I', 'T', '3'] then some 0x04
  else if w = ['D', 'I', 'G', 'I', 'T', '4'] then some 0x05
  else if w = ['D', 'I', 'G', 'I', 'T', '5'] then some 0x06
  else if w = ['D', 'I', 'G', 'I', 'T', '6'] then some 0x07
  else if w = ['D', 'I', 'G', 'I', 'T', '7'] then some 0x08
  else if w = ['D', 'E', 'C', 'O', 'D', 'E'] then some 0x09
  else if w = ['I', 'N', 'T', 'E', 'N', 'S', 'I', 'T', 'Y'] then some 0x0A
  else if w = ['S', 'C', 'A', 'N', 'L', 'I', 'M', 'I', 'T'] then some 0x0B
  else if w = ['S', 'H', 'U', 'T', 'D', 'O', 'W', 'N'] then some 0x0C
  else if w = ['D', 'I', 'S', 'P', 'T', 'E', 'S', 'T'] then some 0x0F
  else none

/-- A number below a bound; one that does not fit its field is an assembly error (R77). -/
def numberBelow (bound : Nat) (w : List Char) : Option Nat :=
  (parseNumber w).bind fun v => if v < bound then some v else none

/-- A byte operand, a number; the word `ALL` is none here (DESIGN CHOICE, log entry 22). -/
def byteOperand (w : List Char) : Option Byte := (numberBelow 256 w).map (BitVec.ofNat 8)

/-- A `reg` operand: a name or a byte. -/
def regOperand (w : List Char) : Option Byte :=
  match regName w with
  | some b => some b
  | none => byteOperand w

/-- A `col` operand. -/
def colOperand (w : List Char) : Option Half := (numberBelow 65536 w).map (BitVec.ofNat 16)

/-- The word that stands for `T_ALL` (R77). -/
def allWord : List Char := ['A', 'L', 'L']

/-- A `tgt` operand: `ALL` or a number of `W_T` bits. R77 says that "the operand `ALL` stands for `T_ALL`" and not in which
positions: that it is accepted as `tgt` only is DESIGN CHOICE, log entry 22. -/
def tgtOperand (p : Params) (w : List Char) : Option Nat :=
  if w = allWord then some p.tAll else numberBelow (2 ^ p.wT) w

/-- A list of bytes. -/
def byteOperands : List (List Char) → Option (List Byte)
  | [] => some []
  | w :: ws =>
    match byteOperand w, byteOperands ws with
    | some b, some bs => some (b :: bs)
    | _, _ => none

/-! ### Mnemonics -/

/-- `WRREG`. -/
def nameWrreg : List Char := ['W', 'R', 'R', 'E', 'G']
/-- `WRALL`. -/
def nameWrall : List Char := ['W', 'R', 'A', 'L', 'L']
/-- `MXCLR`. -/
def nameMxclr : List Char := ['M', 'X', 'C', 'L', 'R']
/-- `MXROW`. -/
def nameMxrow : List Char := ['M', 'X', 'R', 'O', 'W']
/-- `MXCOL`. -/
def nameMxcol : List Char := ['M', 'X', 'C', 'O', 'L']
/-- `MXLED`. -/
def nameMxled : List Char := ['M', 'X', 'L', 'E', 'D']
/-- `SSINIT`. -/
def nameSsinit : List Char := ['S', 'S', 'I', 'N', 'I', 'T']
/-- `SSCLR`. -/
def nameSsclr : List Char := ['S', 'S', 'C', 'L', 'R']
/-- `SSHEX`. -/
def nameSshex : List Char := ['S', 'S', 'H', 'E', 'X']

/-- A command in R77's table, from its mnemonic and operands; none is an assembly error. -/
def commandOf (p : Params) (name : List Char) (ops : List Operand) : Option Instr :=
  if name = nameWrreg then
    match ops with
    | [.word r, .word v, .word t] =>
      match regOperand r, byteOperand v, tgtOperand p t with
      | some reg, some val, some tgt => some (.wrreg reg val tgt)
      | _, _, _ => none
    | _ => none
  else if name = nameWrall then
    match ops with
    | [.word r, .list ws] =>
      match regOperand r, byteOperands ws with
      | some reg, some payload => if payload.length = p.n then some (.wrall reg payload) else none
      | _, _ => none
    | _ => none
  else if name = nameMxclr then (if ops = [] then some .mxclr else none)
  else if name = nameMxrow then
    match ops with
    | [.word r, .word m] =>
      match byteOperand r, numberBelow (2 ^ (8 * p.n)) m with
      | some row, some rmask => some (.mxrow row rmask)
      | _, _ => none
    | _ => none
  else if name = nameMxcol then
    match ops with
    | [.word c, .word m] =>
      match colOperand c, byteOperand m with
      | some col, some cmask => some (.mxcol col cmask)
      | _, _ => none
    | _ => none
  else if name = nameMxled then
    match ops with
    | [.word r, .word c, .word l] =>
      match byteOperand r, colOperand c, numberBelow 2 l with
      | some row, some col, some led => some (.mxled row col (led == 1))
      | _, _, _ => none
    | _ => none
  else if name = nameSsinit then (if ops = [] then some .ssinit else none)
  else if name = nameSsclr then (if ops = [] then some .ssclr else none)
  else if name = nameSshex then
    match ops with
    | [.word g, .word h, .word t] =>
      match byteOperand g, byteOperand h, tgtOperand p t with
      | some digit, some hexval, some tgt => some (.sshex digit hexval tgt)
      | _, _, _ => none
    | _ => none
  else none

/-- A pseudo-instruction with a value and a target. -/
def valueTarget (p : Params) (f : Byte → Nat → Pseudo) (ops : List Operand) : Option Pseudo :=
  match ops with
  | [.word v, .word t] =>
    match byteOperand v, tgtOperand p t with
    | some v, some tgt => some (f v tgt)
    | _, _ => none
  | _ => none

/-- A pseudo-instruction of R78's table, from its name and operands. -/
def pseudoOf (p : Params) (name : List Char) (ops : List Operand) : Option Pseudo :=
  if name = ['B', 'C', 'A', 'S', 'T'] then
    match ops with
    | [.word r, .word v] =>
      match regOperand r, byteOperand v with
      | some reg, some val => some (.bcast reg val)
      | _, _ => none
    | _ => none
  else if name = ['N', 'O', 'P'] then (if ops = [] then some .nop else none)
  else if name = ['S', 'H', 'D', 'N'] then
    match ops with
    | [.word t] => (tgtOperand p t).map .shdn
    | _ => none
  else if name = ['W', 'A', 'K', 'E'] then
    match ops with
    | [.word t] => (tgtOperand p t).map .wake
    | _ => none
  else if name = ['I', 'N', 'T', 'E', 'N', 'S'] then valueTarget p .intens ops
  else if name = ['S', 'C', 'A', 'N', 'L', 'I', 'M'] then valueTarget p .scanlim ops
  else if name = ['D', 'E', 'C', 'M', 'O', 'D', 'E'] then valueTarget p .decmode ops
  else if name = ['D', 'T', 'E', 'S', 'T'] then valueTarget p .dtest ops
  else if name = ['D', 'I', 'G', 'I', 'T'] then
    match ops with
    | [.word k, .word v, .word t] =>
      match parseNumber k, byteOperand v, tgtOperand p t with
      | some n, some v, some tgt => some (.digit n v tgt)
      | _, _, _ => none
    | _ => none
  else none

/-! ### Lines -/

/-- What a line assembles to. -/
inductive Line where
  /-- Nothing, or a comment. -/
  | blank
  /-- An assembly error: no command is emitted (R77). -/
  | bad
  | command (i : Instr)
  deriving DecidableEq, Repr

/-- The command or pseudo-instruction of a line. -/
def assembleWords (p : Params) (name : List Char) (ops : List Operand) : Line :=
  match commandOf p name ops with
  | some i => .command i
  | none =>
    match (pseudoOf p name ops).bind (expand p) with
    | some i => .command i
    | none => .bad

/-- Assemble one line (R77). -/
def assembleLine (p : Params) (line : List Char) : Line :=
  match lex line [] with
  | [] => .blank
  | [.word name] => assembleWords p name []
  | .word name :: rest =>
    match parseOperands none rest with
    | some ops => assembleWords p name ops
    | none => .bad
  | _ => .bad

/-! ### The disassembler -/

/-- A hexadecimal digit. -/
def hexChar (v : Nat) : Char := if v < 10 then Char.ofNat (48 + v) else Char.ofNat (55 + v)

/-- The last `count` hexadecimal digits of a number, most significant first. -/
def hexDigits : Nat → Nat → List Char
  | 0, _ => []
  | count + 1, v => hexChar (v / 16 ^ count % 16) :: hexDigits count v

/-- A number as `0x` and `count` digits. -/
def printHex (count v : Nat) : List Char := '0' :: 'x' :: hexDigits count v

/-- A byte as a number. -/
def printByte (b : Byte) : List Char := printHex 2 b.toNat

/-- `tgt` is printed as `ALL` when it is `T_ALL` and as a number otherwise (R79). -/
def printTgt (p : Params) (tgt : Nat) : List Char :=
  if tgt = p.tAll then allWord else printHex ((p.wT + 3) / 4) tgt

/-- A comma and a space. -/
def separator : List Char := [',', ' ']

/-- Bytes separated by commas. -/
def printBytes : List Byte → List Char
  | [] => []
  | [b] => printByte b
  | b :: bs => printByte b ++ separator ++ printBytes bs

/-- A command in R77's syntax, never as a pseudo-instruction (R79); a wire frame has none. -/
def disassemble (p : Params) : Instr → Option (List Char)
  | .wrreg reg val tgt =>
    some (nameWrreg ++ [' '] ++ printByte reg ++ separator ++ printByte val ++ separator ++ printTgt p tgt)
  | .wrall reg payload =>
    some (nameWrall ++ [' '] ++ printByte reg ++ separator ++ [openChar] ++ printBytes payload ++ [closeChar])
  | .mxclr => some nameMxclr
  | .mxrow row rmask => some (nameMxrow ++ [' '] ++ printByte row ++ separator ++ printHex (2 * p.n) rmask)
  | .mxcol col cmask => some (nameMxcol ++ [' '] ++ printHex 4 col.toNat ++ separator ++ printByte cmask)
  | .mxled row col led =>
    some (nameMxled ++ [' '] ++ printByte row ++ separator ++ printHex 4 col.toNat ++ separator ++
      printHex 1 (if led then 1 else 0))
  | .ssinit => some nameSsinit
  | .ssclr => some nameSsclr
  | .sshex digit hexval tgt =>
    some (nameSshex ++ [' '] ++ printByte digit ++ separator ++ printByte hexval ++ separator ++ printTgt p tgt)
  | .noop | .digit0 _ | .digit1 _ | .digit2 _ | .digit3 _ | .digit4 _ | .digit5 _ | .digit6 _ | .digit7 _
  | .decodeMode _ | .intensity _ | .scanlimit _ | .shutdown _ | .disptest _ => none

end Sys2Proof.Machine
end

