-- ==== Sys2Proof/Machine/Construct.lean ====
section
/-! DEFINITION. Reset is construction (spec/70_reset_and_hazards.md R159): parameters make an instance or are refused. -/

namespace Sys2Proof.Machine

/-- What construction gives. -/
inductive Construction where
  /-- No instance exists (R147). -/
  | refused (reason : RefuseReason)
  /-- The state of the new instance. -/
  | built (s : State)
  deriving DecidableEq, Repr

/-- `Construct(params)` (R159), with the transport's answers to come. A SEVENSEG instance runs SSINIT, which is no host
command: it returns no status and does not count. A fault or a stall in it leaves an instance that takes no command. -/
def construct (p : Params) (answers : List Answer) : Construction :=
  if p.Legal then
    match p.frontend with
    | .none => .built (State.initial p answers)
    | .matrix => .built (State.initial p answers)
    | .sevenseg =>
      match initSegments { State.initial p answers with activity := .construction } with
      | .go s => .built { s with activity := .idle }
      | .stop s => .built s
  else .refused (.config p)

end Sys2Proof.Machine
end

