-- ==== Sys2Proof/Machine/Observe.lean ====
section
/-! DEFINITION. What can be observed (spec/10_state.md R28, R41; spec/60_exceptions.md R156): the history and its complete
transactions, the marks, the framebuffer, the statuses, and the device registers that hold a value. Observing changes
nothing. -/

namespace Sys2Proof.Machine

/-- Where a reader of the history stands: outside a transaction, after ACQ, while the select line is low, after it rose,
after XFAIL, or after events that no transaction has. -/
inductive Scan where
  | outside
  | acquired
  | low (bytes : List Byte)
  | high (bytes : List Byte)
  | failed
  | broken
  deriving DecidableEq, Repr

/-- Read one event. ACQ begins a transaction wherever it stands. -/
def scanNext : Scan → Event → Scan
  | _, .acq => .acquired
  | .acquired, .sel .low => .low []
  | .low bytes, .byte b => .low (bytes ++ [b])
  | .low bytes, .sel .high => .high bytes
  | .low _, .xfail => .failed
  | .high _, .rel => .outside
  | .failed, .rel => .outside
  | _, _ => .broken

/-- The complete transactions that a history closes, read from `at_`; `n` is the chain length (R28). -/
def txFrom (n : Nat) : Scan → List Event → List (List Byte)
  | _, [] => []
  | .high bytes, .rel :: es =>
    if bytes.length = 2 * n then bytes :: txFrom n .outside es else txFrom n .outside es
  | at_, e :: es => txFrom n (scanNext at_ e) es

/-- `Tx(H)`: the byte strings of the complete transactions, in order (R28). -/
def transactions (s : State) : List (List Byte) := txFrom s.params.n .outside s.history

/-- The event may stand here: the brackets of R54 and R85 nest as they should, and the line rises after exactly `2×N`
bytes. -/
def scanAllows (n : Nat) : Scan → Event → Bool
  | .outside, .acq => true
  | .acquired, .sel .low => true
  | .low bytes, .byte _ => decide (bytes.length < 2 * n)
  | .low bytes, .sel .high => decide (bytes.length = 2 * n)
  | .low _, .xfail => true
  | .high _, .rel => true
  | .failed, .rel => true
  | _, _ => false

/-- Every event of the history stands where it may. -/
def orderly (n : Nat) : Scan → List Event → Bool
  | _, [] => true
  | at_, e :: es => scanAllows n at_ e && orderly n (scanNext at_ e) es

/-- Where a reader of the history stands at its end. -/
def scanEnd (at_ : Scan) (es : List Event) : Scan := es.foldl scanNext at_

/-- The host reads a framebuffer cell between commands (R156, D33). R45 says of a cell that does not exist only that no
command accesses it; that the host's read of one faults is DESIGN CHOICE, log entry 27. The spec gives the read between
commands only; that it gives the cell also while a transfer stalls or after a fault is DESIGN CHOICE, log entry 29. -/
def hostReadCell (row d : Nat) (s : State) : Except Fault Byte :=
  if s.params.frontend = .matrix ∧ row < 8 ∧ d < s.params.n then .ok (readCell row d s) else .error .noSuchCell

/-- The observation of a device register (R41); one that holds no value faults (R35, R133, D27). That a device which does
not exist faults is DESIGN CHOICE, log entry 27, and that every state may be observed, not only the end of a run, log entry 29. -/
def observeReg (k : Nat) (r : DevReg) (s : State) : Except Fault Byte :=
  match s.devices[k]? with
  | none => .error .noSuchDevice
  | some dev =>
    match regOf r dev with
    | none => .error .noValue
    | some v => .ok v

/-- The registers of a device, in address order (R38). -/
def allRegs : List DevReg :=
  [.digit0, .digit1, .digit2, .digit3, .digit4, .digit5, .digit6, .digit7,
    .decode, .intensity, .scanlimit, .shutdown, .disptest]

/-- What may be observed at the end of a run (R41). -/
structure Observation where
  history : List Event
  transactions : List (List Byte)
  fault : Option FaultRecord
  refused : Bool
  /-- The rows of `fb`; none where the instance has no framebuffer (R29). -/
  cells : Option (List (List Byte))
  returned : List (Nat × Status)
  /-- For each device, the registers that hold a value. -/
  registers : List (List (DevReg × Byte))
  deriving DecidableEq, Repr

/-- The observation of a state (R41). The spec gives it at the end of a run (R41) and of `fb` and `H` between commands (R156);
that every state may be observed is DESIGN CHOICE, log entry 29. -/
def observe (s : State) : Observation where
  history := s.history
  transactions := transactions s
  fault := s.fault
  refused := s.refused
  cells := if s.params.frontend = .matrix then some ((List.range 8).map fun row => readRow row s) else none
  returned := s.returned
  registers := s.devices.map fun dev => allRegs.filterMap fun r => (regOf r dev).map fun v => (r, v)

end Sys2Proof.Machine
end

