-- ==== Sys2Proof/Safety.lean ====
section
/-! DEFINITION. The terms claims use: when the controller takes a command, what the transport is to answer, what a run of
completed transactions leaves, the invariants of the machine, and when a run has ended (spec/70_reset_and_hazards.md R177). -/

namespace Sys2Proof.Machine

/-- The controller takes the next command: no fault is recorded and nothing is executing, so the bus is free and the
select line high (R24). -/
abbrev Ready (s : State) : Prop :=
  s.fault = none ∧ s.activity = .idle ∧ s.busOwned = false ∧ s.sel = .high

/-- The transport answers ok to each of the next `k` transfers (R86). -/
abbrev AnswersOk (k : Nat) (s : State) : Prop := ∀ a ∈ s.transport.take k, a = .ok

/-- The events of one complete transaction (R28, R85). -/
def transactionEvents (bytes : List Byte) : List Event :=
  [.acq, .sel .low] ++ bytes.map .byte ++ [.sel .high, .rel]

/-- The chain after one complete transaction: device `k` has applied the frame of slot `k` (R116, R117). -/
def latchBytes (bytes : List Byte) (devices : List Device) : List Device :=
  devices.mapIdx fun k dev => latchDevice { dev with sr := (slotOf bytes k).getD dev.sr }

/-- The state after these complete transactions, in order, from a state that is ready: the history has their events, the
devices have latched their frames, and the transport has given its answers. Nothing else changes. -/
def afterTransactions (txs : List (List Byte)) (s : State) : State :=
  { s with
    history := s.history ++ txs.flatMap transactionEvents
    devices := txs.foldl (fun devices bytes => latchBytes bytes devices) s.devices
    transport := s.transport.drop (txs.map List.length).sum }

/-- The command returned this status: it is on record and the command counts (R23, R25). -/
def returning (status : Status) (s : State) : State :=
  { s with returned := s.returned ++ [(s.cmdIndex, status)], cmdIndex := s.cmdIndex + 1 }

/-- The register a digit frame or a row push of index `k` writes holds this on device `d`. -/
abbrev deviceHolds (s : State) (d : Nat) (r : DevReg) (v : Byte) : Prop :=
  (s.devices[d]?).bind (regOf r) = some v

/-- The matrix commands (R66). -/
def isMatrixCommand (i : Instr) : Bool := decide (i.frontend = .matrix)

/-- The rows a matrix command pushes when it returns `OK` (R97 to R100). -/
def pushedRows : Instr → List Nat
  | .mxclr => List.range 8
  | .mxrow row _ => [row.toNat]
  | .mxcol _ _ => List.range 8
  | .mxled row _ _ => [row.toNat]
  | .wrreg _ _ _ | .wrall _ _ | .ssinit | .ssclr | .sshex _ _ _
  | .noop | .digit0 _ | .digit1 _ | .digit2 _ | .digit3 _ | .digit4 _ | .digit5 _ | .digit6 _ | .digit7 _
  | .decodeMode _ | .intensity _ | .scanlimit _ | .shutdown _ | .disptest _ => []

/-- The most transactions a command makes (R176); a wire frame makes none. -/
def transactionBound : Instr → Nat
  | .mxclr | .mxcol _ _ | .ssclr => 8
  | .wrreg _ _ _ | .wrall _ _ | .mxrow _ _ | .mxled _ _ _ | .ssinit | .sshex _ _ _ => 1
  | .noop | .digit0 _ | .digit1 _ | .digit2 _ | .digit3 _ | .digit4 _ | .digit5 _ | .digit6 _ | .digit7 _
  | .decodeMode _ | .intensity _ | .scanlimit _ | .shutdown _ | .disptest _ => 0

/-- A frame that no rule documents: (0x00, D) with D not 0, and addresses 0x0D, 0x0E and 0x10 to 0xFF (R71, R133). -/
abbrev Undocumented (a d : Byte) : Prop :=
  (a = 0x00 ∧ d ≠ 0x00) ∨ a = 0x0D ∨ a = 0x0E ∨ 0x10 ≤ a.toNat

/-- An outcome with the devices' registers and shift registers taken away. -/
def withoutDevices : Result → Result
  | .next t => .next { t with devices := [] }
  | .fault a => .fault a
  | .refused a => .refused a

/-- The framebuffer is in its canonical form, has only cells that exist, and is empty without the front-end (R29, R45). -/
abbrev FramebufferInv (s : State) : Prop :=
  Memory.wf s.mem = true ∧ (∀ c ∈ s.mem, c.1 < 8 * s.params.n) ∧ (s.params.frontend ≠ .matrix → s.mem = [])

/-- The bus and the select line (R24, R174): between commands the bus is free, and the line is high unless a fault is
recorded; while a transfer stalls the bus is owned and the line is low (R145, V4). -/
abbrev BusInv (s : State) : Prop :=
  (s.activity = .idle → s.busOwned = false ∧ (s.fault = none → s.sel = .high)) ∧
    (s.activity ≠ .idle → s.busOwned = true ∧ s.sel = .low ∧ s.fault = none)

/-- The invariant of the machine. -/
abbrev Inv (s : State) : Prop :=
  s.params.Legal ∧ s.devices.length = s.params.n ∧ (∀ k ∈ s.latching, k < s.params.n) ∧
    FramebufferInv s ∧ BusInv s ∧
    (s.params.transportLive = true → s.activity = .idle ∧ Answer.stall ∉ s.transport) ∧
    s.refused = !s.refusals.isEmpty

/-- The history is a sequence of whole transactions, each bracketed as R54 and R85 say, up to the one that stalled. -/
abbrev BracketInv (s : State) : Prop :=
  orderly s.params.n .outside s.history = true ∧
    (s.activity = .idle → scanEnd .outside s.history = .outside) ∧
    (s.activity ≠ .idle → ∃ bytes, scanEnd .outside s.history = .low bytes)

/-- A run has ended: the host's last command has completed, with no fault and no refusal recorded (R177). R177 is silent on
a program of no commands: that its run has ended at once, before any command has completed, is DESIGN CHOICE, log entry 31. -/
def runEnded (s : State) : Bool :=
  s.host.isEmpty && s.fault.isNone && !s.refused && decide (s.activity = .idle)

end Sys2Proof.Machine
end

