-- ==== Sys2Proof/Certificates/Slice0/Obligations.lean ====
section
/-! DEFINITION. The statements for the provers, each from the numbered rules of spec/. A statement whose conclusion is an
equation with a next state written as an update of `s` says the instruction's frame as well: every field that the update
does not name is unchanged. Some fields that such an equation names are the model's own form of what the spec gives: the
host's commands to come (log entry 1), the transport's answers to come (4), the counter of free values (5), the list of
refusals (8), the shift registers (12), the edge taken device by device (13), the framebuffer as the list of its nonzero
cells (15) and the list of returned statuses (17). -/

open Sys2Proof Sys2Proof.Machine

/-! ### Encoding -/

/-- A well-formed command decodes back from its record, with every operand at every value (R65 to R67). -/
def Obligations.CommandDecodesBack : Prop :=
  ∀ (p : Params) (i : Instr), i.isFrame = false → i.wellFormed p = true → decode p (encode p i) = .ok i

/-- A byte string that decodes is the record of the instruction it decodes to, which is well formed: each record has one
meaning (R65, R79). -/
def Obligations.RecordHasOneMeaning : Prop :=
  ∀ (p : Params) (bytes : List Byte) (i : Instr), decode p bytes = .ok i →
    encode p i = bytes ∧ i.isFrame = false ∧ i.wellFormed p = true

/-- Wire frames: each frame instruction decodes back from its two bytes, each pair of bytes that decodes is that
instruction's frame, and the pairs that do not decode are the undocumented ones (R70, R71, R133). -/
def Obligations.FrameDecodesBack : Prop :=
  (∀ (p : Params) (i : Instr), i.isFrame = true →
    ∃ a d : Byte, encode p i = [a, d] ∧ decodeFrame a d = some i) ∧
  (∀ (p : Params) (a d : Byte) (i : Instr), decodeFrame a d = some i → i.isFrame = true ∧ encode p i = [a, d]) ∧
  (∀ a d : Byte, decodeFrame a d = none ↔ Undocumented a d)

/-- The decoder's checks in R148's order: opcode bits 7:4, reserved op, absent front-end, length, bits above a field's
width; each reason carries what R140 records. -/
def Obligations.DecodeChecksInOrder : Prop :=
  ∀ (p : Params) (b : Byte) (fields : List Byte),
    (0x10 ≤ b.toNat → decode p (b :: fields) = .error (.reservedBits (b :: fields))) ∧
    (9 ≤ b.toNat → b.toNat ≤ 15 → decode p (b :: fields) = .error (.reservedOp b)) ∧
    ((2 ≤ b.toNat ∧ b.toNat ≤ 5 ∧ p.frontend ≠ .matrix) ∨ (6 ≤ b.toNat ∧ b.toNat ≤ 8 ∧ p.frontend ≠ .sevenseg) →
      decode p (b :: fields) = .error (.noFrontend b.toNat)) ∧
    (b.toNat ≤ 8 → (2 ≤ b.toNat ∧ b.toNat ≤ 5 → p.frontend = .matrix) → (6 ≤ b.toNat → p.frontend = .sevenseg) →
      ((b :: fields).length ≠ commandLength p b.toNat →
        decode p (b :: fields) = .error (.length (b :: fields).length)) ∧
      ((b :: fields).length = commandLength p b.toNat →
        (∃ i : Instr, i.wellFormed p = true ∧ i.isFrame = false ∧ encode p i = b :: fields ∧
          decode p (b :: fields) = .ok i) ∨
        ((∀ i : Instr, i.wellFormed p = true → i.isFrame = false → encode p i ≠ b :: fields) ∧
          decode p (b :: fields) = .error (.reservedBits (b :: fields)))))

/-- Words written out from the encodings of R65 and R71 decode to their instructions. -/
def Obligations.WordsOfTheTableDecode : Prop :=
  decode { resetParams with n := 3 } [0x00, 0x0A, 0x05, 0x01] = .ok (.wrreg 0x0A 0x05 1) ∧
  decode { resetParams with n := 3 } [0x03, 0x02, 0x00, 0xFF, 0x00] = .ok (.mxrow 2 0x00FF00) ∧
  decode resetParams [0x04, 0x09, 0x00, 0x81] = .ok (.mxcol 9 0x81) ∧
  decode { resetParams with frontend := .sevenseg } [0x08, 0x00, 0x1A, 0x01] = .ok (.sshex 0 0x1A 1) ∧
  decodeFrame 0x0A 0x17 = some (.intensity 0x17)

/-- What the disassembler prints assembles back to the same command (R77, R79). Spaces and the spelling of numbers are the
model's choice, log entry 22. -/
def Obligations.DisassemblyAssemblesBack : Prop :=
  ∀ (p : Params) (i : Instr), p.Legal → i.isFrame = false → i.wellFormed p = true →
    ∃ line, disassemble p i = some line ∧ assembleLine p line = .command i

/-- Every pseudo-instruction expands to one WRREG, with the registers and values of R78's table. -/
def Obligations.PseudosExpandToWrreg : Prop :=
  ∀ (p : Params) (reg v : Byte) (n tgt : Nat),
    expand p (.bcast reg v) = some (.wrreg reg v p.tAll) ∧
    expand p .nop = some (.wrreg 0x00 0x00 p.tAll) ∧
    expand p (.shdn tgt) = some (.wrreg 0x0C 0x00 tgt) ∧
    expand p (.wake tgt) = some (.wrreg 0x0C 0x01 tgt) ∧
    expand p (.intens v tgt) = some (.wrreg 0x0A v tgt) ∧
    expand p (.scanlim v tgt) = some (.wrreg 0x0B v tgt) ∧
    expand p (.decmode v tgt) = some (.wrreg 0x09 v tgt) ∧
    expand p (.dtest v tgt) = some (.wrreg 0x0F v tgt) ∧
    (n ≤ 7 → expand p (.digit n v tgt) = some (.wrreg (BitVec.ofNat 8 (0x01 + n)) v tgt)) ∧
    (7 < n → expand p (.digit n v tgt) = none)

/-! ### The step -/

/-- A step runs the decoded instruction: the host's next command, taken off its queue, or the frame in the shift register
of the device at the edge (R12, R65, R70). The queue and the edge taken device by device are the model's, log entries 1 and
13. -/
def Obligations.StepRunsTheDecodedInstruction : Prop :=
  (∀ (s : State) (bytes : List Byte) (rest : List (List Byte)) (i : Instr), s.latching = [] → s.fault = none →
    s.activity = .idle → s.host = bytes :: rest → decode s.params bytes = .ok i →
    step s = exec i { s with host := rest }) ∧
  (∀ (s : State) (k : Nat) (ks : List Nat) (f : Half) (i : Instr), s.latching = k :: ks → frameAt k s = some f →
    decodeFrame (frameAddr f) (frameData f) = some i → step s = exec i s)

/-- A byte string that is no command is refused: the mark is set, the reason and `cmd_index` are recorded, the command
counts, and nothing else changes (R23, R146). -/
def Obligations.StepRefusesWhatDoesNotDecode : Prop :=
  ∀ (s : State) (bytes : List Byte) (rest : List (List Byte)) (r : RefuseReason), s.latching = [] → s.fault = none →
    s.activity = .idle → s.host = bytes :: rest → decode s.params bytes = .error r →
    step s = .next { s with
      host := rest
      refused := true
      refusals := s.refusals ++ [(s.cmdIndex, r)]
      cmdIndex := s.cmdIndex + 1 }

/-! ### The frame sequencer -/

/-- R90: a unicast has the pair at its slot and the no-op pair at every other; a broadcast is the pair repeated. -/
def Obligations.UnicastAndBroadcastSequences : Prop :=
  ∀ (n : Nat) (r v : Byte),
    (∀ d, d < n → (uniSeq n r v d).length = 2 * n ∧
      ∀ i, i < n → slotOf (uniSeq n r v d) i = some (if i = d then frameOf r v else 0x0000)) ∧
    (∀ t, n ≤ t ∨ n = 1 → uniSeq n r v t = (List.replicate n [r, v]).flatten)

/-- Every sequence has two bytes per slot, and slot `i` of a payload sequence carries the register and the payload's byte
`i` (R84, R89). -/
def Obligations.PayloadSequenceSlots : Prop :=
  ∀ (r : Byte) (payload : List Byte),
    (paySeq r payload).length = 2 * payload.length ∧
    ∀ (i : Nat) (h : i < payload.length), slotOf (paySeq r payload) i = some (frameOf r payload[i])

/-- A payload of equal bytes is a broadcast: the same byte string, and WRALL then does exactly what WRREG does (R95). -/
def Obligations.EqualPayloadIsBroadcast : Prop :=
  ∀ (s : State) (r v : Byte) (t : Nat), s.params.n ≤ t →
    paySeq r (List.replicate s.params.n v) = uniSeq s.params.n r v t ∧
    exec (.wrall r (List.replicate s.params.n v)) s = exec (.wrreg r v t) s

/-! ### Core commands -/

/-- WRREG sends one transaction and returns OK; nothing else changes (R85, R87). -/
def Obligations.WrregSendsOneTransaction : Prop :=
  ∀ (s : State) (reg val : Byte) (tgt : Nat), Ready s → AnswersOk (2 * s.params.n) s →
    exec (.wrreg reg val tgt) s = .next (returning .ok (afterTransactions [uniSeq s.params.n reg val tgt] s))

/-- WRALL sends one transaction and returns OK; nothing else changes (R85, R88). A payload of another length is refused. -/
def Obligations.WrallSendsOneTransaction : Prop :=
  ∀ (s : State) (reg : Byte) (payload : List Byte), Ready s →
    (payload.length = s.params.n → AnswersOk (2 * s.params.n) s →
      exec (.wrall reg payload) s = .next (returning .ok (afterTransactions [paySeq reg payload] s))) ∧
    (payload.length ≠ s.params.n →
      exec (.wrall reg payload) s = .next { s with
        refused := true
        refusals := s.refusals ++ [(s.cmdIndex, .length (2 + payload.length))]
        cmdIndex := s.cmdIndex + 1 })

/-- A unicast to a documented register writes that register of the target, no other register of it, and no register of
any other device (R82, R94, R118). -/
def Obligations.UnicastReachesOnlyItsDevice : Prop :=
  ∀ (s : State) (r : DevReg) (v : Byte) (k : Nat), Ready s → AnswersOk (2 * s.params.n) s →
    s.devices.length = s.params.n → 2 ≤ s.params.n → k < s.params.n →
    ∃ t, exec (.wrreg (regAddr r) v k) s = .next t ∧ deviceHolds t k r v ∧
      ∀ (j : Nat) (r' : DevReg), (j ≠ k ∨ r' ≠ r) → (t.devices[j]?).bind (regOf r') = (s.devices[j]?).bind (regOf r')

/-- A broadcast writes the register of every device with the value, and WRALL each device's with its own; no other
register changes (R81, R84, R118). -/
def Obligations.BroadcastReachesEveryDevice : Prop :=
  ∀ (s : State) (r : DevReg), Ready s → AnswersOk (2 * s.params.n) s → s.devices.length = s.params.n →
    (∀ (v : Byte) (tgt : Nat), s.params.n = 1 ∨ s.params.n ≤ tgt →
      ∃ t, exec (.wrreg (regAddr r) v tgt) s = .next t ∧ (∀ k, k < s.params.n → deviceHolds t k r v) ∧
        ∀ (k : Nat) (r' : DevReg), r' ≠ r → (t.devices[k]?).bind (regOf r') = (s.devices[k]?).bind (regOf r')) ∧
    (∀ payload : List Byte, payload.length = s.params.n →
      ∃ t, exec (.wrall (regAddr r) payload) s = .next t ∧
        (∀ (k : Nat) (h : k < payload.length), deviceHolds t k r payload[k]) ∧
        ∀ (k : Nat) (r' : DevReg), r' ≠ r → (t.devices[k]?).bind (regOf r') = (s.devices[k]?).bind (regOf r'))

/-! ### The matrix front-end -/

/-- MXCLR zeroes the framebuffer, pushes rows 0 to 7 in order, and returns OK; nothing else changes (R96, R97). -/
def Obligations.MxclrZeroesAndPushes : Prop :=
  ∀ s : State, Ready s → s.params.frontend = .matrix → FramebufferInv s → AnswersOk (16 * s.params.n) s →
    exec .mxclr s = .next (returning .ok
      { afterTransactions ((List.range 8).map fun r => paySeq (digitAddr r) (List.replicate s.params.n 0x00)) s with
        mem := [] })

/-- R104: after MXCLR returns OK, every cell is 0 and exactly 8 transactions were made, transaction `r` being
`(0x01 + r, 0x00)` for every device. -/
def Obligations.MxclrClearsInEightTransactions : Prop :=
  ∀ s t : State, FramebufferInv s → exec .mxclr s = .next t → t.returned = s.returned ++ [(s.cmdIndex, .ok)] →
    (∀ row d, row < 8 → d < t.params.n → readCell row d t = 0x00) ∧
    transactions t = transactions s ++
      (List.range 8).map fun r => (List.replicate t.params.n [BitVec.ofNat 8 (0x01 + r), 0x00]).flatten

/-- MXROW writes row `row` on every device from the mask's bytes, pushes it, and returns OK; every other cell, and
everything else, is unchanged (R49, R96, R98). -/
def Obligations.MxrowWritesAndPushesItsRow : Prop :=
  ∀ (s : State) (row : Byte) (rmask : Nat), Ready s → s.params.frontend = .matrix → FramebufferInv s →
    AnswersOk (2 * s.params.n) s → row.toNat ≤ 7 →
    ∃ m : Memory,
      exec (.mxrow row rmask) s = .next (returning .ok
        { afterTransactions [paySeq (digitAddr row.toNat) ((List.range s.params.n).map (maskByte rmask))] s with
          mem := m }) ∧
      (∀ d, d < s.params.n → memRead m (cellAddr row.toNat d) = maskByte rmask d) ∧
      (∀ a, (∀ d, d < s.params.n → a ≠ cellAddr row.toNat d) → memRead m a = memRead s.mem a)

/-- MXCOL sets or clears one bit of each row's cell of one device, pushes each row at once, rows 0 to 7, and returns OK;
every other cell, and everything else, is unchanged (R50, R96, R99). -/
def Obligations.MxcolWritesAndPushesEveryRow : Prop :=
  ∀ (s : State) (col : Half) (cmask : Byte), Ready s → s.params.frontend = .matrix → FramebufferInv s →
    AnswersOk (16 * s.params.n) s → col.toNat < 8 * s.params.n →
    ∃ m : Memory,
      exec (.mxcol col cmask) s = .next (returning .ok
        { afterTransactions ((List.range 8).map fun row => paySeq (digitAddr row)
            ((List.range s.params.n).map fun d =>
              if d = col.toNat / 8 then setBit (col.toNat % 8) (cmask.getLsbD row) (readCell row d s)
              else readCell row d s)) s with
          mem := m }) ∧
      (∀ row, row < 8 → memRead m (cellAddr row (col.toNat / 8)) =
        setBit (col.toNat % 8) (cmask.getLsbD row) (readCell row (col.toNat / 8) s)) ∧
      (∀ a, (∀ row, row < 8 → a ≠ cellAddr row (col.toNat / 8)) → memRead m a = memRead s.mem a)

/-- R105: after MXCOL returns OK, the column's bit of every row is the mask's bit of that row. -/
def Obligations.MxcolColumnIsTheMask : Prop :=
  ∀ (s t : State) (col : Half) (cmask : Byte), FramebufferInv s → exec (.mxcol col cmask) s = .next t →
    t.returned = s.returned ++ [(s.cmdIndex, .ok)] →
    ∀ row, row < 8 → (readCell row (col.toNat / 8) t).getLsbD (col.toNat % 8) = cmask.getLsbD row

/-- MXLED sets or clears one bit of device 0's cell of one row, pushes the row, and returns OK; every other cell, and
everything else, is unchanged (R96, R100). -/
def Obligations.MxledWritesAndPushesOnePixel : Prop :=
  ∀ (s : State) (row : Byte) (col : Half) (led : Bool), Ready s → s.params.frontend = .matrix → FramebufferInv s →
    AnswersOk (2 * s.params.n) s → row.toNat ≤ 7 → col.toNat ≤ 7 →
    ∃ m : Memory,
      exec (.mxled row col led) s = .next (returning .ok
        { afterTransactions [paySeq (digitAddr row.toNat) ((List.range s.params.n).map fun d =>
            if d = 0 then setBit col.toNat led (readCell row.toNat 0 s) else readCell row.toNat d s)] s with
          mem := m }) ∧
      memRead m (cellAddr row.toNat 0) = setBit col.toNat led (readCell row.toNat 0 s) ∧
      (∀ a, a ≠ cellAddr row.toNat 0 → memRead m a = memRead s.mem a)

/-- R101: after a matrix command returns OK, each device's digit register of every row it pushed is the framebuffer's
byte. -/
def Obligations.DisplayEqualsFramebuffer : Prop :=
  ∀ (i : Instr) (s t : State), isMatrixCommand i = true → FramebufferInv s → s.devices.length = s.params.n →
    exec i s = .next t → t.returned = s.returned ++ [(s.cmdIndex, .ok)] → t.fault = none →
    ∀ row ∈ pushedRows i, ∀ k, k < t.params.n → deviceHolds t k (digitReg row) (readCell row k t)

/-- R106: the same MXROW, MXCOL or MXLED twice, with no fault, leaves the framebuffer after the second as after the first,
and the two make identical transaction lists. -/
def Obligations.MatrixSettersAreIdempotent : Prop :=
  ∀ (i : Instr) (s t u : State),
    ((∃ row rmask, i = .mxrow row rmask) ∨ (∃ col cmask, i = .mxcol col cmask) ∨
      (∃ row col led, i = .mxled row col led)) →
    FramebufferInv s → s.activity = .idle → exec i s = .next t → t.fault = none → t.activity = .idle →
    exec i t = .next u → u.fault = none → u.activity = .idle →
    u.mem = t.mem ∧ ∃ txs, transactions t = transactions s ++ txs ∧ transactions u = transactions t ++ txs

/-- A matrix command that ends with no fault changes no control register of any device (R107). -/
def Obligations.MatrixLeavesControlRegisters : Prop :=
  ∀ (i : Instr) (s t : State) (k : Nat) (r : DevReg), isMatrixCommand i = true → s.devices.length = s.params.n →
    exec i s = .next t → t.fault = none → t.activity = .idle →
    r ∈ [DevReg.decode, .intensity, .scanlimit, .shutdown, .disptest] →
    (t.devices[k]?).bind (regOf r) = (s.devices[k]?).bind (regOf r)

/-- No instruction but a matrix command writes the framebuffer (R26, R45). -/
def Obligations.OnlyMatrixCommandsWriteFramebuffer : Prop :=
  ∀ (i : Instr) (s t : State), isMatrixCommand i = false → exec i s = .next t → t.mem = s.mem

/-! ### The seven-segment front-end -/

/-- SSINIT broadcasts DECODE_RAW to decode-mode and returns OK; nothing else changes (R109). -/
def Obligations.SsinitSendsRawDecode : Prop :=
  ∀ s : State, Ready s → s.params.frontend = .sevenseg → AnswersOk (2 * s.params.n) s →
    exec .ssinit s = .next (returning .ok
      (afterTransactions [uniSeq s.params.n 0x09 s.params.decodeRaw s.params.tAll] s))

/-- SSCLR broadcasts 0x00 to digits 0 to 7 in order and returns OK; nothing else changes (R110). -/
def Obligations.SsclrBlanksEveryDigit : Prop :=
  ∀ s : State, Ready s → s.params.frontend = .sevenseg → AnswersOk (16 * s.params.n) s →
    exec .ssclr s = .next (returning .ok
      (afterTransactions ((List.range 8).map fun k =>
        uniSeq s.params.n (BitVec.ofNat 8 (0x01 + k)) 0x00 s.params.tAll) s))

/-- SSHEX with a digit in 0 to 7 sends the numeral's segment pattern to the target and returns OK; nothing else changes
(R108, R111). -/
def Obligations.SshexSendsThePattern : Prop :=
  ∀ (s : State) (digit hexval : Byte) (tgt : Nat), Ready s → s.params.frontend = .sevenseg → s.params.Legal →
    AnswersOk (2 * s.params.n) s → digit.toNat ≤ 7 →
    ∃ pattern, s.params.hexTable[(hexval &&& 0x0F).toNat]? = some pattern ∧
      exec (.sshex digit hexval tgt) s = .next (returning .ok (afterTransactions
        [uniSeq s.params.n (BitVec.ofNat 8 (0x01 + digit.toNat)) pattern tgt] s))

/-- R143: SSHEX with a digit over 7 returns OK with no effect at all. -/
def Obligations.SshexDigitOverSevenDoesNothing : Prop :=
  ∀ (s : State) (digit hexval : Byte) (tgt : Nat), Ready s → s.params.frontend = .sevenseg → 7 < digit.toNat →
    exec (.sshex digit hexval tgt) s = .next (returning .ok s)

/-- R114: the numerals 0x0 to 0xF give the table's patterns in table order, one transaction each; digit 8 gives none. -/
def Obligations.SshexFollowsTheTable : Prop :=
  ∀ (s : State) (digit : Byte) (v tgt : Nat), Ready s → s.params.frontend = .sevenseg → s.params.Legal → v < 16 →
    (digit.toNat ≤ 7 → AnswersOk (2 * s.params.n) s →
      ∃ t pattern, exec (.sshex digit (BitVec.ofNat 8 v) tgt) s = .next t ∧ s.params.hexTable[v]? = some pattern ∧
        transactions t = transactions s ++
          [uniSeq s.params.n (BitVec.ofNat 8 (0x01 + digit.toNat)) pattern tgt]) ∧
    (∃ t, exec (.sshex 8 (BitVec.ofNat 8 v) tgt) s = .next t ∧ transactions t = transactions s)

/-! ### Errors, faults, refusals -/

/-- R142: MXROW, MXCOL and MXLED out of range return FAIL and do nothing; the other commands that R142 names never return
FAIL. -/
def Obligations.RangeErrorsDoNothing : Prop :=
  (∀ s : State, Ready s → s.params.frontend = .matrix →
    (∀ (row : Byte) (rmask : Nat), 7 < row.toNat → exec (.mxrow row rmask) s = .next (returning .fail s)) ∧
    (∀ (col : Half) (cmask : Byte), 8 * s.params.n ≤ col.toNat →
      exec (.mxcol col cmask) s = .next (returning .fail s)) ∧
    (∀ (row : Byte) (col : Half) (led : Bool), 7 < row.toNat ∨ 7 < col.toNat →
      exec (.mxled row col led) s = .next (returning .fail s))) ∧
  (∀ (i : Instr) (s t : State),
    ((∃ reg val tgt, i = .wrreg reg val tgt) ∨ (∃ reg payload, i = .wrall reg payload) ∨ i = .ssinit ∨ i = .ssclr ∨
      (∃ digit hexval tgt, i = .sshex digit hexval tgt)) →
    exec i s = .next t → t.returned = s.returned ∨ t.returned = s.returned ++ [(s.cmdIndex, .ok)])

/-- A command of an absent front-end is refused with its op, and nothing else changes (R66, R146, R147). -/
def Obligations.AbsentFrontendIsRefused : Prop :=
  ∀ (i : Instr) (s : State), s.fault = none → s.activity = .idle → i.frontendPresent s.params = false →
    ∃ op, i.op = some op ∧
      exec i s = .next { s with
        refused := true
        refusals := s.refusals ++ [(s.cmdIndex, .noFrontend op)]
        cmdIndex := s.cmdIndex + 1 }

/-- A command issued while another is executing is refused, and the one executing is untouched (R148, R149). Which index the
second issue has, that it counts, and that a command given while construction's SSINIT is stalled is refused the same way,
is the model's choice, log entry 9. -/
def Obligations.ReentrantIssueIsRefused : Prop :=
  ∀ (i : Instr) (s : State), i.isFrame = false → s.fault = none → s.activity ≠ .idle →
    exec i s = .next { s with
      refused := true
      refusals := s.refusals ++ [(s.cmdIndex, .reentrant)]
      cmdIndex := s.cmdIndex + 1 }

/-- R150: once a fault is recorded the controller takes no command and has no further step, and the record never
changes. -/
def Obligations.FaultIsFinal : Prop :=
  ∀ (s : State) (r : FaultRecord), s.fault = some r →
    (∀ i : Instr, i.isFrame = false → exec i s = .fault .afterFault) ∧
    (s.latching = [] → step s = .fault .afterFault) ∧
    (∀ t, step s = .next t → t.fault = some r)

/-- A transport failure at byte `j` of WRREG or WRALL: the events up to XFAIL and REL, the bus free, every register of every
device with no value, the fault recorded with `cmd_index`, transaction 0 and `j`; no status, and nothing else changes. The
level of the select line and the shift registers are free values (R85, R135, R144; log entries 5 and 12). That the command counts (`cmd_index` grows) is the
model's reading of R23, log entry 10. -/
def Obligations.TransportFailureState : Prop :=
  ∀ (s : State) (i : Instr) (bytes : List Byte) (j : Nat),
    ((∃ reg val tgt, i = .wrreg reg val tgt ∧ bytes = uniSeq s.params.n reg val tgt) ∨
      (∃ reg payload, i = .wrall reg payload ∧ payload.length = s.params.n ∧ bytes = paySeq reg payload)) →
    Ready s → j < 2 * s.params.n → AnswersOk j s → s.transport[j]? = some .fail →
    exec i s = .next { s with
      history := s.history ++ [.acq, .sel .low] ++ (bytes.take (j + 1)).map .byte ++ [.xfail, .rel]
      sel := Config.selAfterFail s.draws
      draws := s.draws + 1
      devices := s.devices.mapIdx fun k _ => { Device.powerOn with sr := Config.shiftCutShort s.draws k }
      fault := some ⟨.transport, some s.cmdIndex, 0, j⟩
      cmdIndex := s.cmdIndex + 1
      transport := s.transport.drop (j + 1) }

/-- A transport failure in transaction `r` of MXCLR: the transactions before it stand, the framebuffer is all zero, no
device register holds a value, and there is no status (R97, R144). -/
def Obligations.MxclrTransportFailure : Prop :=
  ∀ (s : State) (r j : Nat), Ready s → s.params.frontend = .matrix → FramebufferInv s → r < 8 →
    j < 2 * s.params.n → AnswersOk (2 * s.params.n * r + j) s →
    s.transport[2 * s.params.n * r + j]? = some .fail →
    ∃ t, exec .mxclr s = .next t ∧ t.fault = some ⟨.transport, some s.cmdIndex, r, j⟩ ∧ t.mem = [] ∧
      t.returned = s.returned ∧ t.busOwned = false ∧
      transactions t = transactions s ++
        (List.range r).map (fun q => paySeq (digitAddr q) (List.replicate s.params.n 0x00)) ∧
      ∀ dev ∈ t.devices, ∀ g, regOf g dev = none

/-- A transport failure in push `r` of MXCOL: the framebuffer holds the updates of rows 0 to `r` and no other, and `r`
transactions stand (R99, R144). -/
def Obligations.MxcolTransportFailure : Prop :=
  ∀ (s : State) (col : Half) (cmask : Byte) (r j : Nat), Ready s → s.params.frontend = .matrix → FramebufferInv s →
    col.toNat < 8 * s.params.n → r < 8 → j < 2 * s.params.n → AnswersOk (2 * s.params.n * r + j) s →
    s.transport[2 * s.params.n * r + j]? = some .fail →
    ∃ t, exec (.mxcol col cmask) s = .next t ∧ t.fault = some ⟨.transport, some s.cmdIndex, r, j⟩ ∧
      t.returned = s.returned ∧
      (∀ row, row ≤ r → readCell row (col.toNat / 8) t =
        setBit (col.toNat % 8) (cmask.getLsbD row) (readCell row (col.toNat / 8) s)) ∧
      (∀ a, (∀ row, row ≤ r → a ≠ cellAddr row (col.toNat / 8)) → memRead t.mem a = memRead s.mem a) ∧
      (∃ txs, txs.length = r ∧ transactions t = transactions s ++ txs)

/-- A stall at byte `j` of WRREG: the history ends in that byte, the bus stays owned, the line low, and no status, fault or
refusal is recorded; every later step leaves the state as it is (R145, V4; as a step that changes nothing, log entry 7). That
`cmd_index` has not grown is the model's choice, log entry 28. -/
def Obligations.StallNeverReturns : Prop :=
  ∀ (s : State) (reg val : Byte) (tgt j : Nat), Ready s → s.latching = [] → j < 2 * s.params.n → AnswersOk j s →
    s.transport[j]? = some .stall →
    ∃ t, exec (.wrreg reg val tgt) s = .next t ∧ step t = .next t ∧ t.activity = .command ∧ t.busOwned = true ∧
      t.sel = .low ∧ t.fault = none ∧ t.refused = s.refused ∧ t.returned = s.returned ∧ t.cmdIndex = s.cmdIndex ∧
      t.history = s.history ++ [.acq, .sel .low] ++
        ((uniSeq s.params.n reg val tgt).take (j + 1)).map .byte

/-- With a live transport every command completes: it returns, faults or is refused, `cmd_index` grows by one (R23; that a
faulted command counts is the model's reading, log entry 10), and it makes at most the transactions R176 counts (R139,
R176). -/
def Obligations.LiveCommandsComplete : Prop :=
  ∀ (i : Instr) (s : State), i.isFrame = false → Inv s → s.params.transportLive = true → s.fault = none →
    ∃ t txs, exec i s = .next t ∧ t.activity = .idle ∧ t.cmdIndex = s.cmdIndex + 1 ∧
      txs.length ≤ transactionBound i ∧ transactions t = transactions s ++ txs

/-! ### Wire frames -/

/-- Each frame instruction writes exactly the one register it names of the device at the edge, and takes the device off the
edge; NOOP writes none. Nothing else changes (R118 to R132). -/
def Obligations.FramesWriteTheirRegister : Prop :=
  ∀ (s : State) (k : Nat) (ks : List Nat) (d : Byte), s.latching = k :: ks →
    exec .noop s = .next { s with latching := ks } ∧
    exec (.digit0 d) s = .next { s with
      latching := ks, devices := s.devices.modify k fun dev => { dev with digit0 := some d } } ∧
    exec (.digit1 d) s = .next { s with
      latching := ks, devices := s.devices.modify k fun dev => { dev with digit1 := some d } } ∧
    exec (.digit2 d) s = .next { s with
      latching := ks, devices := s.devices.modify k fun dev => { dev with digit2 := some d } } ∧
    exec (.digit3 d) s = .next { s with
      latching := ks, devices := s.devices.modify k fun dev => { dev with digit3 := some d } } ∧
    exec (.digit4 d) s = .next { s with
      latching := ks, devices := s.devices.modify k fun dev => { dev with digit4 := some d } } ∧
    exec (.digit5 d) s = .next { s with
      latching := ks, devices := s.devices.modify k fun dev => { dev with digit5 := some d } } ∧
    exec (.digit6 d) s = .next { s with
      latching := ks, devices := s.devices.modify k fun dev => { dev with digit6 := some d } } ∧
    exec (.digit7 d) s = .next { s with
      latching := ks, devices := s.devices.modify k fun dev => { dev with digit7 := some d } } ∧
    exec (.decodeMode d) s = .next { s with
      latching := ks, devices := s.devices.modify k fun dev => { dev with decode := some d } } ∧
    exec (.intensity d) s = .next { s with
      latching := ks, devices := s.devices.modify k fun dev => { dev with intensity := some d } } ∧
    exec (.scanlimit d) s = .next { s with
      latching := ks, devices := s.devices.modify k fun dev => { dev with scanlimit := some d } } ∧
    exec (.shutdown d) s = .next { s with
      latching := ks, devices := s.devices.modify k fun dev => { dev with shutdown := some d } } ∧
    exec (.disptest d) s = .next { s with
      latching := ks, devices := s.devices.modify k fun dev => { dev with disptest := some d } }

/-- Where no edge is under way a frame changes nothing (R117; the form is the model's, log entry 13). -/
def Obligations.FrameWithoutAnEdge : Prop :=
  ∀ (i : Instr) (s : State), i.isFrame = true → s.latching = [] → exec i s = .next s

/-- The step of a device at an edge, which decodes and runs the frame in its shift register, is what a transaction does to
that device, whatever the frame (R117, R118, R133). In the spec all devices latch in one step (R117): the step of one device is
the model's form, log entry 13, and that each device keeps a shift register that always holds a frame is log entry 12. -/
def Obligations.FrameStepIsTheLatch : Prop :=
  ∀ (s : State) (k : Nat) (ks : List Nat), s.latching = k :: ks →
    step s = .next { s with latching := ks, devices := s.devices.modify k latchDevice }

/-- The devices may apply a transaction's frames in any order: device by device, in any order of the chain, they come out as
when all latch at once (R55, R117, R138). The edge taken device by device is the model's form, log entry 13. -/
def Obligations.EdgeOrderDoesNotMatter : Prop :=
  ∀ (s : State) (ks : List Nat), ks.Perm (List.range s.devices.length) →
    Host.Core.run Sys2Proof.core ks.length ({ s with latching := ks } : State) =
      .next ({ s with latching := [], devices := s.devices.map latchDevice } : State)

/-- An undocumented frame leaves every register of its device with no value, so that reading one faults, and changes no
other device; a later documented frame gives its register a value again, and only that one (R133). The step of one device
at an edge is the model's form, log entry 13. -/
def Obligations.UndocumentedFrameLosesTheDevice : Prop :=
  ∀ (s : State) (k : Nat) (ks : List Nat) (a d : Byte), Undocumented a d → s.latching = k :: ks →
    frameAt k s = some (frameOf a d) →
    ∃ t, step s = .next t ∧ (∀ r, observeReg k r t = .error .noValue) ∧
      (∀ j, j ≠ k → t.devices[j]? = s.devices[j]?) ∧
      ∀ dev, t.devices[k]? = some dev → ∀ (r r' : DevReg) (v : Byte),
        regOf r (applyFrame (regAddr r) v dev) = some v ∧
        (r' ≠ r → regOf r' (applyFrame (regAddr r) v dev) = none)

/-- The low nibble of the intensity register is the level, and shutdown 0x00 and 0x01 are the two power states, whatever
else the device holds (R129, R131, R158). That another register's write keeps the power state also where the shutdown
register holds some other byte is the model's choice, log entry 18: the free power state is a function of the byte. -/
def Obligations.LevelAndPowerOfADevice : Prop :=
  ∀ (dev : Device) (d : Byte),
    levelOf (writeReg .intensity d dev) = some (d &&& 0x0F) ∧
    powerOf (writeReg .shutdown 0x00 dev) = some .shutdown ∧
    powerOf (writeReg .shutdown 0x01 dev) = some .normal ∧
    ∀ r, r ≠ .shutdown → powerOf (writeReg r d dev) = powerOf dev

/-! ### The whole machine -/

/-- Every step keeps the invariant: legal parameters, one device per slot, a framebuffer in canonical form with only cells
that exist, the bus and the select line as R24 and R174 say, no stall with a live transport, and a refused mark that tells
whether a refusal is on record. -/
def Obligations.StepKeepsInv : Prop :=
  ∀ s t : State, Inv s → step s = .next t → Inv t

/-- The invariants hold after reset. -/
def Obligations.ResetMeetsTheInvariants : Prop := Inv State.reset ∧ BracketInv State.reset

/-- Every step keeps the history bracketed: no byte of one transaction stands inside another, and the select line rises
only after exactly 2×N bytes (R54, R85, R89). -/
def Obligations.StepKeepsBrackets : Prop :=
  ∀ s t : State, BracketInv s → step s = .next t → BracketInv t

/-- The state after reset: the values R40 gives. -/
def Obligations.ResetValues : Prop :=
  State.reset.busOwned = false ∧ State.reset.sel = .high ∧ State.reset.fault = none ∧ State.reset.refused = false ∧
  State.reset.cmdIndex = 0 ∧ State.reset.history = [] ∧
  (∀ row d, readCell row d State.reset = 0x00) ∧
  (∀ dev ∈ State.reset.devices, ∀ r, regOf r dev = none)

/-- Construction: illegal parameters are refused; a MATRIX or coreless instance sends nothing; a SEVENSEG instance sends one
SSINIT, which counts as no command and leaves decode-mode raw on every device and every other register with no value
(R159 to R161, R40). The contents of the shift registers are the model's, log entries 12 and 30. -/
def Obligations.ConstructionValues : Prop :=
  ∀ (p : Params) (answers : List Answer),
    (¬ p.Legal → construct p answers = .refused (.config p)) ∧
    (p.Legal → p.frontend ≠ .sevenseg → construct p answers = .built (State.initial p answers)) ∧
    (p.Legal → p.frontend = .sevenseg → AnswersOk (2 * p.n) (State.initial p answers) →
      construct p answers = .built { State.initial p answers with
        history := transactionEvents (uniSeq p.n 0x09 p.decodeRaw p.tAll)
        devices := List.replicate p.n { Device.powerOn with decode := some p.decodeRaw, sr := frameOf 0x09 p.decodeRaw }
        transport := (State.initial p answers).transport.drop (2 * p.n) })

/-- A transport failure in construction's SSINIT leaves an instance that takes no command, with no command index in its
fault record (R150, R159). -/
def Obligations.ConstructionFailure : Prop :=
  ∀ (p : Params) (answers : List Answer) (j : Nat), p.Legal → p.frontend = .sevenseg → j < 2 * p.n →
    AnswersOk j (State.initial p answers) → (State.initial p answers).transport[j]? = some .fail →
    ∃ s, construct p answers = .built s ∧ s.fault = some ⟨.transport, none, 0, j⟩ ∧ s.cmdIndex = 0 ∧
      step s = .fault .afterFault

/-- Every instance that construction builds meets the invariants. -/
def Obligations.ConstructionMeetsTheInvariants : Prop :=
  ∀ (p : Params) (answers : List Answer) (s : State), construct p answers = .built s → Inv s ∧ BracketInv s

/-- R20: nothing changes the configuration. -/
def Obligations.ConfigurationNeverChanges : Prop :=
  (∀ (i : Instr) (s t : State), exec i s = .next t → t.params = s.params) ∧
  (∀ s t : State, step s = .next t → t.params = s.params)

/-- The marks are sticky, and the history, the statuses and the recorded refusals only grow (R24, R27, R141, R146). -/
def Obligations.MarksAndHistoryOnlyGrow : Prop :=
  ∀ s t : State, step s = .next t →
    (∀ r, s.fault = some r → t.fault = some r) ∧ (s.refused = true → t.refused = true) ∧
    s.history <+: t.history ∧ s.returned <+: t.returned ∧ s.refusals <+: t.refusals

/-- The command index grows by one for each command, refused, failed or faulted, and stays where a transfer stalls (R23).
The model's own: that a command given while another, or construction's SSINIT, is executing counts (log entry 9), that a
faulted command counts (log entry 10) and that a stalled one does not (log entry 28). -/
def Obligations.CommandIndexCounts : Prop :=
  ∀ (i : Instr) (s t : State), i.isFrame = false → exec i s = .next t →
    t.cmdIndex = s.cmdIndex + 1 ∨ (t.cmdIndex = s.cmdIndex ∧ t.activity = .command ∧ s.activity = .idle)

/-- The transactions a command completes are the ones its history gains, in order (R28). -/
def Obligations.CompletedTransactionsAreOnRecord : Prop :=
  ∀ (txs : List (List Byte)) (s : State), (∀ b ∈ txs, b.length = 2 * s.params.n) →
    transactions (afterTransactions txs s) = transactions s ++ txs

/-- No command depends on what a device holds: from two states that differ only in the devices, every command gives
outcomes that differ only in the devices (R33, R137). -/
def Obligations.NoCommandReadsADevice : Prop :=
  ∀ (i : Instr) (s : State) (devices : List Device), i.isFrame = false →
    withoutDevices (exec i { s with devices := devices }) = withoutDevices (exec i s)

/-- The host's read gives a cell that exists (R45, R156); the observation of a device register gives its byte and faults
where it holds no value (R35, R41). That the host's read of a cell that does not exist faults is the model's choice, log
entry 27: R45 says only that no command makes such an access. That both reads answer in every state, also while a transfer
stalls, is the model's choice, log entry 29: R156 gives them between commands and R41 at the end of a run. -/
def Obligations.ReadsOfTheHost : Prop :=
  (∀ (s : State) (row d : Nat), s.params.frontend = .matrix → row < 8 → d < s.params.n →
    hostReadCell row d s = .ok (readCell row d s)) ∧
  (∀ (s : State) (row d : Nat), (s.params.frontend ≠ .matrix ∨ 8 ≤ row ∨ s.params.n ≤ d) →
    hostReadCell row d s = .error .noSuchCell) ∧
  (∀ (s : State) (k : Nat) (r : DevReg) (v : Byte), deviceHolds s k r v → observeReg k r s = .ok v) ∧
  (∀ (s : State) (k : Nat) (r : DevReg) (dev : Device), s.devices[k]? = some dev → regOf r dev = none →
    observeReg k r s = .error .noValue)
end

