-- ==== Sys2Proof/Laws/State.lean ====
section
/-! SUPPORT. One lemma per field per update of State, each true by unfolding the update once. -/

namespace Sys2Proof.Machine

variable (s : State)

/-! ### record -/

@[simp] theorem record_params (e : Event) : (record e s).params = s.params := rfl
@[simp] theorem record_busOwned (e : Event) : (record e s).busOwned = s.busOwned := rfl
@[simp] theorem record_sel (e : Event) : (record e s).sel = s.sel := rfl
@[simp] theorem record_fault (e : Event) : (record e s).fault = s.fault := rfl
@[simp] theorem record_refused (e : Event) : (record e s).refused = s.refused := rfl
@[simp] theorem record_refusals (e : Event) : (record e s).refusals = s.refusals := rfl
@[simp] theorem record_cmdIndex (e : Event) : (record e s).cmdIndex = s.cmdIndex := rfl
@[simp] theorem record_activity (e : Event) : (record e s).activity = s.activity := rfl
@[simp] theorem record_history (e : Event) : (record e s).history = s.history ++ [e] := rfl
@[simp] theorem record_returned (e : Event) : (record e s).returned = s.returned := rfl
@[simp] theorem record_mem (e : Event) : (record e s).mem = s.mem := rfl
@[simp] theorem record_devices (e : Event) : (record e s).devices = s.devices := rfl
@[simp] theorem record_latching (e : Event) : (record e s).latching = s.latching := rfl
@[simp] theorem record_host (e : Event) : (record e s).host = s.host := rfl
@[simp] theorem record_transport (e : Event) : (record e s).transport = s.transport := rfl
@[simp] theorem record_draws (e : Event) : (record e s).draws = s.draws := rfl

/-! ### acquire -/

@[simp] theorem acquire_params : (acquire s).params = s.params := rfl
@[simp] theorem acquire_busOwned : (acquire s).busOwned = true := rfl
@[simp] theorem acquire_sel : (acquire s).sel = s.sel := rfl
@[simp] theorem acquire_fault : (acquire s).fault = s.fault := rfl
@[simp] theorem acquire_refused : (acquire s).refused = s.refused := rfl
@[simp] theorem acquire_refusals : (acquire s).refusals = s.refusals := rfl
@[simp] theorem acquire_cmdIndex : (acquire s).cmdIndex = s.cmdIndex := rfl
@[simp] theorem acquire_activity : (acquire s).activity = s.activity := rfl
@[simp] theorem acquire_history : (acquire s).history = s.history ++ [.acq] := rfl
@[simp] theorem acquire_returned : (acquire s).returned = s.returned := rfl
@[simp] theorem acquire_mem : (acquire s).mem = s.mem := rfl
@[simp] theorem acquire_devices : (acquire s).devices = s.devices := rfl
@[simp] theorem acquire_latching : (acquire s).latching = s.latching := rfl
@[simp] theorem acquire_host : (acquire s).host = s.host := rfl
@[simp] theorem acquire_transport : (acquire s).transport = s.transport := rfl
@[simp] theorem acquire_draws : (acquire s).draws = s.draws := rfl

/-! ### release -/

@[simp] theorem release_params : (release s).params = s.params := rfl
@[simp] theorem release_busOwned : (release s).busOwned = false := rfl
@[simp] theorem release_sel : (release s).sel = s.sel := rfl
@[simp] theorem release_fault : (release s).fault = s.fault := rfl
@[simp] theorem release_refused : (release s).refused = s.refused := rfl
@[simp] theorem release_refusals : (release s).refusals = s.refusals := rfl
@[simp] theorem release_cmdIndex : (release s).cmdIndex = s.cmdIndex := rfl
@[simp] theorem release_activity : (release s).activity = s.activity := rfl
@[simp] theorem release_history : (release s).history = s.history ++ [.rel] := rfl
@[simp] theorem release_returned : (release s).returned = s.returned := rfl
@[simp] theorem release_mem : (release s).mem = s.mem := rfl
@[simp] theorem release_devices : (release s).devices = s.devices := rfl
@[simp] theorem release_latching : (release s).latching = s.latching := rfl
@[simp] theorem release_host : (release s).host = s.host := rfl
@[simp] theorem release_transport : (release s).transport = s.transport := rfl
@[simp] theorem release_draws : (release s).draws = s.draws := rfl

/-! ### setSel -/

@[simp] theorem setSel_params (l : Level) : (setSel l s).params = s.params := rfl
@[simp] theorem setSel_busOwned (l : Level) : (setSel l s).busOwned = s.busOwned := rfl
@[simp] theorem setSel_sel (l : Level) : (setSel l s).sel = l := rfl
@[simp] theorem setSel_fault (l : Level) : (setSel l s).fault = s.fault := rfl
@[simp] theorem setSel_refused (l : Level) : (setSel l s).refused = s.refused := rfl
@[simp] theorem setSel_refusals (l : Level) : (setSel l s).refusals = s.refusals := rfl
@[simp] theorem setSel_cmdIndex (l : Level) : (setSel l s).cmdIndex = s.cmdIndex := rfl
@[simp] theorem setSel_activity (l : Level) : (setSel l s).activity = s.activity := rfl
@[simp] theorem setSel_history (l : Level) : (setSel l s).history = s.history ++ [.sel l] := rfl
@[simp] theorem setSel_returned (l : Level) : (setSel l s).returned = s.returned := rfl
@[simp] theorem setSel_mem (l : Level) : (setSel l s).mem = s.mem := rfl
@[simp] theorem setSel_devices (l : Level) : (setSel l s).devices = s.devices := rfl
@[simp] theorem setSel_latching (l : Level) : (setSel l s).latching = s.latching := rfl
@[simp] theorem setSel_host (l : Level) : (setSel l s).host = s.host := rfl
@[simp] theorem setSel_transport (l : Level) : (setSel l s).transport = s.transport := rfl
@[simp] theorem setSel_draws (l : Level) : (setSel l s).draws = s.draws := rfl

/-! ### popAnswer -/

@[simp] theorem popAnswer_params : (popAnswer s).params = s.params := rfl
@[simp] theorem popAnswer_busOwned : (popAnswer s).busOwned = s.busOwned := rfl
@[simp] theorem popAnswer_sel : (popAnswer s).sel = s.sel := rfl
@[simp] theorem popAnswer_fault : (popAnswer s).fault = s.fault := rfl
@[simp] theorem popAnswer_refused : (popAnswer s).refused = s.refused := rfl
@[simp] theorem popAnswer_refusals : (popAnswer s).refusals = s.refusals := rfl
@[simp] theorem popAnswer_cmdIndex : (popAnswer s).cmdIndex = s.cmdIndex := rfl
@[simp] theorem popAnswer_activity : (popAnswer s).activity = s.activity := rfl
@[simp] theorem popAnswer_history : (popAnswer s).history = s.history := rfl
@[simp] theorem popAnswer_returned : (popAnswer s).returned = s.returned := rfl
@[simp] theorem popAnswer_mem : (popAnswer s).mem = s.mem := rfl
@[simp] theorem popAnswer_devices : (popAnswer s).devices = s.devices := rfl
@[simp] theorem popAnswer_latching : (popAnswer s).latching = s.latching := rfl
@[simp] theorem popAnswer_host : (popAnswer s).host = s.host := rfl
@[simp] theorem popAnswer_transport : (popAnswer s).transport = s.transport.tail := rfl
@[simp] theorem popAnswer_draws : (popAnswer s).draws = s.draws := rfl

/-! ### writeCell -/

@[simp] theorem writeCell_params (row d : Nat) (v : Byte) : (writeCell row d v s).params = s.params := rfl
@[simp] theorem writeCell_busOwned (row d : Nat) (v : Byte) : (writeCell row d v s).busOwned = s.busOwned := rfl
@[simp] theorem writeCell_sel (row d : Nat) (v : Byte) : (writeCell row d v s).sel = s.sel := rfl
@[simp] theorem writeCell_fault (row d : Nat) (v : Byte) : (writeCell row d v s).fault = s.fault := rfl
@[simp] theorem writeCell_refused (row d : Nat) (v : Byte) : (writeCell row d v s).refused = s.refused := rfl
@[simp] theorem writeCell_refusals (row d : Nat) (v : Byte) : (writeCell row d v s).refusals = s.refusals := rfl
@[simp] theorem writeCell_cmdIndex (row d : Nat) (v : Byte) : (writeCell row d v s).cmdIndex = s.cmdIndex := rfl
@[simp] theorem writeCell_activity (row d : Nat) (v : Byte) : (writeCell row d v s).activity = s.activity := rfl
@[simp] theorem writeCell_history (row d : Nat) (v : Byte) : (writeCell row d v s).history = s.history := rfl
@[simp] theorem writeCell_returned (row d : Nat) (v : Byte) : (writeCell row d v s).returned = s.returned := rfl
@[simp] theorem writeCell_mem (row d : Nat) (v : Byte) :
    (writeCell row d v s).mem = memWrite s.mem (cellAddr row d) v := rfl
@[simp] theorem writeCell_devices (row d : Nat) (v : Byte) : (writeCell row d v s).devices = s.devices := rfl
@[simp] theorem writeCell_latching (row d : Nat) (v : Byte) : (writeCell row d v s).latching = s.latching := rfl
@[simp] theorem writeCell_host (row d : Nat) (v : Byte) : (writeCell row d v s).host = s.host := rfl
@[simp] theorem writeCell_transport (row d : Nat) (v : Byte) : (writeCell row d v s).transport = s.transport := rfl
@[simp] theorem writeCell_draws (row d : Nat) (v : Byte) : (writeCell row d v s).draws = s.draws := rfl

/-! ### deliver -/

@[simp] theorem deliver_params (bytes : List Byte) : (deliver bytes s).params = s.params := rfl
@[simp] theorem deliver_busOwned (bytes : List Byte) : (deliver bytes s).busOwned = s.busOwned := rfl
@[simp] theorem deliver_sel (bytes : List Byte) : (deliver bytes s).sel = s.sel := rfl
@[simp] theorem deliver_fault (bytes : List Byte) : (deliver bytes s).fault = s.fault := rfl
@[simp] theorem deliver_refused (bytes : List Byte) : (deliver bytes s).refused = s.refused := rfl
@[simp] theorem deliver_refusals (bytes : List Byte) : (deliver bytes s).refusals = s.refusals := rfl
@[simp] theorem deliver_cmdIndex (bytes : List Byte) : (deliver bytes s).cmdIndex = s.cmdIndex := rfl
@[simp] theorem deliver_activity (bytes : List Byte) : (deliver bytes s).activity = s.activity := rfl
@[simp] theorem deliver_history (bytes : List Byte) : (deliver bytes s).history = s.history := rfl
@[simp] theorem deliver_returned (bytes : List Byte) : (deliver bytes s).returned = s.returned := rfl
@[simp] theorem deliver_mem (bytes : List Byte) : (deliver bytes s).mem = s.mem := rfl
@[simp] theorem deliver_devices (bytes : List Byte) :
    (deliver bytes s).devices = s.devices.mapIdx fun k dev => { dev with sr := (slotOf bytes k).getD dev.sr } := rfl
@[simp] theorem deliver_latching (bytes : List Byte) : (deliver bytes s).latching = s.latching := rfl
@[simp] theorem deliver_host (bytes : List Byte) : (deliver bytes s).host = s.host := rfl
@[simp] theorem deliver_transport (bytes : List Byte) : (deliver bytes s).transport = s.transport := rfl
@[simp] theorem deliver_draws (bytes : List Byte) : (deliver bytes s).draws = s.draws := rfl

/-! ### risingEdge -/

@[simp] theorem risingEdge_params : (risingEdge s).params = s.params := rfl
@[simp] theorem risingEdge_busOwned : (risingEdge s).busOwned = s.busOwned := rfl
@[simp] theorem risingEdge_sel : (risingEdge s).sel = s.sel := rfl
@[simp] theorem risingEdge_fault : (risingEdge s).fault = s.fault := rfl
@[simp] theorem risingEdge_refused : (risingEdge s).refused = s.refused := rfl
@[simp] theorem risingEdge_refusals : (risingEdge s).refusals = s.refusals := rfl
@[simp] theorem risingEdge_cmdIndex : (risingEdge s).cmdIndex = s.cmdIndex := rfl
@[simp] theorem risingEdge_activity : (risingEdge s).activity = s.activity := rfl
@[simp] theorem risingEdge_history : (risingEdge s).history = s.history := rfl
@[simp] theorem risingEdge_returned : (risingEdge s).returned = s.returned := rfl
@[simp] theorem risingEdge_mem : (risingEdge s).mem = s.mem := rfl
@[simp] theorem risingEdge_devices : (risingEdge s).devices = s.devices.map latchDevice := rfl
@[simp] theorem risingEdge_latching : (risingEdge s).latching = s.latching := rfl
@[simp] theorem risingEdge_host : (risingEdge s).host = s.host := rfl
@[simp] theorem risingEdge_transport : (risingEdge s).transport = s.transport := rfl
@[simp] theorem risingEdge_draws : (risingEdge s).draws = s.draws := rfl

/-! ### start -/

@[simp] theorem start_params : (start s).params = s.params := rfl
@[simp] theorem start_busOwned : (start s).busOwned = s.busOwned := rfl
@[simp] theorem start_sel : (start s).sel = s.sel := rfl
@[simp] theorem start_fault : (start s).fault = s.fault := rfl
@[simp] theorem start_refused : (start s).refused = s.refused := rfl
@[simp] theorem start_refusals : (start s).refusals = s.refusals := rfl
@[simp] theorem start_cmdIndex : (start s).cmdIndex = s.cmdIndex := rfl
@[simp] theorem start_activity : (start s).activity = .command := rfl
@[simp] theorem start_history : (start s).history = s.history := rfl
@[simp] theorem start_returned : (start s).returned = s.returned := rfl
@[simp] theorem start_mem : (start s).mem = s.mem := rfl
@[simp] theorem start_devices : (start s).devices = s.devices := rfl
@[simp] theorem start_latching : (start s).latching = s.latching := rfl
@[simp] theorem start_host : (start s).host = s.host := rfl
@[simp] theorem start_transport : (start s).transport = s.transport := rfl
@[simp] theorem start_draws : (start s).draws = s.draws := rfl

/-! ### complete -/

@[simp] theorem complete_params (status : Status) : (complete status s).params = s.params := rfl
@[simp] theorem complete_busOwned (status : Status) : (complete status s).busOwned = s.busOwned := rfl
@[simp] theorem complete_sel (status : Status) : (complete status s).sel = s.sel := rfl
@[simp] theorem complete_fault (status : Status) : (complete status s).fault = s.fault := rfl
@[simp] theorem complete_refused (status : Status) : (complete status s).refused = s.refused := rfl
@[simp] theorem complete_refusals (status : Status) : (complete status s).refusals = s.refusals := rfl
@[simp] theorem complete_cmdIndex (status : Status) : (complete status s).cmdIndex = s.cmdIndex + 1 := rfl
@[simp] theorem complete_activity (status : Status) : (complete status s).activity = .idle := rfl
@[simp] theorem complete_history (status : Status) : (complete status s).history = s.history := rfl
@[simp] theorem complete_returned (status : Status) :
    (complete status s).returned = s.returned ++ [(s.cmdIndex, status)] := rfl
@[simp] theorem complete_mem (status : Status) : (complete status s).mem = s.mem := rfl
@[simp] theorem complete_devices (status : Status) : (complete status s).devices = s.devices := rfl
@[simp] theorem complete_latching (status : Status) : (complete status s).latching = s.latching := rfl
@[simp] theorem complete_host (status : Status) : (complete status s).host = s.host := rfl
@[simp] theorem complete_transport (status : Status) : (complete status s).transport = s.transport := rfl
@[simp] theorem complete_draws (status : Status) : (complete status s).draws = s.draws := rfl

/-! ### refuse -/

@[simp] theorem refuse_params (r : RefuseReason) : (refuse r s).params = s.params := rfl
@[simp] theorem refuse_busOwned (r : RefuseReason) : (refuse r s).busOwned = s.busOwned := rfl
@[simp] theorem refuse_sel (r : RefuseReason) : (refuse r s).sel = s.sel := rfl
@[simp] theorem refuse_fault (r : RefuseReason) : (refuse r s).fault = s.fault := rfl
@[simp] theorem refuse_refused (r : RefuseReason) : (refuse r s).refused = true := rfl
@[simp] theorem refuse_refusals (r : RefuseReason) : (refuse r s).refusals = s.refusals ++ [(s.cmdIndex, r)] := rfl
@[simp] theorem refuse_cmdIndex (r : RefuseReason) : (refuse r s).cmdIndex = s.cmdIndex + 1 := rfl
@[simp] theorem refuse_activity (r : RefuseReason) : (refuse r s).activity = s.activity := rfl
@[simp] theorem refuse_history (r : RefuseReason) : (refuse r s).history = s.history := rfl
@[simp] theorem refuse_returned (r : RefuseReason) : (refuse r s).returned = s.returned := rfl
@[simp] theorem refuse_mem (r : RefuseReason) : (refuse r s).mem = s.mem := rfl
@[simp] theorem refuse_devices (r : RefuseReason) : (refuse r s).devices = s.devices := rfl
@[simp] theorem refuse_latching (r : RefuseReason) : (refuse r s).latching = s.latching := rfl
@[simp] theorem refuse_host (r : RefuseReason) : (refuse r s).host = s.host := rfl
@[simp] theorem refuse_transport (r : RefuseReason) : (refuse r s).transport = s.transport := rfl
@[simp] theorem refuse_draws (r : RefuseReason) : (refuse r s).draws = s.draws := rfl

/-! ### raiseTransport -/

@[simp] theorem raiseTransport_params (txn j : Nat) : (raiseTransport txn j s).params = s.params := rfl
@[simp] theorem raiseTransport_busOwned (txn j : Nat) : (raiseTransport txn j s).busOwned = false := rfl
@[simp] theorem raiseTransport_sel (txn j : Nat) : (raiseTransport txn j s).sel = Config.selAfterFail s.draws := rfl
@[simp] theorem raiseTransport_fault (txn j : Nat) (h : s.fault = none) : (raiseTransport txn j s).fault =
    some ⟨.transport, if s.activity = .construction then none else some s.cmdIndex, txn, j⟩ := by
  simp [raiseTransport, release, record, h]
@[simp] theorem raiseTransport_refused (txn j : Nat) : (raiseTransport txn j s).refused = s.refused := rfl
@[simp] theorem raiseTransport_refusals (txn j : Nat) : (raiseTransport txn j s).refusals = s.refusals := rfl
@[simp] theorem raiseTransport_cmdIndex (txn j : Nat) :
    (raiseTransport txn j s).cmdIndex = if s.activity = .construction then s.cmdIndex else s.cmdIndex + 1 := rfl
@[simp] theorem raiseTransport_activity (txn j : Nat) : (raiseTransport txn j s).activity = .idle := rfl
@[simp] theorem raiseTransport_history (txn j : Nat) :
    (raiseTransport txn j s).history = s.history ++ [.xfail] ++ [.rel] := rfl
@[simp] theorem raiseTransport_returned (txn j : Nat) : (raiseTransport txn j s).returned = s.returned := rfl
@[simp] theorem raiseTransport_mem (txn j : Nat) : (raiseTransport txn j s).mem = s.mem := rfl
@[simp] theorem raiseTransport_devices (txn j : Nat) :
    (raiseTransport txn j s).devices = s.devices.mapIdx (loseDevice s.draws) := rfl
@[simp] theorem raiseTransport_latching (txn j : Nat) : (raiseTransport txn j s).latching = s.latching := rfl
@[simp] theorem raiseTransport_host (txn j : Nat) : (raiseTransport txn j s).host = s.host := rfl
@[simp] theorem raiseTransport_transport (txn j : Nat) : (raiseTransport txn j s).transport = s.transport := rfl
@[simp] theorem raiseTransport_draws (txn j : Nat) : (raiseTransport txn j s).draws = s.draws + 1 := rfl

/-! ### stallTransfer -/

@[simp] theorem stallTransfer_params : (stallTransfer s).params = s.params := rfl
@[simp] theorem stallTransfer_busOwned : (stallTransfer s).busOwned = s.busOwned := rfl
@[simp] theorem stallTransfer_sel : (stallTransfer s).sel = s.sel := rfl
@[simp] theorem stallTransfer_fault : (stallTransfer s).fault = s.fault := rfl
@[simp] theorem stallTransfer_refused : (stallTransfer s).refused = s.refused := rfl
@[simp] theorem stallTransfer_refusals : (stallTransfer s).refusals = s.refusals := rfl
@[simp] theorem stallTransfer_cmdIndex : (stallTransfer s).cmdIndex = s.cmdIndex := rfl
@[simp] theorem stallTransfer_activity : (stallTransfer s).activity = s.activity := rfl
@[simp] theorem stallTransfer_history : (stallTransfer s).history = s.history := rfl
@[simp] theorem stallTransfer_returned : (stallTransfer s).returned = s.returned := rfl
@[simp] theorem stallTransfer_mem : (stallTransfer s).mem = s.mem := rfl
@[simp] theorem stallTransfer_devices :
    (stallTransfer s).devices = s.devices.mapIdx (loseShift s.draws) := rfl
@[simp] theorem stallTransfer_latching : (stallTransfer s).latching = s.latching := rfl
@[simp] theorem stallTransfer_host : (stallTransfer s).host = s.host := rfl
@[simp] theorem stallTransfer_transport : (stallTransfer s).transport = s.transport := rfl
@[simp] theorem stallTransfer_draws : (stallTransfer s).draws = s.draws + 1 := rfl

/-! ### returning -/

@[simp] theorem returning_params (status : Status) : (returning status s).params = s.params := rfl
@[simp] theorem returning_busOwned (status : Status) : (returning status s).busOwned = s.busOwned := rfl
@[simp] theorem returning_sel (status : Status) : (returning status s).sel = s.sel := rfl
@[simp] theorem returning_fault (status : Status) : (returning status s).fault = s.fault := rfl
@[simp] theorem returning_refused (status : Status) : (returning status s).refused = s.refused := rfl
@[simp] theorem returning_refusals (status : Status) : (returning status s).refusals = s.refusals := rfl
@[simp] theorem returning_cmdIndex (status : Status) : (returning status s).cmdIndex = s.cmdIndex + 1 := rfl
@[simp] theorem returning_activity (status : Status) : (returning status s).activity = s.activity := rfl
@[simp] theorem returning_history (status : Status) : (returning status s).history = s.history := rfl
@[simp] theorem returning_returned (status : Status) :
    (returning status s).returned = s.returned ++ [(s.cmdIndex, status)] := rfl
@[simp] theorem returning_mem (status : Status) : (returning status s).mem = s.mem := rfl
@[simp] theorem returning_devices (status : Status) : (returning status s).devices = s.devices := rfl
@[simp] theorem returning_latching (status : Status) : (returning status s).latching = s.latching := rfl
@[simp] theorem returning_host (status : Status) : (returning status s).host = s.host := rfl
@[simp] theorem returning_transport (status : Status) : (returning status s).transport = s.transport := rfl
@[simp] theorem returning_draws (status : Status) : (returning status s).draws = s.draws := rfl

/-! ### afterTransactions -/

@[simp] theorem afterTransactions_params (txs : List (List Byte)) : (afterTransactions txs s).params = s.params := rfl
@[simp] theorem afterTransactions_busOwned (txs : List (List Byte)) :
    (afterTransactions txs s).busOwned = s.busOwned := rfl
@[simp] theorem afterTransactions_sel (txs : List (List Byte)) : (afterTransactions txs s).sel = s.sel := rfl
@[simp] theorem afterTransactions_fault (txs : List (List Byte)) : (afterTransactions txs s).fault = s.fault := rfl
@[simp] theorem afterTransactions_refused (txs : List (List Byte)) :
    (afterTransactions txs s).refused = s.refused := rfl
@[simp] theorem afterTransactions_refusals (txs : List (List Byte)) :
    (afterTransactions txs s).refusals = s.refusals := rfl
@[simp] theorem afterTransactions_cmdIndex (txs : List (List Byte)) :
    (afterTransactions txs s).cmdIndex = s.cmdIndex := rfl
@[simp] theorem afterTransactions_activity (txs : List (List Byte)) :
    (afterTransactions txs s).activity = s.activity := rfl
@[simp] theorem afterTransactions_history (txs : List (List Byte)) :
    (afterTransactions txs s).history = s.history ++ txs.flatMap transactionEvents := rfl
@[simp] theorem afterTransactions_returned (txs : List (List Byte)) :
    (afterTransactions txs s).returned = s.returned := rfl
@[simp] theorem afterTransactions_mem (txs : List (List Byte)) : (afterTransactions txs s).mem = s.mem := rfl
@[simp] theorem afterTransactions_devices (txs : List (List Byte)) :
    (afterTransactions txs s).devices = txs.foldl (fun devices bytes => latchBytes bytes devices) s.devices := rfl
@[simp] theorem afterTransactions_latching (txs : List (List Byte)) :
    (afterTransactions txs s).latching = s.latching := rfl
@[simp] theorem afterTransactions_host (txs : List (List Byte)) : (afterTransactions txs s).host = s.host := rfl
@[simp] theorem afterTransactions_transport (txs : List (List Byte)) :
    (afterTransactions txs s).transport = s.transport.drop (txs.map List.length).sum := rfl
@[simp] theorem afterTransactions_draws (txs : List (List Byte)) : (afterTransactions txs s).draws = s.draws := rfl

end Sys2Proof.Machine
end

