-- ==== Sys2Proof/Laws/Memory.lean ====
section
/-! SUPPORT. The framebuffer's laws: every write keeps the canonical form, a read after a write, and two framebuffers in
canonical form that read alike are equal. -/

namespace Sys2Proof.Machine

theorem memory_wf_cons {a : Nat} {v : Byte} {m : Memory} :
    Memory.wf ((a, v) :: m) = true ↔ v ≠ unlistedCell ∧ (∀ c ∈ m, a < c.1) ∧ Memory.wf m = true := by
  simp [Memory.wf, and_assoc]

/-- A cell below every listed one is not listed. -/
theorem memRead_of_lt {m : Memory} {a : Nat} (h : ∀ c ∈ m, a < c.1) : memRead m a = unlistedCell := by
  induction m with
  | nil => rfl
  | cons c m ih =>
    obtain ⟨b, w⟩ := c
    have hb : a < b := h (b, w) (by simp)
    have hm : ∀ c ∈ m, a < c.1 := fun c hc => h c (by simp [hc])
    simp [memRead, ih hm, show b ≠ a by omega]

/-- What a write lists is the cell written or was listed before. -/
theorem mem_memWrite {m : Memory} {a : Nat} {v : Byte} : ∀ c ∈ memWrite m a v, c = (a, v) ∨ c ∈ m := by
  induction m with
  | nil => unfold memWrite; split <;> simp
  | cons c m ih =>
    obtain ⟨b, w⟩ := c
    unfold memWrite
    split_ifs
    all_goals intro c hc
    · exact .inr hc
    · exact (List.mem_cons.1 hc).imp id id
    · exact .inr (List.mem_cons_of_mem _ hc)
    · exact (List.mem_cons.1 hc).imp id (List.mem_cons_of_mem _)
    · rcases List.mem_cons.1 hc with rfl | hc
      · exact .inr (by simp)
      · exact (ih c hc).imp id (List.mem_cons_of_mem _)

/-- A write touches only its own address. -/
theorem memWrite_keys {P : Nat → Prop} {m : Memory} {a : Nat} {v : Byte} (h : ∀ c ∈ m, P c.1) (ha : P a) :
    ∀ c ∈ memWrite m a v, P c.1 := fun c hc =>
  (mem_memWrite c hc).elim (fun e => e ▸ ha) (h c)

/-- Every write keeps the canonical form. -/
theorem memWrite_wf {m : Memory} {a : Nat} {v : Byte} (h : Memory.wf m = true) : Memory.wf (memWrite m a v) = true := by
  induction m with
  | nil =>
    unfold memWrite
    split
    · rfl
    · next hv => exact memory_wf_cons.2 ⟨hv, by simp, rfl⟩
  | cons c m ih =>
    obtain ⟨b, w⟩ := c
    obtain ⟨hw, hlt, hm⟩ := memory_wf_cons.1 h
    unfold memWrite
    split_ifs with h1 h2 h3 h4
    · exact h
    · refine memory_wf_cons.2 ⟨h2, ?_, h⟩
      intro c hc
      rcases List.mem_cons.1 hc with rfl | hc
      · exact h1
      · exact lt_trans h1 (hlt c hc)
    · exact hm
    · subst h3; exact memory_wf_cons.2 ⟨h4, hlt, hm⟩
    · exact memory_wf_cons.2 ⟨hw, memWrite_keys hlt (by omega), ih hm⟩

/-- The framebuffer of the state after reset is in canonical form. -/
theorem reset_mem_wf : Memory.wf State.reset.mem = true := rfl

theorem memRead_cons (b : Nat) (w : Byte) (m : Memory) (a : Nat) :
    memRead ((b, w) :: m) a = if b = a then w else memRead m a := rfl

/-- A read after a write: the value written at its address, and every other address as before. -/
theorem memRead_memWrite {m : Memory} (h : Memory.wf m = true) (a : Nat) (v : Byte) (b : Nat) :
    memRead (memWrite m a v) b = if b = a then v else memRead m b := by
  induction m with
  | nil =>
    unfold memWrite
    by_cases hv : v = unlistedCell <;> by_cases hb : a = b <;> simp [memRead, hv, hb, eq_comm]
  | cons c m ih =>
    obtain ⟨k, w⟩ := c
    obtain ⟨hw, hlt, hm⟩ := memory_wf_cons.1 h
    have hbelow : a < k → memRead ((k, w) :: m) a = unlistedCell := fun h1 =>
      memRead_of_lt (by
        intro c hc
        rcases List.mem_cons.1 hc with rfl | hc
        · exact h1
        · exact lt_trans h1 (hlt c hc))
    unfold memWrite
    by_cases h1 : a < k
    · rw [if_pos h1]
      by_cases hb : b = a
      · subst hb
        by_cases hv : v = unlistedCell
        · rw [if_pos hv, hbelow h1, if_pos rfl, hv]
        · simp [hv, memRead_cons]
      · by_cases hv : v = unlistedCell
        · rw [if_pos hv, if_neg hb]
        · rw [if_neg hv, memRead_cons, if_neg (Ne.symm hb), if_neg hb]
    · rw [if_neg h1]
      by_cases h2 : a = k
      · subst h2
        rw [if_pos rfl]
        by_cases hb : b = a
        · subst hb
          by_cases hv : v = unlistedCell
          · rw [if_pos hv, memRead_of_lt hlt, if_pos rfl, hv]
          · simp [hv, memRead_cons]
        · by_cases hv : v = unlistedCell
          · rw [if_pos hv, if_neg hb, memRead_cons, if_neg (Ne.symm hb)]
          · rw [if_neg hv, memRead_cons, if_neg (Ne.symm hb), if_neg hb, memRead_cons, if_neg (Ne.symm hb)]
      · rw [if_neg h2, memRead_cons, ih hm, memRead_cons]
        by_cases hk : k = b
        · subst hk; rw [if_pos rfl, if_neg (Ne.symm h2), if_pos rfl]
        · rw [if_neg hk, if_neg hk]

/-- Two framebuffers in canonical form that read alike at every address are equal. -/
theorem memory_ext {m m' : Memory} (h : Memory.wf m = true) (h' : Memory.wf m' = true)
    (hr : ∀ a, memRead m a = memRead m' a) : m = m' := by
  induction m generalizing m' with
  | nil =>
    cases m' with
    | nil => rfl
    | cons c m' =>
      obtain ⟨b, w⟩ := c
      have := hr b
      simp [memRead] at this
      exact absurd this.symm (memory_wf_cons.1 h').1
  | cons c m ih =>
    obtain ⟨a, v⟩ := c
    obtain ⟨hv, hlt, hm⟩ := memory_wf_cons.1 h
    cases m' with
    | nil =>
      have := hr a
      simp [memRead] at this
      exact absurd this hv
    | cons c' m' =>
      obtain ⟨b, w⟩ := c'
      obtain ⟨hw, hlt', hm'⟩ := memory_wf_cons.1 h'
      have hab : a = b := by
        rcases lt_trichotomy a b with hl | he | hl
        · have := hr a
          rw [memRead_of_lt (m := (b, w) :: m') (by
            intro c hc
            rcases List.mem_cons.1 hc with rfl | hc
            · exact hl
            · exact lt_trans hl (hlt' c hc))] at this
          simp [memRead] at this
          exact absurd this hv
        · exact he
        · have := hr b
          rw [memRead_of_lt (m := (a, v) :: m) (by
            intro c hc
            rcases List.mem_cons.1 hc with rfl | hc
            · exact hl
            · exact lt_trans hl (hlt c hc))] at this
          simp [memRead] at this
          exact absurd this.symm hw
      subst hab
      have hvw : v = w := by simpa [memRead] using hr a
      subst hvw
      refine congrArg _ (ih hm hm' fun k => ?_)
      by_cases hk : a = k
      · subst hk; rw [memRead_of_lt hlt, memRead_of_lt hlt']
      · simpa [memRead, hk] using hr k

/-- Distinct pairs are distinct cells (R29, R103). -/
theorem cellAddr_inj {row row' d d' : Nat} (h : row < 8) (h' : row' < 8) :
    cellAddr row d = cellAddr row' d' ↔ row = row' ∧ d = d' := by
  unfold cellAddr; omega

end Sys2Proof.Machine
end

