-- ==== Sys2Proof/Laws/Ops.lean ====
section
/-! SUPPORT. What each shared operation can do, said once: the transfer of a byte string, a transaction, a loop of
transactions, the acceptance of a command, and the edge taken device by device. -/

namespace Sys2Proof.Machine

/-! ### The transport's answers -/

theorem answersOk_mono {j k : Nat} {s : State} (h : AnswersOk k s) (hj : j ≤ k) : AnswersOk j s := fun a ha =>
  h a ((List.take_subset_take_left _ hj) ha)

theorem answersOk_nextAnswer {k : Nat} {s : State} (h : AnswersOk (k + 1) s) : nextAnswer s = .ok := by
  unfold nextAnswer
  cases hs : s.transport with
  | nil => rfl
  | cons a as => exact h a (by simp [hs])

/-- Past the first `k` answers, `j` more are ok. -/
theorem answersOk_add {k j : Nat} {s t : State} (ht : t.transport = s.transport.drop k) :
    AnswersOk (k + j) s ↔ AnswersOk k s ∧ AnswersOk j t := by
  unfold AnswersOk
  rw [ht, List.take_add]
  constructor
  · intro h
    exact ⟨fun a ha => h a (List.mem_append_left _ ha), fun a ha => h a (List.mem_append_right _ ha)⟩
  · rintro ⟨h1, h2⟩ a ha
    exact (List.mem_append.1 ha).elim (h1 a) (h2 a)

/-! ### The transfer of a byte string -/

/-- The state after `k` bytes of a string were handed over. -/
def afterBytes (bytes : List Byte) (k : Nat) (s : State) : State :=
  { s with history := s.history ++ (bytes.take k).map .byte, transport := s.transport.drop k }

theorem afterBytes_zero (bytes : List Byte) (s : State) : afterBytes bytes 0 s = s := by simp [afterBytes]

theorem afterBytes_cons (b : Byte) (bytes : List Byte) (k : Nat) (s : State) :
    afterBytes bytes k (popAnswer (record (.byte b) s)) = afterBytes (b :: bytes) (k + 1) s := by
  simp [afterBytes, popAnswer, record]

/-- How a transfer ends: every byte is answered ok; or byte `j` is the first that is not, and it fails or stalls. -/
theorem sendBytes_cases (bytes : List Byte) (j0 : Nat) (s : State) :
    (AnswersOk bytes.length s ∧ sendBytes bytes j0 s = .sent (afterBytes bytes bytes.length s)) ∨
    (∃ j < bytes.length, AnswersOk j s ∧ s.transport[j]? = some .fail ∧
      sendBytes bytes j0 s = .failed (j0 + j) (afterBytes bytes (j + 1) s)) ∨
    (∃ j < bytes.length, AnswersOk j s ∧ s.transport[j]? = some .stall ∧
      sendBytes bytes j0 s = .stalled (afterBytes bytes (j + 1) s)) := by
  induction bytes generalizing j0 s with
  | nil =>
    left
    refine ⟨fun a ha => by simp at ha, ?_⟩
    simp [sendBytes, afterBytes]
  | cons b bytes ih =>
    have hs1 : (popAnswer (record (.byte b) s)).transport = s.transport.drop 1 := by
      simp [popAnswer, record]
    have hget : ∀ j, (popAnswer (record (.byte b) s)).transport[j]? = s.transport[j + 1]? := by
      intro j; rw [hs1, List.getElem?_drop, Nat.add_comm]
    have hok : nextAnswer s = .ok → AnswersOk 1 s := by
      intro h a ha
      unfold nextAnswer at h
      cases hs : s.transport with
      | nil => simp [hs] at ha
      | cons c cs => simp_all
    have hhead : ∀ a, a ≠ Answer.ok → nextAnswer s = a → s.transport[0]? = some a := by
      intro a ha h
      unfold nextAnswer at h
      cases hs : s.transport with
      | nil => simp [hs] at h; exact absurd h.symm ha
      | cons c cs => simp [hs] at h; simp [h]
    have h0 : AnswersOk 0 s := by intro a ha; simp at ha
    cases hn : nextAnswer s with
    | ok =>
      have hu : ∀ k, AnswersOk k (popAnswer (record (.byte b) s)) → AnswersOk (k + 1) s := by
        intro k hk; rw [Nat.add_comm]; exact (answersOk_add hs1).2 ⟨hok hn, hk⟩
      rcases ih (j0 + 1) (popAnswer (record (.byte b) s)) with ⟨h1, h2⟩ | ⟨j, hj, h1, h2, h3⟩ | ⟨j, hj, h1, h2, h3⟩
      · left
        refine ⟨hu _ h1, ?_⟩
        simp only [sendBytes, hn, h2, afterBytes_cons, List.length_cons]
      · right; left
        refine ⟨j + 1, by simpa using hj, hu _ h1, by rw [← hget]; exact h2, ?_⟩
        simp only [sendBytes, hn, h3, afterBytes_cons]
        rw [show j0 + 1 + j = j0 + (j + 1) by omega]
      · right; right
        refine ⟨j + 1, by simpa using hj, hu _ h1, by rw [← hget]; exact h2, ?_⟩
        simp only [sendBytes, hn, h3, afterBytes_cons]
    | fail =>
      right; left
      refine ⟨0, by simp, h0, hhead _ (by decide) hn, ?_⟩
      simp only [sendBytes, hn]
      rw [← afterBytes_cons, afterBytes_zero, Nat.add_zero]
    | stall =>
      right; right
      refine ⟨0, by simp, h0, hhead _ (by decide) hn, ?_⟩
      simp only [sendBytes, hn]
      rw [← afterBytes_cons, afterBytes_zero]

/-! ### A transaction -/

/-- The state after a complete transaction. -/
def afterTransact (bytes : List Byte) (s : State) : State :=
  { s with
    busOwned := false
    sel := .high
    history := s.history ++ transactionEvents bytes
    devices := latchBytes bytes s.devices
    transport := s.transport.drop bytes.length }

/-- The state while transaction `bytes` is under way and `k` bytes were handed over. -/
def duringTransact (bytes : List Byte) (k : Nat) (s : State) : State :=
  { s with
    busOwned := true
    sel := .low
    history := s.history ++ [.acq, .sel .low] ++ (bytes.take k).map .byte
    transport := s.transport.drop k }

theorem afterBytes_during (bytes : List Byte) (k : Nat) (s : State) :
    afterBytes bytes k (setSel .low (acquire s)) = duringTransact bytes k s := by
  simp [afterBytes, duringTransact, setSel, acquire, record]

theorem map_latch_deliver (bytes : List Byte) (devices : List Device) :
    (devices.mapIdx fun k dev => { dev with sr := (slotOf bytes k).getD dev.sr }).map latchDevice = latchBytes bytes devices := by
  apply List.ext_getElem?
  intro k
  simp only [latchBytes, List.getElem?_map, List.getElem?_mapIdx, Option.map_map]
  rfl

/-- How a transaction ends (R85, R86). -/
theorem transact_cases (txn : Nat) (bytes : List Byte) (s : State) :
    (AnswersOk bytes.length s ∧ transact txn bytes s = .go (afterTransact bytes s)) ∨
    (∃ j < bytes.length, AnswersOk j s ∧ s.transport[j]? = some .fail ∧
      transact txn bytes s = .stop (raiseTransport txn j (duringTransact bytes (j + 1) s))) ∨
    (∃ j < bytes.length, AnswersOk j s ∧ s.transport[j]? = some .stall ∧
      transact txn bytes s = .stop (stallTransfer (duringTransact bytes (j + 1) s))) := by
  have hA : ∀ k, AnswersOk k (setSel .low (acquire s)) ↔ AnswersOk k s := fun k => Iff.rfl
  rcases sendBytes_cases bytes 0 (setSel .low (acquire s)) with ⟨h1, h2⟩ | ⟨j, hj, h1, h2, h3⟩ | ⟨j, hj, h1, h2, h3⟩
  · left
    refine ⟨h1, ?_⟩
    simp only [transact, h2, afterBytes_during]
    simp only [release, risingEdge, setSel, deliver, record, afterTransact, duringTransact, transactionEvents,
      List.take_length, map_latch_deliver]
    simp
  · right; left
    refine ⟨j, hj, h1, h2, ?_⟩
    simp only [transact, h3, afterBytes_during, Nat.zero_add]
  · right; right
    refine ⟨j, hj, h1, h2, ?_⟩
    simp only [transact, h3, afterBytes_during]

theorem answersOk_not {j k : Nat} {s : State} {a : Answer} (hj : j < k) (h : AnswersOk k s)
    (ha : s.transport[j]? = some a) : a = .ok := by
  refine h a ?_
  rw [List.mem_iff_getElem?]
  exact ⟨j, by rw [List.getElem?_take, if_pos hj, ha]⟩

theorem transact_ok {txn : Nat} {bytes : List Byte} {s : State} (h : AnswersOk bytes.length s) :
    transact txn bytes s = .go (afterTransact bytes s) := by
  rcases transact_cases txn bytes s with ⟨_, h2⟩ | ⟨j, hj, _, h2, _⟩ | ⟨j, hj, _, h2, _⟩
  · exact h2
  · exact absurd (answersOk_not hj h h2) (by decide)
  · exact absurd (answersOk_not hj h h2) (by decide)

theorem firstBad_unique {j j' : Nat} {s : State} {a a' : Answer} (h : AnswersOk j s) (ha : s.transport[j]? = some a)
    (ha' : a ≠ .ok) (h' : AnswersOk j' s) (hb : s.transport[j']? = some a') (hb' : a' ≠ .ok) : j = j' := by
  rcases lt_trichotomy j j' with hl | he | hl
  · exact absurd (answersOk_not hl h' ha) ha'
  · exact he
  · exact absurd (answersOk_not hl h hb) hb'

theorem transact_fail {txn j : Nat} {bytes : List Byte} {s : State} (hj : j < bytes.length) (h : AnswersOk j s)
    (ha : s.transport[j]? = some .fail) :
    transact txn bytes s = .stop (raiseTransport txn j (duringTransact bytes (j + 1) s)) := by
  rcases transact_cases txn bytes s with ⟨h1, _⟩ | ⟨j', _, h1, h2, h3⟩ | ⟨j', _, h1, h2, _⟩
  · exact absurd (answersOk_not hj h1 ha) (by decide)
  · rw [firstBad_unique h ha (by decide) h1 h2 (by decide)]; exact h3
  · have := firstBad_unique h ha (by decide) h1 h2 (by decide)
    subst this; simp [ha] at h2

theorem transact_stall {txn j : Nat} {bytes : List Byte} {s : State} (hj : j < bytes.length) (h : AnswersOk j s)
    (ha : s.transport[j]? = some .stall) :
    transact txn bytes s = .stop (stallTransfer (duringTransact bytes (j + 1) s)) := by
  rcases transact_cases txn bytes s with ⟨h1, _⟩ | ⟨j', _, h1, h2, _⟩ | ⟨j', _, h1, h2, h3⟩
  · exact absurd (answersOk_not hj h1 ha) (by decide)
  · have := firstBad_unique h ha (by decide) h1 h2 (by decide)
    subst this; simp [ha] at h2
  · rw [firstBad_unique h ha (by decide) h1 h2 (by decide)]; exact h3

/-! ### The acceptance of a command -/

/-- A ready controller with the front-end runs the command. -/
theorem accept_ready {need : Frontend} {op : Nat} {body : State → Result} {s : State} (hf : s.fault = none)
    (ha : s.activity = .idle) (hn : need = .none ∨ need = s.params.frontend) : accept need op body s = body s := by
  rcases hn with h | h <;> simp [accept, hf, ha, h]

/-- What accepting a command can do: the controller is stuck, or the command is refused, or it runs. -/
theorem accept_next {need : Frontend} {op : Nat} {body : State → Result} {s t : State}
    (h : accept need op body s = .next t) :
    s.fault = none ∧
      ((s.activity ≠ .idle ∧ t = refuse .reentrant s) ∨
       (s.activity = .idle ∧ need ≠ .none ∧ need ≠ s.params.frontend ∧ t = refuse (.noFrontend op) s) ∨
       (s.activity = .idle ∧ (need = .none ∨ need = s.params.frontend) ∧ body s = .next t)) := by
  unfold accept at h
  split_ifs at h with h1 h2 h3
  · exact ⟨by simpa using h1, .inl ⟨h2, by simpa [eq_comm] using h⟩⟩
  · refine ⟨by simpa using h1, .inr (.inl ⟨by simpa using h2, h3.1, h3.2, by simpa [eq_comm] using h⟩)⟩
  · refine ⟨by simpa using h1, .inr (.inr ⟨by simpa using h2, ?_, h⟩)⟩
    by_cases hn : need = .none
    · exact .inl hn
    · exact .inr (by by_contra hc; exact h3 ⟨hn, hc⟩)

/-- A command that ran answers a next state: the one it completed in, or the one it stopped in. -/
theorem finish_next {r : Run} {t : State} (h : finish r = .next t) :
    (∃ s, r = .go s ∧ t = complete .ok s) ∨ r = .stop t := by
  cases r with
  | go s => left; exact ⟨s, rfl, by simpa [finish, eq_comm] using h⟩
  | stop s => right; simpa [finish] using h

theorem ifInRange_true {body : State → Run} {b : Bool} {s : State} (h : b = true) :
    ifInRange b body s = finish (body (start s)) := by simp [ifInRange, h]

theorem ifInRange_false {body : State → Run} {b : Bool} {s : State} (h : b = false) :
    ifInRange b body s = .next (complete .fail s) := by simp [ifInRange, h]

/-! ### Loops of transactions -/

/-- A property that each round keeps holds after the loop, however it ends. -/
theorem forEach_keeps {P Q : State → Prop} {f : Nat → State → Run} (ks : List Nat)
    (hgo : ∀ k ∈ ks, ∀ s t, P s → f k s = .go t → P t) (hstop : ∀ k ∈ ks, ∀ s t, P s → f k s = .stop t → Q t)
    {s : State} (hs : P s) :
    (∀ t, forEach ks f s = .go t → P t) ∧ (∀ t, forEach ks f s = .stop t → Q t) := by
  induction ks generalizing s with
  | nil => constructor <;> intro t h <;> simp [forEach] at h; subst h; exact hs
  | cons k ks ih =>
    simp only [forEach, andThen]
    cases hk : f k s with
    | go u =>
      exact ih (fun k' h' => hgo k' (List.mem_cons_of_mem _ h')) (fun k' h' => hstop k' (List.mem_cons_of_mem _ h'))
        (hgo k (by simp) s u hs hk)
    | stop u =>
      constructor <;> intro t h <;> simp at h
      subst h; exact hstop k (by simp) s u hs hk

theorem forEach_append (ks ks' : List Nat) (f : Nat → State → Run) (s : State) :
    forEach (ks ++ ks') f s = andThen (forEach ks f s) (forEach ks' f) := by
  induction ks generalizing s with
  | nil => rfl
  | cons k ks ih =>
    simp only [List.cons_append, forEach]
    cases f k s with
    | go u => simp [andThen, ih]
    | stop u => rfl

/-! ### The sequences -/

theorem slotFrame_length (i : Nat) (g : Target) (r v : Byte) : (slotFrame i g r v).length = 2 := by
  unfold slotFrame; split <;> rfl

theorem uniSeq_length (n : Nat) (r v : Byte) (t : Nat) : (uniSeq n r v t).length = 2 * n := by
  simp [uniSeq, List.length_flatMap, slotFrame_length, Nat.mul_comm]

theorem paySeq_length (r : Byte) (payload : List Byte) : (paySeq r payload).length = 2 * payload.length := by
  simp [paySeq, List.length_flatMap, Nat.mul_comm]

theorem paySeq_cons (r v : Byte) (payload : List Byte) : paySeq r (v :: payload) = r :: v :: paySeq r payload := by
  simp [paySeq]

/-- Byte `2i` and byte `2i+1` of pairs laid end to end. -/
theorem flatMap_pairs {α : Type} (f : α → Byte × Byte) (xs : List α) (i : Nat) :
    (xs.flatMap fun x => [(f x).1, (f x).2])[2 * i]? = xs[i]?.map (fun x => (f x).1) ∧
    (xs.flatMap fun x => [(f x).1, (f x).2])[2 * i + 1]? = xs[i]?.map (fun x => (f x).2) := by
  induction xs generalizing i with
  | nil => simp
  | cons x xs ih =>
    cases i with
    | zero => simp
    | succ i =>
      have h1 : 2 * (i + 1) = 2 * i + 1 + 1 := by omega
      have := ih i
      simp only [List.flatMap_cons, List.cons_append, List.nil_append, h1, List.getElem?_cons_succ]
      exact this

/-- Slot `i` of a payload sequence carries the register and the payload's byte `i` (R84). -/
theorem slotOf_paySeq (r : Byte) (payload : List Byte) (i : Nat) :
    slotOf (paySeq r payload) i = payload[i]?.map (fun v => frameOf r v) := by
  obtain ⟨h1, h2⟩ := flatMap_pairs (fun v => (r, v)) payload i
  have e : paySeq r payload = payload.flatMap fun x => [((fun v => (r, v)) x).1, ((fun v => (r, v)) x).2] := rfl
  unfold slotOf
  rw [e, h1, h2]
  cases payload[i]? <;> rfl

theorem uniSeq_pairs (n : Nat) (r v : Byte) (t : Nat) :
    uniSeq n r v t = (List.range n).flatMap fun i =>
      [(if resolve n t = .all ∨ resolve n t = .one i then (r, v) else ((0 : Byte), (0 : Byte))).1,
        (if resolve n t = .all ∨ resolve n t = .one i then (r, v) else ((0 : Byte), (0 : Byte))).2] := by
  unfold uniSeq slotFrame
  congr 1
  funext i
  split <;> rfl

/-- Slot `i` of a single-value sequence carries the frame if it is a target and the no-op frame if not (R82). -/
theorem slotOf_uniSeq (n : Nat) (r v : Byte) (t i : Nat) (h : i < n) :
    slotOf (uniSeq n r v t) i =
      some (if resolve n t = .all ∨ resolve n t = .one i then frameOf r v else 0) := by
  obtain ⟨h1, h2⟩ := flatMap_pairs (fun i => if resolve n t = .all ∨ resolve n t = .one i then (r, v)
    else ((0 : Byte), (0 : Byte))) (List.range n) i
  unfold slotOf
  rw [uniSeq_pairs, h1, h2]
  simp only [List.getElem?_range h, Option.map_some]
  split <;> rfl

/-! ### Devices -/

theorem regOf_writeReg (r r' : DevReg) (d : Byte) (dev : Device) :
    regOf r' (writeReg r d dev) = if r' = r then some d else regOf r' dev := by
  cases r <;> cases r' <;> rfl

theorem regOf_loseRegs (r : DevReg) (dev : Device) : regOf r (loseRegs dev) = none := by cases r <;> rfl

/-- No register of a device holds a value after a transaction cut short (R135). -/
theorem regOf_loseDevice (r : DevReg) (draw k : Nat) (dev : Device) : regOf r (loseDevice draw k dev) = none := by
  cases r <;> rfl

/-- A stall changes no register of a device (R117). -/
theorem regOf_loseShift (r : DevReg) (draw k : Nat) (dev : Device) : regOf r (loseShift draw k dev) = regOf r dev := by
  cases r <;> rfl

theorem regOf_sr (r : DevReg) (x : Half) (dev : Device) : regOf r { dev with sr := x } = regOf r dev := by
  cases r <;> rfl

/-- A frame to a documented register writes that register (R118). -/
theorem applyFrame_regAddr (r : DevReg) (d : Byte) (dev : Device) : applyFrame (regAddr r) d dev = writeReg r d dev := by
  cases r <;> rfl

theorem applyFrame_noop (dev : Device) : applyFrame 0 0 dev = dev := rfl

@[simp] theorem frameAddr_frameOf (a d : Byte) : frameAddr (frameOf a d) = a := by
  unfold frameAddr frameOf
  exact BitVec.extractLsb'_append_eq_left

@[simp] theorem frameData_frameOf (a d : Byte) : frameData (frameOf a d) = d := by
  unfold frameData frameOf
  exact BitVec.extractLsb'_append_eq_right

theorem latchDevice_slot (a d : Byte) (dev : Device) :
    latchDevice { dev with sr := frameOf a d } = applyFrame a d { dev with sr := frameOf a d } := by
  simp [latchDevice]

theorem latchBytes_getElem? (bytes : List Byte) (devices : List Device) (k : Nat) :
    (latchBytes bytes devices)[k]? =
      (devices[k]?).map fun dev => latchDevice { dev with sr := (slotOf bytes k).getD dev.sr } := by
  simp [latchBytes, List.getElem?_mapIdx]

theorem latchBytes_length (bytes : List Byte) (devices : List Device) :
    (latchBytes bytes devices).length = devices.length := by simp [latchBytes]

theorem digitAddr_regAddr {k : Nat} (h : k < 8) : digitAddr k = regAddr (digitReg k) := by
  interval_cases k <;> rfl

/-! ### The edge taken device by device -/

theorem atEdge_cons {k : Nat} {ks : List Nat} {f : Device → Device} {s : State} (h : s.latching = k :: ks) :
    atEdge f s = { s with devices := s.devices.modify k f, latching := ks } := by simp [atEdge, h]

theorem atEdge_nil {f : Device → Device} {s : State} (h : s.latching = []) : atEdge f s = s := by simp [atEdge, h]

end Sys2Proof.Machine
end

