-- ==== Sys2Proof/Laws/Commands.lean ====
section
/-! SUPPORT. Loops of transactions and framebuffer updates in closed form, for the commands that make several transactions or
write several cells. -/

namespace Sys2Proof.Machine

/-- The bus is free and the select line high. -/
abbrev Quiet (s : State) : Prop := s.busOwned = false ∧ s.sel = .high

/-! ### Runs of completed transactions -/

theorem afterTransactions_nil (s : State) : afterTransactions [] s = s := by simp [afterTransactions]

theorem afterTransactions_append (xs ys : List (List Byte)) (s : State) :
    afterTransactions ys (afterTransactions xs s) = afterTransactions (xs ++ ys) s := by
  simp [afterTransactions, List.append_assoc]

theorem afterTransact_quiet {bytes : List Byte} {s : State} (h : Quiet s) :
    afterTransact bytes s = afterTransactions [bytes] s := by
  obtain ⟨h1, h2⟩ := h
  cases s
  simp_all [afterTransact, afterTransactions]

theorem transact_quiet {txn : Nat} {bytes : List Byte} {s : State} (hq : Quiet s) (h : AnswersOk bytes.length s) :
    transact txn bytes s = .go (afterTransactions [bytes] s) := by rw [transact_ok h, afterTransact_quiet hq]

/-- A command that ran its transactions to the end from a ready state returns OK. -/
theorem finish_transactions {txs : List (List Byte)} {s : State} {m : Memory} (h : s.activity = .idle) :
    finish (.go { afterTransactions txs (start s) with mem := m }) =
      .next (returning .ok { afterTransactions txs s with mem := m }) := by
  cases s
  simp_all [finish, complete, returning, afterTransactions, start]

theorem finish_transactions' {txs : List (List Byte)} {s : State} (h : s.activity = .idle) :
    finish (.go (afterTransactions txs (start s))) = .next (returning .ok (afterTransactions txs s)) := by
  cases s
  simp_all [finish, complete, returning, afterTransactions, start]

/-- After `k` transfers, the answers to the next `j`. -/
theorem answersOk_split {k j m : Nat} {s t : State} (ht : t.transport = s.transport.drop k) (h : AnswersOk m s)
    (hm : m = k + j) : AnswersOk k s ∧ AnswersOk j t := by subst hm; exact (answersOk_add ht).1 h

theorem complete_fail_idle {s : State} (h : s.activity = .idle) : complete .fail s = returning .fail s := by
  cases s; simp_all [complete, returning]

theorem complete_ok_idle {s : State} (h : s.activity = .idle) : complete .ok s = returning .ok s := by
  cases s; simp_all [complete, returning]

/-- A loop of transactions whose byte strings do not depend on what transactions change. -/
theorem forEach_transacts {b : Nat → State → List Byte} {L : Nat}
    (hb : ∀ k txs s, b k (afterTransactions txs s) = b k s) (ks : List Nat) {s : State}
    (hL : ∀ k, (b k s).length = L) (hq : Quiet s) (h : AnswersOk (ks.length * L) s) :
    forEach ks (fun k s => transact k (b k s) s) s = .go (afterTransactions (ks.map fun k => b k s) s) := by
  induction ks generalizing s with
  | nil => simp [forEach, afterTransactions_nil]
  | cons k ks ih =>
    have hs : (afterTransactions [b k s] s).transport = s.transport.drop L := by simp [hL]
    obtain ⟨h1, h2⟩ := answersOk_split (j := ks.length * L) hs h (by rw [List.length_cons]; ring)
    simp only [forEach]
    rw [transact_quiet hq (by rw [hL]; exact h1)]
    simp only [andThen]
    rw [ih (fun k' => (congrArg List.length (hb k' _ s)).trans (hL k')) hq h2]
    simp only [hb, List.map_cons]
    rw [afterTransactions_append]
    rfl

/-! ### The framebuffer -/

theorem readCell_mem {s t : State} (h : t.mem = s.mem) (row d : Nat) : readCell row d t = readCell row d s := by
  simp [readCell, h]

theorem readRow_eq {s t : State} (h : t.mem = s.mem) (hp : t.params = s.params) (row : Nat) :
    readRow row t = readRow row s := by simp [readRow, readCell, h, hp]

theorem readRow_length (row : Nat) (s : State) : (readRow row s).length = s.params.n := by simp [readRow]

/-- Cells `0..k-1` of one row written in order. -/
theorem writeCells_spec (row : Nat) (v : Nat → Byte) (k : Nat) (s : State) (hw : Memory.wf s.mem = true) :
    ∃ m, (List.range k).foldl (fun s d => writeCell row d (v d) s) s = { s with mem := m } ∧ Memory.wf m = true ∧
      (∀ d, d < k → memRead m (cellAddr row d) = v d) ∧
      (∀ a, (∀ d, d < k → a ≠ cellAddr row d) → memRead m a = memRead s.mem a) ∧
      (∀ P : Nat → Prop, (∀ c ∈ s.mem, P c.1) → (∀ d, d < k → P (cellAddr row d)) → ∀ c ∈ m, P c.1) := by
  induction k with
  | zero => exact ⟨s.mem, rfl, hw, by simp, by simp, by simp_all⟩
  | succ k ih =>
    obtain ⟨m, h1, h2, h3, h4, h5⟩ := ih
    refine ⟨memWrite m (cellAddr row k) (v k), ?_, memWrite_wf h2, ?_, ?_, ?_⟩
    · rw [List.range_succ, List.foldl_append, h1]; rfl
    · intro d hd
      rw [memRead_memWrite h2]
      by_cases he : d = k
      · simp [he]
      · rw [if_neg (by unfold cellAddr; omega), h3 d (by omega)]
    · intro a ha
      rw [memRead_memWrite h2, if_neg (ha k (by omega)), h4 a (fun d hd => ha d (by omega))]
    · intro P hP hk
      exact memWrite_keys (h5 P hP fun d hd => hk d (by omega)) (hk k (by omega))

/-- What writing one row does (R97, R98). -/
theorem writeRow_spec (row : Nat) (v : Nat → Byte) (s : State) (hw : Memory.wf s.mem = true) :
    ∃ m, writeRow row v s = { s with mem := m } ∧ Memory.wf m = true ∧
      (∀ d, d < s.params.n → memRead m (cellAddr row d) = v d) ∧
      (∀ a, (∀ d, d < s.params.n → a ≠ cellAddr row d) → memRead m a = memRead s.mem a) ∧
      (∀ P : Nat → Prop, (∀ c ∈ s.mem, P c.1) → (∀ d, d < s.params.n → P (cellAddr row d)) → ∀ c ∈ m, P c.1) :=
  writeCells_spec row v s.params.n s hw

theorem clearRows_spec (k : Nat) (hk : k ≤ 8) (s : State) (hw : Memory.wf s.mem = true) :
    ∃ m, (List.range k).foldl (fun s row => writeRow row (fun _ => 0x00) s) s = { s with mem := m } ∧
      Memory.wf m = true ∧
      (∀ row d, row < k → d < s.params.n → memRead m (cellAddr row d) = 0x00) ∧
      (∀ a, memRead s.mem a = 0x00 → memRead m a = 0x00) ∧
      (∀ P : Nat → Prop, (∀ c ∈ s.mem, P c.1) → (∀ row d, row < k → d < s.params.n → P (cellAddr row d)) →
        ∀ c ∈ m, P c.1) := by
  induction k with
  | zero => exact ⟨s.mem, rfl, hw, by simp, by simp, by simp_all⟩
  | succ k ih =>
    obtain ⟨m, h1, h2, h3, h4, h5⟩ := ih (by omega)
    obtain ⟨m', g1, g2, g3, g4, g5⟩ := writeRow_spec k (fun _ => 0x00) { s with mem := m } h2
    have hread : ∀ a, memRead m a = 0x00 → memRead m' a = 0x00 := by
      intro a ha
      by_cases hc : ∃ d, d < s.params.n ∧ a = cellAddr k d
      · obtain ⟨d, hd, rfl⟩ := hc; exact g3 d hd
      · exact (g4 a fun d hd he => hc ⟨d, hd, he⟩).trans ha
    refine ⟨m', by rw [List.range_succ, List.foldl_append, h1]; exact g1, g2, ?_, fun a ha => hread a (h4 a ha), ?_⟩
    · intro row d hr hd
      by_cases he : row = k
      · subst he; exact g3 d hd
      · exact hread _ (h3 row d (by omega) hd)
    · intro P hP hc
      exact g5 P (h5 P hP fun row d hr hd => hc row d (by omega) hd) (fun d hd => hc k d (by omega) hd)

/-- What clearing the framebuffer does: nothing is listed any more (R97). -/
theorem clearCells_spec (s : State) (h : Memory.wf s.mem = true) (hb : ∀ c ∈ s.mem, c.1 < 8 * s.params.n) :
    clearCells s = { s with mem := [] } := by
  obtain ⟨m, h1, h2, h3, _, h5⟩ := clearRows_spec 8 le_rfl s h
  have hm : ∀ c ∈ m, c.1 < 8 * s.params.n := h5 (fun a => a < 8 * s.params.n) hb (by intro row d; unfold cellAddr; omega)
  have : m = [] := by
    refine memory_ext h2 rfl fun a => ?_
    by_cases ha : a < 8 * s.params.n
    · have he : a = cellAddr (a % 8) (a / 8) := by unfold cellAddr; omega
      rw [he, h3 _ _ (by omega) (by omega)]; rfl
    · have : ∀ m : Memory, (∀ c ∈ m, c.1 < 8 * s.params.n) → memRead m a = unlistedCell := by
        intro m hm
        induction m with
        | nil => rfl
        | cons c m ih =>
          obtain ⟨b, w⟩ := c
          have hb : b < 8 * s.params.n := hm (b, w) (by simp)
          rw [memRead_cons, if_neg (by omega), ih fun c hc => hm c (by simp [hc])]
      rw [this m hm]; rfl
  rw [← this]; exact h1

/-- What updating one bit does (R99, R100). -/
theorem updateBit_spec (row d b : Nat) (on : Bool) (s : State) :
    updateBit row d b on s =
      { s with mem := memWrite s.mem (cellAddr row d) (setBit b on (readCell row d s)) } := rfl

theorem readCell_updateBit {row d b : Nat} {on : Bool} {s : State} (hw : Memory.wf s.mem = true) (row' d' : Nat) :
    readCell row' d' (updateBit row d b on s) =
      if cellAddr row' d' = cellAddr row d then setBit b on (readCell row d s) else readCell row' d' s := by
  rw [updateBit_spec]
  unfold readCell
  rw [memRead_memWrite hw]

/-- The row after one of its bits is updated. -/
theorem readRow_updateBit {row d b : Nat} {on : Bool} {s : State} (hw : Memory.wf s.mem = true) :
    readRow row (updateBit row d b on s) = (List.range s.params.n).map fun d' =>
      if d' = d then setBit b on (readCell row d' s) else readCell row d' s := by
  unfold readRow
  have hp : (updateBit row d b on s).params = s.params := rfl
  rw [hp]
  refine List.map_congr_left fun d' _ => ?_
  rw [readCell_updateBit hw]
  by_cases h : d' = d
  · subst h; simp
  · rw [if_neg (by unfold cellAddr; omega), if_neg h]

/-! ### The matrix loops -/

theorem pushRow_quiet {txn row : Nat} {s : State} (hq : Quiet s) (h : AnswersOk (2 * s.params.n) s) :
    pushRow txn row s = .go (afterTransactions [paySeq (digitAddr row) (readRow row s)] s) :=
  transact_quiet hq (by rw [paySeq_length, readRow_length]; exact h)

/-- Rows pushed one after another (R97). -/
theorem forEach_pushRow (ks : List Nat) {s : State} (hq : Quiet s) (h : AnswersOk (ks.length * (2 * s.params.n)) s) :
    forEach ks (fun row s => pushRow row row s) s =
      .go (afterTransactions (ks.map fun row => paySeq (digitAddr row) (readRow row s)) s) :=
  forEach_transacts (b := fun row s => paySeq (digitAddr row) (readRow row s)) (fun _ _ _ => rfl) ks
    (fun k => by rw [paySeq_length, readRow_length]) hq h

/-- The framebuffer after the column's bit of these rows was updated. -/
def colMemory (dev b : Nat) (cmask : Byte) (ks : List Nat) (m : Memory) : Memory :=
  ks.foldl (fun m row =>
    memWrite m (cellAddr row dev) (setBit b (cmask.getLsbD row) (memRead m (cellAddr row dev)))) m

theorem colMemory_spec (dev b : Nat) (cmask : Byte) (ks : List Nat) (m : Memory) (hw : Memory.wf m = true)
    (hn : ks.Nodup) (h8 : ∀ k ∈ ks, k < 8) :
    Memory.wf (colMemory dev b cmask ks m) = true ∧
      (∀ row ∈ ks, memRead (colMemory dev b cmask ks m) (cellAddr row dev) =
        setBit b (cmask.getLsbD row) (memRead m (cellAddr row dev))) ∧
      (∀ a, (∀ row ∈ ks, a ≠ cellAddr row dev) → memRead (colMemory dev b cmask ks m) a = memRead m a) ∧
      (∀ P : Nat → Prop, (∀ c ∈ m, P c.1) → (∀ row ∈ ks, P (cellAddr row dev)) →
        ∀ c ∈ colMemory dev b cmask ks m, P c.1) := by
  induction ks generalizing m with
  | nil => exact ⟨hw, by simp, by simp [colMemory], by simp [colMemory]⟩
  | cons k ks ih =>
    have hk : k ∉ ks := (List.nodup_cons.1 hn).1
    obtain ⟨h1, h2, h3, h4⟩ := ih
      (memWrite m (cellAddr k dev) (setBit b (cmask.getLsbD k) (memRead m (cellAddr k dev)))) (memWrite_wf hw)
      (List.nodup_cons.1 hn).2 (fun j hj => h8 j (List.mem_cons_of_mem _ hj))
    refine ⟨h1, ?_, ?_, ?_⟩
    · intro row hr
      rcases List.mem_cons.1 hr with rfl | hr
      · refine (h3 _ fun j hj => ?_).trans (by rw [memRead_memWrite hw, if_pos rfl])
        rw [Ne, cellAddr_inj (h8 row (by simp)) (h8 j (List.mem_cons_of_mem _ hj))]
        rintro ⟨rfl, _⟩; exact hk hj
      · refine (h2 row hr).trans ?_
        rw [memRead_memWrite hw, if_neg]
        rw [cellAddr_inj (h8 row (List.mem_cons_of_mem _ hr)) (h8 k (by simp))]
        exact fun e => hk (e.1 ▸ hr)
    · intro a ha
      refine (h3 a fun row hr => ha row (List.mem_cons_of_mem _ hr)).trans ?_
      rw [memRead_memWrite hw, if_neg (ha k (by simp))]
    · intro P hP hc
      exact h4 P (memWrite_keys hP (hc k (by simp))) fun row hr => hc row (List.mem_cons_of_mem _ hr)

/-- The bytes of row `row` with device `dev`'s bit updated. -/
def colRow (dev b : Nat) (cmask : Byte) (row : Nat) (s : State) : List Byte :=
  (List.range s.params.n).map fun d =>
    if d = dev then setBit b (cmask.getLsbD row) (readCell row d s) else readCell row d s

/-- Rows updated and pushed one after another (R99). -/
theorem forEach_setCol (dev b : Nat) (cmask : Byte) (ks : List Nat) {s : State} (hw : Memory.wf s.mem = true)
    (hn : ks.Nodup) (h8 : ∀ k ∈ ks, k < 8) (hq : Quiet s) (h : AnswersOk (ks.length * (2 * s.params.n)) s) :
    forEach ks (fun row s => pushRow row row (updateBit row dev b (cmask.getLsbD row) s)) s =
      .go { afterTransactions (ks.map fun row => paySeq (digitAddr row) (colRow dev b cmask row s)) s with
        mem := colMemory dev b cmask ks s.mem } := by
  induction ks generalizing s with
  | nil => simp [forEach, afterTransactions, colMemory]
  | cons k ks ih =>
    have hu : (updateBit k dev b (cmask.getLsbD k) s).params = s.params := rfl
    have hrow : readRow k (updateBit k dev b (cmask.getLsbD k) s) = colRow dev b cmask k s := readRow_updateBit hw
    have hlen : (paySeq (digitAddr k) (colRow dev b cmask k s)).length = 2 * s.params.n := by
      rw [paySeq_length]; simp [colRow]
    generalize hs1 : afterTransactions [paySeq (digitAddr k) (colRow dev b cmask k s)]
      (updateBit k dev b (cmask.getLsbD k) s) = s1
    have ht : s1.transport = s.transport.drop (2 * s.params.n) := by
      rw [← hs1]; simp [hlen, updateBit_spec]
    obtain ⟨h1, h2⟩ := answersOk_split (j := ks.length * (2 * s.params.n)) ht h (by rw [List.length_cons]; ring)
    have hp : s1.params = s.params := by rw [← hs1]; rfl
    have hm1 : s1.mem = memWrite s.mem (cellAddr k dev) (setBit b (cmask.getLsbD k) (readCell k dev s)) := by
      rw [← hs1]; rfl
    simp only [forEach]
    rw [pushRow_quiet (s := updateBit k dev b (cmask.getLsbD k) s) hq (by rw [hu]; exact h1), hrow, hs1]
    simp only [andThen]
    rw [ih (s := s1) (by rw [hm1]; exact memWrite_wf hw) (List.nodup_cons.1 hn).2
      (fun j hj => h8 j (List.mem_cons_of_mem _ hj)) (by rw [← hs1]; exact hq) (by rw [hp]; exact h2)]
    have hrows : ∀ j ∈ ks, colRow dev b cmask j s1 = colRow dev b cmask j s := by
      intro j hj
      unfold colRow
      rw [hp]
      refine List.map_congr_left fun d _ => ?_
      have hr : readCell j d s1 = readCell j d s := by
        unfold readCell
        rw [hm1, memRead_memWrite hw, if_neg]
        rw [cellAddr_inj (h8 j (List.mem_cons_of_mem _ hj)) (h8 k (by simp))]
        rintro ⟨rfl, _⟩; exact (List.nodup_cons.1 hn).1 hj
      rw [hr]
    have hmap : (ks.map fun row => paySeq (digitAddr row) (colRow dev b cmask row s1)) =
        ks.map fun row => paySeq (digitAddr row) (colRow dev b cmask row s) :=
      List.map_congr_left fun j hj => by rw [hrows j hj]
    have hmem : colMemory dev b cmask ks s1.mem = colMemory dev b cmask (k :: ks) s.mem := by
      rw [hm1]; rfl
    rw [hmap, hmem, ← hs1, afterTransactions_append]
    rfl

end Sys2Proof.Machine
end

