-- ==== Sys2Proof/Laws/Encoding.lean ====
section
/-! SUPPORT. The laws of the byte fields of a command record (spec/30_encoding.md R65). -/

namespace Sys2Proof

/-- A field has the length asked for. -/
theorem natBytes_length (c v : Nat) : (natBytes c v).length = c := by
  induction c generalizing v <;> simp [natBytes, *]

/-- A field's bytes stand for the number's low bytes. -/
theorem bytesNat_natBytes (c v : Nat) : bytesNat (natBytes c v) = v % 256 ^ c := by
  induction c generalizing v with
  | zero => simp [natBytes, bytesNat, Nat.mod_one]
  | succ c ih =>
    simp only [natBytes, bytesNat, ih, BitVec.toNat_ofNat]
    rw [show (2:Nat)^8 = 256 from rfl, pow_succ, Nat.mul_comm (256^c), Nat.mod_mul]

/-- The bytes of the number that bytes stand for are those bytes. -/
theorem natBytes_bytesNat (bs : List Byte) : natBytes bs.length (bytesNat bs) = bs := by
  induction bs with
  | nil => rfl
  | cons b bs ih =>
    simp only [List.length_cons, natBytes, bytesNat]
    have h := b.isLt
    have e : (b.toNat + 256 * bytesNat bs) / 256 = bytesNat bs := by omega
    rw [e, ih]
    congr 1
    apply BitVec.eq_of_toNat_eq
    simp; omega

/-- Bytes stand for a number below 256 to their count. -/
theorem bytesNat_lt (bs : List Byte) : bytesNat bs < 256 ^ bs.length := by
  induction bs with
  | nil => simp [bytesNat]
  | cons b bs ih =>
    simp only [bytesNat, List.length_cons, pow_succ]
    have h := b.isLt
    omega

/-- A field's bytes hold every number of its width (R65). -/
theorem pow_le_fieldBytes (w : Nat) : 2 ^ w ≤ 256 ^ fieldBytes w := by
  rw [show (256:Nat) = 2 ^ 8 from rfl, ← pow_mul]
  exact Nat.pow_le_pow_right (by decide) (by unfold fieldBytes; omega)

/-- A column number is its two bytes put together (R65). -/
theorem col_back (c : Half) : (c.extractLsb' 8 8 ++ c.extractLsb' 0 8 : BitVec 16) = c := by
  apply BitVec.eq_of_getLsbD_eq
  intro i hi
  simp only [BitVec.getLsbD_append, BitVec.getLsbD_extractLsb']
  split
  · next h => simp; intro; omega
  · next h => simp [show 8 + (i - 8) = i by omega]; omega

/-- The decoder on a byte string that has an opcode byte: R148's checks in order. -/
theorem decode_cons (p : Params) (b : Byte) (fields : List Byte) :
    decode p (b :: fields) =
      if b.toNat / 16 ≠ 0 then .error (.reservedBits (b :: fields))
      else if 9 ≤ b.toNat then .error (.reservedOp b)
      else if opFrontend b.toNat ≠ .none ∧ opFrontend b.toNat ≠ p.frontend then .error (.noFrontend b.toNat)
      else if (b :: fields).length ≠ commandLength p b.toNat then .error (.length (b :: fields).length)
      else match decodeFields p b.toNat fields with
        | some i => .ok i
        | none => .error (.reservedBits (b :: fields)) := rfl

end Sys2Proof
end

