-- ==== Sys2Proof/Laws/PerInstr.lean ====
section
/-! SUPPORT. Statements made per instruction. -/

namespace Sys2Proof.Laws

/-- The encoding of a well-formed instruction has the length of its format, told from its opcode, `N` and `W_T` alone for a
command (R65, R76), and two bytes for a wire frame (R70). -/
def EncodeLength.Statement (i : Instr) : Prop :=
  ∀ p : Params, i.wellFormed p = true →
    (encode p i).length = match i.op with
      | some op => commandLength p op
      | none => 2

theorem EncodeLength.wrreg (reg : Byte) (val : Byte) (tgt : Nat) : EncodeLength.Statement (.wrreg reg val tgt) := by
  intro p _
  simp [encode, Instr.op, commandLength, natBytes_length]
  omega

theorem EncodeLength.wrall (reg : Byte) (payload : List Byte) : EncodeLength.Statement (.wrall reg payload) := by
  intro p h
  simp [Instr.wellFormed, Instr.fieldsFit] at h
  simp [encode, Instr.op, commandLength, h.2]
  omega

theorem EncodeLength.mxclr : EncodeLength.Statement (.mxclr) := by
  intro p _; rfl

theorem EncodeLength.mxrow (row : Byte) (rmask : Nat) : EncodeLength.Statement (.mxrow row rmask) := by
  intro p _
  simp [encode, Instr.op, commandLength, natBytes_length]
  omega

theorem EncodeLength.mxcol (col : Half) (cmask : Byte) : EncodeLength.Statement (.mxcol col cmask) := by
  intro p _; rfl

theorem EncodeLength.mxled (row : Byte) (col : Half) (led : Bool) : EncodeLength.Statement (.mxled row col led) := by
  intro p _; rfl

theorem EncodeLength.ssinit : EncodeLength.Statement (.ssinit) := by
  intro p _; rfl

theorem EncodeLength.ssclr : EncodeLength.Statement (.ssclr) := by
  intro p _; rfl

theorem EncodeLength.sshex (digit : Byte) (hexval : Byte) (tgt : Nat) : EncodeLength.Statement (.sshex digit hexval tgt) := by
  intro p _
  simp [encode, Instr.op, commandLength, natBytes_length]
  omega

theorem EncodeLength.noop : EncodeLength.Statement (.noop) := by
  intro p _; rfl

theorem EncodeLength.digit0 (d : Byte) : EncodeLength.Statement (.digit0 d) := by
  intro p _; rfl

theorem EncodeLength.digit1 (d : Byte) : EncodeLength.Statement (.digit1 d) := by
  intro p _; rfl

theorem EncodeLength.digit2 (d : Byte) : EncodeLength.Statement (.digit2 d) := by
  intro p _; rfl

theorem EncodeLength.digit3 (d : Byte) : EncodeLength.Statement (.digit3 d) := by
  intro p _; rfl

theorem EncodeLength.digit4 (d : Byte) : EncodeLength.Statement (.digit4 d) := by
  intro p _; rfl

theorem EncodeLength.digit5 (d : Byte) : EncodeLength.Statement (.digit5 d) := by
  intro p _; rfl

theorem EncodeLength.digit6 (d : Byte) : EncodeLength.Statement (.digit6 d) := by
  intro p _; rfl

theorem EncodeLength.digit7 (d : Byte) : EncodeLength.Statement (.digit7 d) := by
  intro p _; rfl

theorem EncodeLength.decodeMode (d : Byte) : EncodeLength.Statement (.decodeMode d) := by
  intro p _; rfl

theorem EncodeLength.intensity (d : Byte) : EncodeLength.Statement (.intensity d) := by
  intro p _; rfl

theorem EncodeLength.scanlimit (d : Byte) : EncodeLength.Statement (.scanlimit d) := by
  intro p _; rfl

theorem EncodeLength.shutdown (d : Byte) : EncodeLength.Statement (.shutdown d) := by
  intro p _; rfl

theorem EncodeLength.disptest (d : Byte) : EncodeLength.Statement (.disptest d) := by
  intro p _; rfl

end Sys2Proof.Laws
end

