-- ==== Sys2Proof/Laws/Runs.lean ====
section
/-! SUPPORT. What a transaction, a loop of transactions, a command and a step can do, for claims over every command; and how
the observations of the history read a transaction. Apply a loop lemma with its body and its list named: unfolding a loop
over eight rows to compare two runs is slow. -/

namespace Sys2Proof.Machine

/-! ### Transactions and loops -/

/-- A property that every transaction and every write of a cell keeps holds wherever a run gets to. -/
abbrev RunKeeps (P Q : State → Prop) (r : Run) : Prop := (∀ v, r = .go v → P v) ∧ (∀ v, r = .stop v → Q v)

/-- What a transaction keeps: the three ways it ends (R85). -/
theorem transact_keeps {P Q : State → Prop} (k : Nat) (bytes : List Byte) (s : State)
    (h1 : AnswersOk bytes.length s → P (afterTransact bytes s))
    (h2 : ∀ j < bytes.length, AnswersOk j s → s.transport[j]? = some .fail →
      Q (raiseTransport k j (duringTransact bytes (j + 1) s)))
    (h3 : ∀ j < bytes.length, AnswersOk j s → s.transport[j]? = some .stall →
      Q (stallTransfer (duringTransact bytes (j + 1) s))) :
    RunKeeps P Q (transact k bytes s) := by
  rcases transact_cases k bytes s with ⟨a, h⟩ | ⟨j, hj, a, b, h⟩ | ⟨j, hj, a, b, h⟩ <;> rw [h] <;>
    constructor <;> intro v hv <;> cases hv
  · exact h1 a
  · exact h2 j hj a b
  · exact h3 j hj a b

/-- What a loop keeps if every round keeps it. -/
theorem loop_keeps {P Q : State → Prop} {f : Nat → State → Run} (hf : ∀ k u, P u → RunKeeps P Q (f k u))
    (ks : List Nat) {s : State} (hs : P s) : RunKeeps P Q (forEach ks f s) :=
  forEach_keeps ks (fun k _ u v hu hv => (hf k u hu).1 v hv) (fun k _ u v hu hv => (hf k u hu).2 v hv) hs

/-- What writing a row keeps if every write of a cell keeps it. -/
theorem writeRow_keeps {P : State → Prop} (row : Nat) (v : Nat → Byte) (n : Nat)
    (hmem : ∀ u d b, d < n → P u → P (writeCell row d b u)) {s : State} (hn : s.params.n = n) (h : P s) :
    P (writeRow row v s) ∧ (writeRow row v s).params = s.params := by
  unfold writeRow
  rw [hn]
  have : ∀ k ≤ n, P ((List.range k).foldl (fun s d => writeCell row d (v d) s) s) ∧
      ((List.range k).foldl (fun s d => writeCell row d (v d) s) s).params = s.params := by
    intro k hk
    induction k with
    | zero => exact ⟨h, rfl⟩
    | succ k ih =>
      rw [List.range_succ, List.foldl_append]
      exact ⟨hmem _ _ _ (by omega) (ih (by omega)).1, (ih (by omega)).2⟩
  exact this n le_rfl

/-- What every command can do (R87, R88, R97 to R100, R109 to R111, R142, R147): it is refused, or returns at once with no
effect, or runs transactions of whole chain length and, a matrix command, writes of cells that exist, to the end or to the
transaction that stops it. -/
theorem command_induction {P Q : State → Prop} {i : Instr} {s t : State} (hi : i.isFrame = false)
    (h : exec i s = .next t) (hstart : P (start s)) (hp : ∀ u, P u → u.params = s.params)
    (hmem : isMatrixCommand i = true → s.params.frontend = .matrix → ∀ u row d b, row < 8 → d < s.params.n ∨ d = 0 → P u →
      P (writeCell row d b u))
    (htx : ∀ u k bytes, bytes.length = 2 * s.params.n → P u → RunKeeps P Q (transact k bytes u)) :
    s.fault = none ∧ ((∃ r, t = refuse r s) ∨ (s.activity = .idle ∧
      ((t = complete .ok s ∨ t = complete .fail s) ∨ (∃ u, P u ∧ t = complete .ok u) ∨ Q t))) := by
  have fin : ∀ {r : Run}, RunKeeps P Q r → finish r = .next t → (∃ u, P u ∧ t = complete .ok u) ∨ Q t := by
    intro r hr h
    rcases finish_next h with ⟨u, hu, rfl⟩ | hu
    · exact .inl ⟨u, hr.1 u hu, rfl⟩
    · exact .inr (hr.2 t hu)
  have push : ∀ u k row, P u → RunKeeps P Q (pushRow k row u) := fun u k row hu =>
    htx u k _ (by rw [paySeq_length, readRow_length, hp u hu]) hu
  have key : ∀ {need : Frontend} {op : Nat} {body : State → Result}, accept need op body s = .next t →
      (s.activity = .idle → (need = .none ∨ need = s.params.frontend) → body s = .next t →
        (∃ r, t = refuse r s) ∨ (t = complete .ok s ∨ t = complete .fail s) ∨ (∃ u, P u ∧ t = complete .ok u) ∨ Q t) →
      s.fault = none ∧ ((∃ r, t = refuse r s) ∨ (s.activity = .idle ∧
      ((t = complete .ok s ∨ t = complete .fail s) ∨ (∃ u, P u ∧ t = complete .ok u) ∨ Q t))) := by
    intro need op body h hb
    obtain ⟨hf, ⟨_, ht⟩ | ⟨_, _, _, ht⟩ | ⟨ha, hn, h⟩⟩ := accept_next h
    · exact ⟨hf, .inl ⟨_, ht⟩⟩
    · exact ⟨hf, .inl ⟨_, ht⟩⟩
    · rcases hb ha hn h with hr | hr
      · exact ⟨hf, .inl hr⟩
      · exact ⟨hf, .inr ⟨ha, hr⟩⟩
  cases i <;> simp [Instr.isFrame] at hi
  case wrreg reg val tgt =>
    simp only [exec, execWrreg] at h
    refine key h fun _ _ h => .inr (.inr (fin (htx _ _ _ (uniSeq_length _ _ _ _) hstart) h))
  case wrall reg payload =>
    simp only [exec, execWrall] at h
    refine key h fun _ _ h => ?_
    split_ifs at h with hl
    · exact .inr (.inr (fin (htx _ _ _ (by rw [paySeq_length, hl]) hstart) h))
    · cases h; exact .inl ⟨_, rfl⟩
  case mxclr =>
    simp only [exec, execMxclr] at h
    refine key h fun _ hn h => .inr (.inr (fin ?_ h))
    have hm := hmem rfl (by rcases hn with hn | hn <;> simp_all)
    have : ∀ k ≤ 8, P ((List.range k).foldl (fun s row => writeRow row (fun _ => 0x00) s) (start s)) := by
      intro k hk
      induction k with
      | zero => exact hstart
      | succ k ih =>
        rw [List.range_succ, List.foldl_append]
        have hk' := ih (by omega)
        exact (writeRow_keeps k _ s.params.n (fun u d b hd hu => hm u k d b (by omega) (.inl hd) hu)
          (by rw [hp _ hk']) hk').1
    exact forEach_keeps _ (fun k _ u v hu hv => (push u k k hu).1 v hv) (fun k _ u v hu hv => (push u k k hu).2 v hv)
      (this 8 le_rfl)
  case mxrow row rmask =>
    simp only [exec, execMxrow] at h
    refine key h fun ha hn h => ?_
    have hm := hmem rfl (by rcases hn with hn | hn <;> simp_all)
    unfold ifInRange at h
    split_ifs at h with hr
    · have hr' : row.toNat ≤ 7 := by simpa using hr
      refine .inr (.inr (fin (push _ _ _ ?_) h))
      exact (writeRow_keeps (s := start s) row.toNat (maskByte rmask) s.params.n
        (fun u d b hd hu => hm u _ d b (by omega) (.inl hd) hu) rfl hstart).1
    · cases h; exact .inr (.inl (.inr rfl))
  case mxcol col cmask =>
    simp only [exec, execMxcol] at h
    refine key h fun ha hn h => ?_
    have hm := hmem rfl (by rcases hn with hn | hn <;> simp_all)
    unfold ifInRange at h
    split_ifs at h with hr
    · have hr' : col.toNat < 8 * s.params.n := by simpa using hr
      refine .inr (.inr (fin ?_ h))
      have hu' : ∀ k ∈ List.range 8, ∀ u, P u → P (updateBit k (col.toNat / 8) (col.toNat % 8) (cmask.getLsbD k) u) := by
        intro k hk u hu
        exact hm u k _ _ (List.mem_range.1 hk) (by omega) hu
      exact forEach_keeps _ (fun k hk u v hu hv => (push _ k k (hu' k hk u hu)).1 v hv)
        (fun k hk u v hu hv => (push _ k k (hu' k hk u hu)).2 v hv) hstart
    · cases h; exact .inr (.inl (.inr rfl))
  case mxled row col led =>
    simp only [exec, execMxled] at h
    refine key h fun ha hn h => ?_
    have hm := hmem rfl (by rcases hn with hn | hn <;> simp_all)
    unfold ifInRange at h
    split_ifs at h with hr
    · have hr' : row.toNat ≤ 7 ∧ col.toNat ≤ 7 := by simpa using hr
      refine .inr (.inr (fin (push _ _ _ ?_) h))
      exact hm _ _ _ _ (by omega) (by omega) hstart
    · cases h; exact .inr (.inl (.inr rfl))
  case ssinit =>
    simp only [exec, execSsinit] at h
    refine key h fun _ _ h => .inr (.inr (fin (htx _ _ _ (uniSeq_length _ _ _ _) hstart) h))
  case ssclr =>
    simp only [exec, execSsclr] at h
    refine key h fun _ _ h => .inr (.inr (fin ?_ h))
    have hu' : ∀ u, P u → ∀ k, RunKeeps P Q (transact k (uniSeq u.params.n (digitAddr k) 0x00 u.params.tAll) u) :=
      fun u hu k => htx u k _ (by rw [uniSeq_length, hp u hu]) hu
    exact forEach_keeps _ (fun k _ u v hu hv => (hu' u hu k).1 v hv) (fun k _ u v hu hv => (hu' u hu k).2 v hv) hstart
  case sshex g hv tgt =>
    simp only [exec, execSshex] at h
    refine key h fun _ _ h => ?_
    split_ifs at h
    · cases h; exact .inr (.inl (.inl rfl))
    · split at h
      · exact .inr (.inr (fin (htx _ _ _ (uniSeq_length _ _ _ _) hstart) h))
      · cases h

/-! ### The edge and the step -/

/-- The decoded frame, or the undocumented one, is applied at the edge (R118, R133). -/
theorem exec_decodeFrame (a d : Byte) (s : State) :
    (match decodeFrame a d with | some i => exec i s | none => execUndocumented s) =
      .next (atEdge (applyFrame a d) s) := by
  unfold decodeFrame
  have hk : ∀ f g : Device → Device, f = g → (Host.Outcome.next (atEdge f s) : Result) = .next (atEdge g s) := by
    intro f g h; rw [h]
  split
  · next i hi =>
    split at hi
    · next h0 =>
      split_ifs at hi with hd
      cases hi
      exact hk _ _ (by funext dev; simp [applyFrame, h0, hd])
    all_goals first
      | (next h0 => cases hi; exact hk _ _ (by funext dev; simp [applyFrame, h0]))
      | cases hi
  · next hi =>
    refine hk _ _ ?_
    funext dev
    unfold applyFrame
    split at hi
    · next h0 =>
      split_ifs at hi with hd
      first
        | exact (if_neg hd).symm
        | (rw [h0]; exact (if_neg hd).symm)
    all_goals first
      | rfl
      | (cases hi; done)
      | (split <;> first | rfl | (exfalso; simp_all))

/-- The step of a device at an edge changes at most that device. -/
theorem stepFrame_next (k : Nat) (s : State) : ∃ f, stepFrame k s = .next (atEdge f s) := by
  unfold stepFrame
  split
  · next f _ => exact ⟨_, exec_decodeFrame _ _ s⟩
  · exact ⟨_, rfl⟩

/-- What a step can do: a device latches; nothing happens; a command runs; or a byte string is refused (R12, R148). -/
theorem step_next {s t : State} (h : step s = .next t) :
    (∃ k ks f, s.latching = k :: ks ∧ t = atEdge f s) ∨
    (s.latching = [] ∧ s.fault = none ∧ (t = s ∨ (s.activity = .idle ∧ ∃ bytes rest, s.host = bytes :: rest ∧
      ((∃ i, decode s.params bytes = .ok i ∧ exec i { s with host := rest } = .next t) ∨
       (∃ r, decode s.params bytes = .error r ∧ t = refuse r { s with host := rest }))))) := by
  have hc : s.latching = [] ∨ ∃ k ks, s.latching = k :: ks := by cases s.latching <;> simp
  rcases hc with hl | ⟨k, ks, hl⟩
  · right
    have hs : step s = if s.fault.isSome then .fault .afterFault
        else if s.activity ≠ .idle then .next s else stepCommand s := by
      unfold step; rw [hl]
    rw [hs] at h
    split_ifs at h with h1 h2
    · exact ⟨hl, by simpa using h1, .inl (by cases h; rfl)⟩
    · refine ⟨hl, by simpa using h1, ?_⟩
      unfold stepCommand at h
      split at h
      · exact .inl (by cases h; rfl)
      · next bytes rest hh =>
        refine .inr ⟨by simpa using h2, bytes, rest, hh, ?_⟩
        split at h
        · next i hi => exact .inl ⟨i, hi, h⟩
        · next r hr => exact .inr ⟨r, hr, by cases h; rfl⟩
  · left
    have hs : step s = stepFrame k s := by unfold step; rw [hl]
    obtain ⟨f, hf⟩ := stepFrame_next k s
    rw [hs, hf] at h
    cases h
    exact ⟨k, ks, f, hl, rfl⟩

/-! ### How a command can stop -/

theorem finish_ne_fault (r : Run) (f : Fault) : finish r ≠ .fault f := by cases r <;> simp [finish]

theorem ifInRange_ne_fault (inRange : Bool) (body : State → Run) (s : State) (f : Fault) :
    ifInRange inRange body s ≠ .fault f := by
  unfold ifInRange; split
  · exact finish_ne_fault _ _
  · simp

/-- A command stops before its effect only where a fault is recorded (R150). -/
theorem accept_fault {need : Frontend} {op : Nat} {body : State → Result} {s : State} {f : Fault}
    (h : accept need op body s = .fault f) : f = .afterFault ∨ body s = .fault f := by
  unfold accept at h
  split_ifs at h
  · cases h; exact .inl rfl
  · exact .inr h

/-- The only faults an instruction ends in: the stuck state of R150, and SSHEX's missing table entry, which no instance has
(R159). -/
theorem exec_fault {i : Instr} {s : State} {f : Fault} (h : exec i s = .fault f) :
    f = .afterFault ∨ f = .noHexEntry := by
  cases i <;> simp only [exec, execWrreg, execWrall, execMxclr, execMxrow, execMxcol, execMxled, execSsinit, execSsclr,
    execSshex] at h
  case sshex digit hexval tgt =>
    refine (accept_fault h).imp_right fun hb => ?_
    split_ifs at hb
    split at hb
    · exact absurd hb (finish_ne_fault _ _)
    · cases hb; rfl
  case wrall reg payload =>
    refine .inl ((accept_fault h).resolve_right fun hb => ?_)
    split_ifs at hb
    exact finish_ne_fault _ _ hb
  case wrreg | mxclr | ssinit | ssclr => exact .inl ((accept_fault h).resolve_right (finish_ne_fault _ _))
  case mxrow | mxcol | mxled => exact .inl ((accept_fault h).resolve_right (ifInRange_ne_fault _ _ _ _))
  all_goals cases h

/-- The same of a step: no step reads a device register that holds no value (R33, R35). -/
theorem step_fault {s : State} {f : Fault} (h : step s = .fault f) : f = .afterFault ∨ f = .noHexEntry := by
  unfold step at h
  split at h
  · next k _ _ =>
    obtain ⟨g, hg⟩ := stepFrame_next k s
    rw [hg] at h
    cases h
  · split_ifs at h
    · cases h; exact .inl rfl
    · unfold stepCommand at h
      split at h
      · cases h
      · split at h
        · exact exec_fault h
        · cases h

/-! ### Reading the history -/

/-- Reading a history in two parts. -/
theorem tx_append (n : Nat) (sc : Scan) (es es' : List Event) :
    txFrom n sc (es ++ es') = txFrom n sc es ++ txFrom n (scanEnd sc es) es' := by
  induction es generalizing sc with
  | nil => simp [txFrom, scanEnd]
  | cons e es ih =>
    have e1 : scanEnd sc (e :: es) = scanEnd (scanNext sc e) es := rfl
    rw [e1]
    by_cases h : (∃ b, sc = .high b) ∧ e = .rel
    · obtain ⟨⟨b, rfl⟩, rfl⟩ := h
      simp only [List.cons_append, txFrom, ih, scanNext]
      split <;> simp
    · have : ∀ l, txFrom n sc (e :: l) = txFrom n (scanNext sc e) l := by
        intro l
        cases sc <;> cases e <;> first | rfl | (exfalso; exact h ⟨⟨_, rfl⟩, rfl⟩)
      rw [List.cons_append, this, this, ih]

/-- Bytes gather while the line is low. -/
theorem tx_bytes (n : Nat) (acc bs : List Byte) (es : List Event) :
    txFrom n (.low acc) (bs.map .byte ++ es) = txFrom n (.low (acc ++ bs)) es := by
  induction bs generalizing acc with
  | nil => simp
  | cons b bs ih => simp [txFrom, scanNext, ih]

/-- A whole transaction is read back, wherever it stands (R28). -/
theorem tx_transaction (n : Nat) (sc : Scan) (bs : List Byte) (h : bs.length = 2 * n) :
    txFrom n sc (transactionEvents bs) = [bs] := by
  unfold transactionEvents
  have : txFrom n sc (.acq :: (.sel .low :: (bs.map .byte ++ [.sel .high, .rel]))) = [bs] := by
    have e : ∀ l, txFrom n sc (.acq :: l) = txFrom n .acquired l := by intro l; cases sc <;> rfl
    rw [e]
    simp only [txFrom, scanNext]
    rw [tx_bytes]
    simp [txFrom, scanNext, h]
  simpa using this

/-- A failed transaction closes none (R28). -/
theorem tx_open_none (n : Nat) (sc : Scan) (bs : List Byte) :
    txFrom n sc ([.acq, .sel .low] ++ bs.map .byte ++ [.xfail, .rel]) = [] := by
  have e : ∀ l, txFrom n sc (.acq :: l) = txFrom n .acquired l := by intro l; cases sc <;> rfl
  have : txFrom n sc (.acq :: (.sel .low :: (bs.map .byte ++ [.xfail, .rel]))) = [] := by
    rw [e]; simp only [txFrom, scanNext]; rw [tx_bytes]; simp [txFrom, scanNext]
  simpa using this

/-- The brackets of a history in two parts. -/
theorem orderly_append (n : Nat) (sc : Scan) (es es' : List Event) :
    orderly n sc (es ++ es') = (orderly n sc es && orderly n (scanEnd sc es) es') := by
  induction es generalizing sc with
  | nil => simp [orderly, scanEnd]
  | cons e es ih =>
    have e1 : scanEnd sc (e :: es) = scanEnd (scanNext sc e) es := rfl
    simp [orderly, e1, ih, Bool.and_assoc]

theorem scanEnd_append (sc : Scan) (es es' : List Event) : scanEnd sc (es ++ es') = scanEnd (scanEnd sc es) es' := by
  simp [scanEnd]

/-! ### What a device holds after a transaction -/

/-- A device whose slot carries a documented register's frame. -/
theorem latch_reg {bytes : List Byte} {devs : List Device} {k : Nat} {r r' : DevReg} {v : Byte} {dev : Device}
    (hs : slotOf bytes k = some (frameOf (regAddr r) v)) (hd : devs[k]? = some dev) :
    ((latchBytes bytes devs)[k]?).bind (regOf r') = if r' = r then some v else regOf r' dev := by
  rw [latchBytes_getElem?, hd, hs]
  simp only [Option.map_some, Option.bind_some, Option.getD_some, latchDevice_slot, applyFrame_regAddr, regOf_writeReg]
  split <;> simp [regOf_sr]

/-- A device whose slot carries the no-op frame (R119). -/
theorem latch_noop {bytes : List Byte} {devs : List Device} {k : Nat} {r' : DevReg}
    (hs : k < devs.length → slotOf bytes k = some 0x0000) :
    ((latchBytes bytes devs)[k]?).bind (regOf r') = (devs[k]?).bind (regOf r') := by
  rw [latchBytes_getElem?]
  cases hd : devs[k]? with
  | none => rfl
  | some dev =>
    have hk : k < devs.length := (List.getElem?_eq_some_iff.1 hd).1
    have e : (0x0000 : Half) = frameOf 0 0 := rfl
    rw [hs hk, e]
    simp only [Option.map_some, Option.bind_some, Option.getD_some, latchDevice_slot, applyFrame_noop, regOf_sr]

end Sys2Proof.Machine
end

