-- ==== Sys2Proof/Tests/Slice0.lean ====
section
/-! SUPPORT. Tests of the model against the vectors of spec/95_test_vectors.md and the encodings of spec/30_encoding.md, each
about one step on a small state; the smoke tests of WellFormed; and a witness for every statement that has hypotheses. -/

namespace Sys2Proof.Tests

open Sys2Proof Sys2Proof.Machine

/-! ### Small states -/

/-- The parameters of an instance with this chain length and front-end. -/
def par (n : Nat) (fe : Frontend) : Params := { resetParams with n := n, frontend := fe }

/-- A fresh instance whose transport always answers ok; a SEVENSEG one has not run its SSINIT. -/
def inst (n : Nat) (fe : Frontend) : State := State.initial (par n fe) []

/-- The state after the host's one command, or the state itself where the step gives no next state. -/
def after (bytes : List Byte) (s : State) : State :=
  match step { s with host := [bytes] } with
  | .next t => t
  | .fault _ => s
  | .refused _ => s

/-- The state an instruction leaves, or the state itself where it gives no next state. -/
def did (i : Instr) (s : State) : State :=
  match exec i s with
  | .next t => t
  | .fault _ => s
  | .refused _ => s

/-- The register of a device. -/
def reg (k : Nat) (r : DevReg) (s : State) : Option Byte := (s.devices[k]?).bind (regOf r)

/-- The framebuffer that holds `v` in every cell of a chain of 2. -/
def full (v : Byte) (s : State) : State := { s with mem := (List.range 16).map fun a => (a, v) }

/-- Device 0 is at an edge with this frame in its shift register. -/
def edge (f : Half) (n : Nat) : State := placeFrame f (inst n .none)

/-! ### WellFormed: a term for each check, which the check refuses -/

theorem test_wellformed_refuses_a_target_too_wide : (Instr.wrreg 0x0A 0x05 256).wellFormed (par 2 .none) = false := by decide
theorem test_wellformed_refuses_a_short_payload : (Instr.wrall 0x0A [0x01]).wellFormed (par 2 .none) = false := by decide
theorem test_wellformed_refuses_a_mask_too_wide : (Instr.mxrow 0 0x10000).wellFormed (par 2 .matrix) = false := by decide
theorem test_wellformed_refuses_a_hex_target_too_wide :
    (Instr.sshex 0 0 256).wellFormed (par 2 .sevenseg) = false := by decide
theorem test_wellformed_refuses_matrix_without_it : Instr.mxclr.wellFormed (par 2 .none) = false := by decide
theorem test_wellformed_refuses_sevenseg_without_it : Instr.ssclr.wellFormed (par 2 .matrix) = false := by decide
theorem test_wellformed_accepts : (Instr.wrreg 0x0A 0x05 255).wellFormed (par 2 .none) = true ∧
    (Instr.mxrow 9 0xFFFF).wellFormed (par 2 .matrix) = true ∧ (Instr.digit0 0xFF).wellFormed (par 2 .none) = true := by decide
theorem test_legal_parameters : ¬ (par 0 .none).Legal ∧ ¬ (par 256 .none).Legal ∧ (par 255 .none).Legal ∧
    ¬ ({ par 2 .none with wT := 0 } : Params).Legal ∧ ¬ ({ par 2 .none with hexTable := [] } : Params).Legal := by decide

/-! ### Decoding: words written out from R65, R66, R70 and R71 (vectors of sections 2.4 to 2.8) -/

theorem test_decode_wrreg : decode (par 3 .none) [0x00, 0x0A, 0x05, 0x01] = .ok (.wrreg 0x0A 0x05 1) := by decide
theorem test_decode_wrreg_all : decode (par 3 .none) [0x00, 0x0A, 0x05, 0xFF] = .ok (.wrreg 0x0A 0x05 255) := by decide
theorem test_decode_wrreg_wide_target :
    decode { par 2 .none with wT := 9 } [0x00, 0x0A, 0x05, 0x34, 0x01] = .ok (.wrreg 0x0A 0x05 0x134) ∧
    decode { par 2 .none with wT := 9 } [0x00, 0x0A, 0x05, 0x34, 0x02] =
      .error (.reservedBits [0x00, 0x0A, 0x05, 0x34, 0x02]) := by decide
theorem test_decode_wrall :
    decode (par 3 .none) [0x01, 0x03, 0x00, 0xFF, 0x00] = .ok (.wrall 0x03 [0x00, 0xFF, 0x00]) := by decide
theorem test_decode_mxclr : decode (par 1 .matrix) [0x02] = .ok .mxclr := by decide
theorem test_decode_mxrow : decode (par 2 .matrix) [0x03, 0x00, 0x34, 0x12] = .ok (.mxrow 0 0x1234) := by decide
theorem test_decode_mxcol : decode (par 2 .matrix) [0x04, 0x09, 0x00, 0x81] = .ok (.mxcol 9 0x81) := by decide
theorem test_decode_mxcol_high_byte : decode (par 2 .matrix) [0x04, 0x34, 0x12, 0x00] = .ok (.mxcol 0x1234 0) := by decide
theorem test_decode_mxled : decode (par 2 .matrix) [0x05, 0x03, 0x05, 0x00, 0x01] = .ok (.mxled 3 5 true) ∧
    decode (par 2 .matrix) [0x05, 0x03, 0x05, 0x00, 0x00] = .ok (.mxled 3 5 false) := by decide
theorem test_decode_ssinit : decode (par 2 .sevenseg) [0x06] = .ok .ssinit := by decide
theorem test_decode_ssclr : decode (par 2 .sevenseg) [0x07] = .ok .ssclr := by decide
theorem test_decode_sshex : decode (par 2 .sevenseg) [0x08, 0x00, 0x1A, 0x01] = .ok (.sshex 0 0x1A 1) := by decide
theorem test_decode_noop : decodeFrame 0x00 0x00 = some .noop := by decide
theorem test_decode_digit0 : decodeFrame 0x01 0x81 = some (.digit0 0x81) := by decide
theorem test_decode_digit1 : decodeFrame 0x02 0xFF = some (.digit1 0xFF) := by decide
theorem test_decode_digit2 : decodeFrame 0x03 0xFF = some (.digit2 0xFF) := by decide
theorem test_decode_digit3 : decodeFrame 0x04 0x20 = some (.digit3 0x20) := by decide
theorem test_decode_digit4 : decodeFrame 0x05 0x00 = some (.digit4 0x00) := by decide
theorem test_decode_digit5 : decodeFrame 0x06 0x3C = some (.digit5 0x3C) := by decide
theorem test_decode_digit6 : decodeFrame 0x07 0x01 = some (.digit6 0x01) := by decide
theorem test_decode_digit7 : decodeFrame 0x08 0x02 = some (.digit7 0x02) := by decide
theorem test_decode_decode_mode : decodeFrame 0x09 0xFF = some (.decodeMode 0xFF) := by decide
theorem test_decode_intensity : decodeFrame 0x0A 0x17 = some (.intensity 0x17) := by decide
theorem test_decode_scanlimit : decodeFrame 0x0B 0x07 = some (.scanlimit 0x07) := by decide
theorem test_decode_shutdown : decodeFrame 0x0C 0x01 = some (.shutdown 0x01) := by decide
theorem test_decode_disptest : decodeFrame 0x0F 0x00 = some (.disptest 0x00) := by decide
theorem test_decode_undocumented : decodeFrame 0x00 0x01 = none ∧ decodeFrame 0x0D 0x55 = none ∧
    decodeFrame 0x0E 0x00 = none ∧ decodeFrame 0x10 0x00 = none ∧ decodeFrame 0xFF 0xFF = none := by decide

theorem test_decode_refusals_of_the_opcode :
    decode (par 2 .none) [0x09] = .error (.reservedOp 0x09) ∧
    decode (par 2 .none) [0x0F, 0x00, 0x00, 0x00] = .error (.reservedOp 0x0F) ∧
    decode (par 2 .none) [0x10, 0x0A, 0x05, 0x00] = .error (.reservedBits [0x10, 0x0A, 0x05, 0x00]) ∧
    decode (par 2 .none) [0x90] = .error (.reservedBits [0x90]) := by decide
theorem test_decode_refusals_of_the_front_end :
    decode (par 2 .none) [0x02] = .error (.noFrontend 2) ∧
    decode (par 2 .matrix) [0x08, 0x00, 0x01, 0x00] = .error (.noFrontend 8) ∧
    decode (par 2 .sevenseg) [0x05, 0x00, 0x00, 0x00, 0x01] = .error (.noFrontend 5) := by decide
theorem test_decode_refusals_of_the_length :
    decode (par 2 .none) [0x00, 0x0A, 0x05] = .error (.length 3) ∧
    decode (par 2 .none) [0x00, 0x0A, 0x05, 0x00, 0x00] = .error (.length 5) ∧
    decode (par 2 .none) [0x01, 0x01, 0x11] = .error (.length 3) ∧
    decode (par 3 .matrix) [0x03, 0x00, 0xFF, 0xFF] = .error (.length 4) := by decide
theorem test_decode_refusals_of_the_fields :
    decode (par 2 .matrix) [0x05, 0x00, 0x00, 0x00, 0x02] = .error (.reservedBits [0x05, 0x00, 0x00, 0x00, 0x02]) ∧
    decode (par 2 .matrix) [0x05, 0x09, 0x00, 0x00, 0x02] = .error (.reservedBits [0x05, 0x09, 0x00, 0x00, 0x02]) := by decide

/-- Each constructor's bytes by the encoder, the words of the vectors again. -/
theorem test_encode :
    encode (par 3 .none) (.wrreg 0x0A 0x05 1) = [0x00, 0x0A, 0x05, 0x01] ∧
    encode (par 2 .matrix) (.mxrow 0 0x1234) = [0x03, 0x00, 0x34, 0x12] ∧
    encode (par 2 .matrix) (.mxcol 0x1234 0x81) = [0x04, 0x34, 0x12, 0x81] ∧
    encode (par 2 .matrix) (.mxled 3 5 true) = [0x05, 0x03, 0x05, 0x00, 0x01] ∧
    encode (par 2 .none) (.disptest 0x01) = [0x0F, 0x01] := by decide

/-- The host's two functions on table words: WRREG and MXCLR as commands, INTENSITY as the frame `0A17`. -/
theorem test_table_words :
    decodeTableWord 8 0x00 = some (.wrreg 0 0 0) ∧ decodeTableWord 8 0x02 = some .mxclr ∧
    decodeTableWord 8 0x08 = some (.sshex 0 0 0) ∧ decodeTableWord 16 0x0A17 = some (.intensity 0x17) ∧
    decodeTableWord 16 0x0000 = some .noop ∧ decodeTableWord 16 0x0D00 = none := by decide
theorem test_fetch_table_words :
    (step (State.reset.withFetchWord 8 0x06)) =
      exec .ssinit { State.reset.withFetchWord 8 0x06 with host := [] } ∧
    (step (State.reset.withFetchWord 16 0x0A17)) = exec (.intensity 0x17) (State.reset.withFetchWord 16 0x0A17) :=
  ⟨by rfl, by rfl⟩

/-! ### Core commands (vectors of sections 2.1, 2.2 and 2.4) -/

theorem test_resolve : resolve 1 0 = .all ∧ resolve 1 5 = .all ∧ resolve 2 0 = .one 0 ∧ resolve 2 1 = .one 1 ∧
    resolve 2 2 = .all ∧ resolve 3 0xFE = .all ∧ resolve 255 254 = .one 254 ∧ resolve 255 255 = .all := by decide
theorem test_uniSeq : uniSeq 3 0x01 0xAA 1 = [0x00, 0x00, 0x01, 0xAA, 0x00, 0x00] ∧
    uniSeq 3 0x01 0xAA 3 = [0x01, 0xAA, 0x01, 0xAA, 0x01, 0xAA] ∧ uniSeq 1 0x01 0xAA 0 = [0x01, 0xAA] ∧
    uniSeq 2 0x0D 0x55 0 = [0x0D, 0x55, 0x00, 0x00] := by decide
theorem test_paySeq : paySeq 0x08 [0x11, 0x22, 0x33, 0x44] = [0x08, 0x11, 0x08, 0x22, 0x08, 0x33, 0x08, 0x44] := by decide

/-- `WRREG 0x0A, 0x05, 1` on a chain of 3: device 1 only. -/
theorem test_wrreg : transactions (after [0x00, 0x0A, 0x05, 0x01] (inst 3 .none)) = [[0x00, 0x00, 0x0A, 0x05, 0x00, 0x00]] ∧
    (after [0x00, 0x0A, 0x05, 0x01] (inst 3 .none)).returned = [(0, .ok)] ∧
    reg 1 .intensity (after [0x00, 0x0A, 0x05, 0x01] (inst 3 .none)) = some 0x05 ∧
    reg 0 .intensity (after [0x00, 0x0A, 0x05, 0x01] (inst 3 .none)) = none := by decide
/-- V1: the events of a complete transaction. -/
theorem test_wrreg_events : (after [0x00, 0x0C, 0x01, 0x00] (inst 1 .none)).history =
      [.acq, .sel .low, .byte 0x0C, .byte 0x01, .sel .high, .rel] ∧
    reg 0 .shutdown (after [0x00, 0x0C, 0x01, 0x00] (inst 1 .none)) = some 0x01 := by decide
/-- `WRALL 0x03, 00 FF 00` on a chain of 3: each device its own byte. -/
theorem test_wrall :
    transactions (after [0x01, 0x03, 0x00, 0xFF, 0x00] (inst 3 .none)) = [[0x03, 0x00, 0x03, 0xFF, 0x03, 0x00]] ∧
    reg 0 .digit2 (after [0x01, 0x03, 0x00, 0xFF, 0x00] (inst 3 .none)) = some 0x00 ∧
    reg 1 .digit2 (after [0x01, 0x03, 0x00, 0xFF, 0x00] (inst 3 .none)) = some 0xFF ∧
    reg 2 .digit2 (after [0x01, 0x03, 0x00, 0xFF, 0x00] (inst 3 .none)) = some 0x00 := by decide
/-- `WRALL 0x00, 00 07` on a chain of 2: device 0 has the no-op frame, device 1 an undocumented one. -/
theorem test_wrall_undocumented :
    reg 0 .digit0 (after [0x01, 0x00, 0x00, 0x07] (full 0 { inst 2 .none with
      devices := List.replicate 2 { Device.powerOn with digit0 := some 0x55 } })) = some 0x55 ∧
    reg 1 .digit0 (after [0x01, 0x00, 0x00, 0x07] (full 0 { inst 2 .none with
      devices := List.replicate 2 { Device.powerOn with digit0 := some 0x55 } })) = none := by decide

/-! ### Matrix commands (vectors of section 2.5) -/

/-- `MXCLR` with every cell 0xFF. -/
theorem test_mxclr : (after [0x02] (full 0xFF (inst 2 .matrix))).mem = [] ∧
    transactions (after [0x02] (full 0xFF (inst 2 .matrix))) =
      [[0x01, 0x00, 0x01, 0x00], [0x02, 0x00, 0x02, 0x00], [0x03, 0x00, 0x03, 0x00], [0x04, 0x00, 0x04, 0x00],
       [0x05, 0x00, 0x05, 0x00], [0x06, 0x00, 0x06, 0x00], [0x07, 0x00, 0x07, 0x00], [0x08, 0x00, 0x08, 0x00]] := by
  set_option maxRecDepth 100000 in decide
/-- The scenario of section 1.2: `MXROW 2, 0x00FF00` on a chain of 3. -/
theorem test_mxrow : readRow 2 (after [0x03, 0x02, 0x00, 0xFF, 0x00] (inst 3 .matrix)) = [0x00, 0xFF, 0x00] ∧
    transactions (after [0x03, 0x02, 0x00, 0xFF, 0x00] (inst 3 .matrix)) = [[0x03, 0x00, 0x03, 0xFF, 0x03, 0x00]] := by decide
/-- `MXROW 8, 0xFFFF` fails and does nothing. -/
theorem test_mxrow_range : (after [0x03, 0x08, 0xFF, 0xFF] (inst 2 .matrix)).returned = [(0, .fail)] ∧
    (after [0x03, 0x08, 0xFF, 0xFF] (inst 2 .matrix)).mem = [] ∧
    (after [0x03, 0x08, 0xFF, 0xFF] (inst 2 .matrix)).history = [] := by decide
/-- S5: `MXCOL 12, 0x0F` with every cell 0xFF. -/
theorem test_mxcol :
    ((List.range 8).map fun r => readCell r 1 (after [0x04, 0x0C, 0x00, 0x0F] (full 0xFF (inst 2 .matrix)))) =
      [0xFF, 0xFF, 0xFF, 0xFF, 0xEF, 0xEF, 0xEF, 0xEF] ∧
    readCell 7 0 (after [0x04, 0x0C, 0x00, 0x0F] (full 0xFF (inst 2 .matrix))) = 0xFF := by
  set_option maxRecDepth 100000 in decide
/-- `MXCOL 9, 0x81` and `MXCOL 16, 0x01` on a chain of 2. -/
theorem test_mxcol_pushes : transactions (after [0x04, 0x09, 0x00, 0x81] (inst 2 .matrix)) =
      [[0x01, 0x00, 0x01, 0x02], [0x02, 0x00, 0x02, 0x00], [0x03, 0x00, 0x03, 0x00], [0x04, 0x00, 0x04, 0x00],
       [0x05, 0x00, 0x05, 0x00], [0x06, 0x00, 0x06, 0x00], [0x07, 0x00, 0x07, 0x00], [0x08, 0x00, 0x08, 0x02]] ∧
    (after [0x04, 0x10, 0x00, 0x01] (inst 2 .matrix)).returned = [(0, .fail)] := by
  set_option maxRecDepth 100000 in decide
/-- `MXLED 3, 5, 0` with cell (3, 0) holding 0x21. -/
theorem test_mxled : readCell 3 0 (after [0x05, 0x03, 0x05, 0x00, 0x00] (writeCell 3 0 0x21 (inst 2 .matrix))) = 0x01 ∧
    transactions (after [0x05, 0x03, 0x05, 0x00, 0x00] (writeCell 3 0 0x21 (inst 2 .matrix))) =
      [[0x04, 0x01, 0x04, 0x00]] := by decide
/-- `MXLED 0, 8, 1` fails although the chain has a column 8. -/
theorem test_mxled_range : (after [0x05, 0x00, 0x08, 0x00, 0x01] (inst 2 .matrix)).returned = [(0, .fail)] ∧
    (after [0x05, 0x09, 0x09, 0x00, 0x01] (inst 2 .matrix)).returned = [(0, .fail)] := by decide

/-! ### Seven-segment commands (vectors of section 2.6) -/

theorem test_ssinit : transactions (after [0x06] (inst 3 .sevenseg)) = [[0x09, 0x00, 0x09, 0x00, 0x09, 0x00]] := by decide
theorem test_ssclr : transactions (after [0x07] (inst 1 .sevenseg)) =
    [[0x01, 0x00], [0x02, 0x00], [0x03, 0x00], [0x04, 0x00], [0x05, 0x00], [0x06, 0x00], [0x07, 0x00], [0x08, 0x00]] := by
  decide
theorem test_sshex : transactions (after [0x08, 0x00, 0x1A, 0x01] (inst 2 .sevenseg)) = [[0x00, 0x00, 0x01, 0x77]] ∧
    transactions (after [0x08, 0x03, 0xFF, 0x02] (inst 2 .sevenseg)) = [[0x04, 0x47, 0x04, 0x47]] := by decide
theorem test_sshex_digit_over_seven : (after [0x08, 0x08, 0x03, 0x00] (inst 2 .sevenseg)).history = [] ∧
    (after [0x08, 0x08, 0x03, 0x00] (inst 2 .sevenseg)).returned = [(0, .ok)] := by decide

/-! ### Wire frames (vectors of section 2.7), each latched by device 0 of a chain of 2 -/

theorem test_noop : (did .noop (edge 0x0000 2)).devices = (edge 0x0000 2).devices := by decide
theorem test_digit0 : reg 0 .digit0 (did (.digit0 0x81) (edge 0x0181 2)) = some 0x81 := by decide
theorem test_digit1 : reg 0 .digit1 (did (.digit1 0xFF) (edge 0x02FF 2)) = some 0xFF := by decide
theorem test_digit2 : reg 0 .digit2 (did (.digit2 0xFF) (edge 0x03FF 2)) = some 0xFF := by decide
theorem test_digit3 : reg 0 .digit3 (did (.digit3 0x20) (edge 0x0420 2)) = some 0x20 := by decide
theorem test_digit4 : reg 0 .digit4 (did (.digit4 0x00) (edge 0x0500 2)) = some 0x00 := by decide
theorem test_digit5 : reg 0 .digit5 (did (.digit5 0x3C) (edge 0x063C 2)) = some 0x3C := by decide
theorem test_digit6 : reg 0 .digit6 (did (.digit6 0x01) (edge 0x0701 2)) = some 0x01 := by decide
theorem test_digit7 : reg 0 .digit7 (did (.digit7 0x02) (edge 0x0802 2)) = some 0x02 := by decide
theorem test_decode_mode : reg 0 .decode (did (.decodeMode 0xFF) (edge 0x09FF 2)) = some 0xFF := by decide
theorem test_intensity : reg 0 .intensity (did (.intensity 0x17) (edge 0x0A17 2)) = some 0x17 ∧
    ((did (.intensity 0x17) (edge 0x0A17 2)).devices[0]?).bind levelOf = some 0x07 := by decide
theorem test_scanlimit : reg 0 .scanlimit (did (.scanlimit 0x07) (edge 0x0B07 2)) = some 0x07 := by decide
theorem test_shutdown : reg 0 .shutdown (did (.shutdown 0x02) (edge 0x0C02 2)) = some 0x02 ∧
    reg 1 .shutdown (did (.shutdown 0x02) (edge 0x0C02 2)) = none := by decide
theorem test_disptest : reg 0 .disptest (did (.disptest 0x00) (edge 0x0F00 2)) = some 0x00 := by decide
/-- The delivery vector: each device its own slot. -/
theorem test_delivery : reg 0 .digit0 (after [0x01, 0x01, 0x11, 0x22, 0x33] (inst 3 .none)) = some 0x11 ∧
    reg 1 .digit0 (after [0x01, 0x01, 0x11, 0x22, 0x33] (inst 3 .none)) = some 0x22 ∧
    reg 2 .digit0 (after [0x01, 0x01, 0x11, 0x22, 0x33] (inst 3 .none)) = some 0x33 := by decide
/-- The sequence vector: `0D 55`, then `0A 03`. -/
theorem test_undocumented_then_intensity :
    regOf .intensity (applyFrame 0x0A 0x03 (applyFrame 0x0D 0x55 (writeReg .digit0 0x11 Device.powerOn))) = some 0x03 ∧
    regOf .digit0 (applyFrame 0x0A 0x03 (applyFrame 0x0D 0x55 (writeReg .digit0 0x11 Device.powerOn))) = none := by decide

/-! ### Faults, refusals, construction (vectors of sections 2.3 and 2.8) -/

/-- V2: the transport fails at the third byte. -/
theorem test_transport_failure :
    (after [0x00, 0x0C, 0x01, 0x00] { inst 2 .none with transport := [.ok, .ok, .fail] }).history =
      [.acq, .sel .low, .byte 0x0C, .byte 0x01, .byte 0x00, .xfail, .rel] ∧
    (after [0x00, 0x0C, 0x01, 0x00] { inst 2 .none with transport := [.ok, .ok, .fail] }).fault =
      some ⟨.transport, some 0, 0, 2⟩ ∧
    (after [0x00, 0x0C, 0x01, 0x00] { inst 2 .none with transport := [.ok, .ok, .fail] }).busOwned = false ∧
    (after [0x00, 0x0C, 0x01, 0x00] { inst 2 .none with transport := [.ok, .ok, .fail] }).returned = [] := by decide
/-- V4: the transport never answers at the second byte. -/
theorem test_stall :
    (after [0x00, 0x0C, 0x01, 0x00] { inst 2 .none with transport := [.ok, .stall] }).history =
      [.acq, .sel .low, .byte 0x0C, .byte 0x01] ∧
    (after [0x00, 0x0C, 0x01, 0x00] { inst 2 .none with transport := [.ok, .stall] }).busOwned = true ∧
    (after [0x00, 0x0C, 0x01, 0x00] { inst 2 .none with transport := [.ok, .stall] }).sel = .low := by decide
/-- P5: a reserved op is refused and counts. -/
theorem test_refusal : (after [0x0A] (inst 2 .none)).refused = true ∧
    (after [0x0A] (inst 2 .none)).refusals = [(0, .reservedOp 0x0A)] ∧ (after [0x0A] (inst 2 .none)).history = [] ∧
    (after [0x0A] (inst 2 .none)).cmdIndex = 1 := by decide
/-- Construction of a SEVENSEG instance with a chain of 2 (section 2.6, P3). -/
theorem test_construction : (match construct (par 2 .sevenseg) [] with
    | .built s => decide (transactions s = [[0x09, 0x00, 0x09, 0x00]] ∧ reg 1 .decode s = some 0x00 ∧
        reg 1 .digit0 s = none ∧ s.cmdIndex = 0)
    | .refused _ => false) = true := by decide
theorem test_construction_refused : construct (par 0 .none) [] = .refused (.config (par 0 .none)) ∧
    construct (par 256 .none) [] = .refused (.config (par 256 .none)) := by decide

/-! ### The assembler (R77 to R79; P2, S11 of section 2.8) -/

theorem test_assemble : assembleLine (par 4 .none) "WAKE ALL ; all on".toList = .command (.wrreg 0x0C 0x01 255) ∧
    assembleLine (par 4 .none) "WRREG INTENSITY, 0x07, 2".toList = .command (.wrreg 0x0A 0x07 2) ∧
    assembleLine (par 4 .none) "DIGIT 8, 1, 0".toList = .bad ∧ assembleLine (par 4 .none) "  ; nothing".toList = .blank := by
  decide
theorem test_disassemble : disassemble (par 4 .none) (.wrreg 0x0C 0x01 255) = some "WRREG 0x0C, 0x01, ALL".toList ∧
    disassemble (par 4 .none) (.wrreg 0x0C 0x01 3) = some "WRREG 0x0C, 0x01, 0x03".toList := by decide

/-! ### Witnesses: states and operands that meet the hypotheses of each statement, at boundary values of each clause -/

/-- An instance whose transport gives these answers first. -/
def answering (n : Nat) (fe : Frontend) (answers : List Answer) : State := State.initial (par n fe) answers

/-- The host's next command. -/
def issuing (bytes : List Byte) (s : State) : State := { s with host := [bytes] }

/-- A fault is recorded. -/
def faulted : State := { inst 2 .none with fault := some ⟨.transport, some 0, 0, 0⟩ }

/-- A transfer of a command has stalled. -/
def stalled : State := after [0x00, 0x0C, 0x01, 0x00] { inst 2 .none with transport := [.ok, .stall] }

theorem witness_CommandDecodesBack : (Instr.wrreg 0xFF 0xFF 255).isFrame = false ∧
    (Instr.wrreg 0xFF 0xFF 255).wellFormed (par 2 .none) = true ∧
    (Instr.mxrow 0xFF 0xFFFF).wellFormed (par 2 .matrix) = true ∧
    (Instr.sshex 0xFF 0xFF 255).wellFormed (par 2 .sevenseg) = true := by decide
theorem witness_RecordHasOneMeaning : decode (par 1 .matrix) [0x05, 0xFF, 0xFF, 0xFF, 0x01] = .ok (.mxled 0xFF 0xFFFF true) := by
  decide
theorem witness_FrameDecodesBack : (Instr.disptest 0xFF).isFrame = true ∧ decodeFrame 0x0F 0xFF = some (.disptest 0xFF) ∧
    Undocumented 0x00 0x01 ∧ Undocumented 0x0D 0x00 ∧ Undocumented 0x10 0x00 ∧ ¬ Undocumented 0x0F 0xFF := by decide
theorem witness_DecodeChecksInOrder :
    0x10 ≤ (0x10 : Byte).toNat ∧ (9 ≤ (0x09 : Byte).toNat ∧ (0x09 : Byte).toNat ≤ 15) ∧ (0x0F : Byte).toNat ≤ 15 ∧
    (2 ≤ (0x05 : Byte).toNat ∧ (0x05 : Byte).toNat ≤ 5 ∧ (par 2 .none).frontend ≠ .matrix) ∧
    (6 ≤ (0x06 : Byte).toNat ∧ (0x06 : Byte).toNat ≤ 8 ∧ (par 2 .matrix).frontend ≠ .sevenseg) ∧
    ((0x08 : Byte).toNat ≤ 8 ∧ (2 ≤ (0x08 : Byte).toNat ∧ (0x08 : Byte).toNat ≤ 5 → (par 2 .sevenseg).frontend = .matrix) ∧
      (6 ≤ (0x08 : Byte).toNat → (par 2 .sevenseg).frontend = .sevenseg) ∧
      ([0x08, 0x00] : List Byte).length ≠ commandLength (par 2 .sevenseg) 8 ∧
      ([0x08, 0x00, 0x00, 0x00] : List Byte).length = commandLength (par 2 .sevenseg) 8) ∧
    ((0x05 : Byte).toNat ≤ 8 ∧ (par 2 .matrix).frontend = .matrix ∧ ¬ 6 ≤ (0x05 : Byte).toNat ∧
      ([0x05, 0x00, 0x00, 0x00, 0x02] : List Byte).length = commandLength (par 2 .matrix) 5) := by decide
theorem witness_DisassemblyAssemblesBack : (par 255 .sevenseg).Legal ∧
    (Instr.sshex 0x08 0x1A 254).isFrame = false ∧ (Instr.sshex 0x08 0x1A 254).wellFormed (par 255 .sevenseg) = true ∧
    (Instr.wrall 0x0A [0x01, 0x0F]).wellFormed (par 2 .none) = true := by decide
theorem witness_PseudosExpandToWrreg : 7 ≤ 7 ∧ 7 < 8 := by decide
theorem witness_StepRunsTheDecodedInstruction :
    ((issuing [0x02] (inst 1 .matrix)).latching = [] ∧ (issuing [0x02] (inst 1 .matrix)).fault = none ∧
      (issuing [0x02] (inst 1 .matrix)).activity = .idle ∧ (issuing [0x02] (inst 1 .matrix)).host = [0x02] :: [] ∧
      decode (issuing [0x02] (inst 1 .matrix)).params [0x02] = .ok .mxclr) ∧
    ((edge 0x0A17 2).latching = 0 :: [] ∧ frameAt 0 (edge 0x0A17 2) = some 0x0A17 ∧
      decodeFrame (frameAddr 0x0A17) (frameData 0x0A17) = some (.intensity 0x17)) := by decide
theorem witness_StepRefusesWhatDoesNotDecode :
    (issuing [0x0A] (inst 2 .none)).latching = [] ∧ (issuing [0x0A] (inst 2 .none)).fault = none ∧
    (issuing [0x0A] (inst 2 .none)).activity = .idle ∧ (issuing [0x0A] (inst 2 .none)).host = [0x0A] :: [] ∧
    decode (issuing [0x0A] (inst 2 .none)).params [0x0A] = .error (.reservedOp 0x0A) := by decide
theorem witness_UnicastAndBroadcastSequences : 1 < 2 ∧ (2 ≤ 2 ∨ 2 = 1) ∧ (1 ≤ 0 ∨ 1 = 1) := by decide
theorem witness_PayloadSequenceSlots : 2 < ([0x11, 0x22, 0x33] : List Byte).length := by decide
theorem witness_EqualPayloadIsBroadcast : (inst 2 .none).params.n ≤ 2 := by decide
theorem witness_WrregSendsOneTransaction : Ready (inst 2 .none) ∧ AnswersOk (2 * (inst 2 .none).params.n) (inst 2 .none) := by
  decide
theorem witness_WrallSendsOneTransaction : Ready (inst 2 .none) ∧
    ([0x01, 0x0F] : List Byte).length = (inst 2 .none).params.n ∧
    AnswersOk (2 * (inst 2 .none).params.n) (inst 2 .none) ∧ ([0x01] : List Byte).length ≠ (inst 2 .none).params.n := by decide
theorem witness_UnicastReachesOnlyItsDevice : Ready (inst 2 .none) ∧ AnswersOk (2 * (inst 2 .none).params.n) (inst 2 .none) ∧
    (inst 2 .none).devices.length = (inst 2 .none).params.n ∧ 2 ≤ (inst 2 .none).params.n ∧ 1 < (inst 2 .none).params.n := by
  decide
theorem witness_BroadcastReachesEveryDevice :
    (Ready (inst 1 .none) ∧ AnswersOk (2 * (inst 1 .none).params.n) (inst 1 .none) ∧
      (inst 1 .none).devices.length = (inst 1 .none).params.n ∧ ((inst 1 .none).params.n = 1 ∨ (inst 1 .none).params.n ≤ 0)) ∧
    (Ready (inst 2 .none) ∧ AnswersOk (2 * (inst 2 .none).params.n) (inst 2 .none) ∧
      (inst 2 .none).devices.length = (inst 2 .none).params.n ∧ ((inst 2 .none).params.n = 1 ∨ (inst 2 .none).params.n ≤ 2) ∧
      ([0x01, 0x0F] : List Byte).length = (inst 2 .none).params.n) := by decide
theorem witness_MxclrZeroesAndPushes : Ready (full 0xFF (inst 2 .matrix)) ∧
    (full 0xFF (inst 2 .matrix)).params.frontend = .matrix ∧ FramebufferInv (full 0xFF (inst 2 .matrix)) ∧
    AnswersOk (16 * (full 0xFF (inst 2 .matrix)).params.n) (full 0xFF (inst 2 .matrix)) := by decide
theorem witness_MxclrClearsInEightTransactions : FramebufferInv (inst 1 .matrix) ∧
    exec .mxclr (inst 1 .matrix) = .next (did .mxclr (inst 1 .matrix)) ∧
    (did .mxclr (inst 1 .matrix)).returned = (inst 1 .matrix).returned ++ [((inst 1 .matrix).cmdIndex, .ok)] :=
  ⟨by decide, rfl, by decide⟩
theorem witness_MxrowWritesAndPushesItsRow : Ready (inst 2 .matrix) ∧ (inst 2 .matrix).params.frontend = .matrix ∧
    FramebufferInv (inst 2 .matrix) ∧ AnswersOk (2 * (inst 2 .matrix).params.n) (inst 2 .matrix) ∧ (7 : Byte).toNat ≤ 7 := by
  decide
theorem witness_MxcolWritesAndPushesEveryRow : Ready (inst 2 .matrix) ∧ (inst 2 .matrix).params.frontend = .matrix ∧
    FramebufferInv (inst 2 .matrix) ∧ AnswersOk (16 * (inst 2 .matrix).params.n) (inst 2 .matrix) ∧
    (15 : Half).toNat < 8 * (inst 2 .matrix).params.n := by decide
theorem witness_MxcolColumnIsTheMask : FramebufferInv (inst 1 .matrix) ∧
    exec (.mxcol 7 0x80) (inst 1 .matrix) = .next (did (.mxcol 7 0x80) (inst 1 .matrix)) ∧
    (did (.mxcol 7 0x80) (inst 1 .matrix)).returned = (inst 1 .matrix).returned ++ [((inst 1 .matrix).cmdIndex, .ok)] ∧
    7 < 8 := ⟨by decide, rfl, by decide, by decide⟩
theorem witness_MxledWritesAndPushesOnePixel : Ready (inst 2 .matrix) ∧ (inst 2 .matrix).params.frontend = .matrix ∧
    FramebufferInv (inst 2 .matrix) ∧ AnswersOk (2 * (inst 2 .matrix).params.n) (inst 2 .matrix) ∧ (7 : Byte).toNat ≤ 7 ∧
    (7 : Half).toNat ≤ 7 := by decide
theorem witness_DisplayEqualsFramebuffer : isMatrixCommand (.mxrow 7 0xA5) = true ∧ FramebufferInv (inst 1 .matrix) ∧
    (inst 1 .matrix).devices.length = (inst 1 .matrix).params.n ∧
    exec (.mxrow 7 0xA5) (inst 1 .matrix) = .next (did (.mxrow 7 0xA5) (inst 1 .matrix)) ∧
    (did (.mxrow 7 0xA5) (inst 1 .matrix)).returned = (inst 1 .matrix).returned ++ [((inst 1 .matrix).cmdIndex, .ok)] ∧
    (did (.mxrow 7 0xA5) (inst 1 .matrix)).fault = none ∧ 7 ∈ pushedRows (.mxrow 7 0xA5) ∧
    0 < (did (.mxrow 7 0xA5) (inst 1 .matrix)).params.n :=
  ⟨by decide, by decide, by decide, rfl, by decide, by decide, by decide, by decide⟩
/-- `MXLED 1, 0, 1` twice (S7). -/
theorem witness_MatrixSettersAreIdempotent :
    (∃ row col led, Instr.mxled 1 0 true = .mxled row col led) ∧ FramebufferInv (inst 2 .matrix) ∧
    (inst 2 .matrix).activity = .idle ∧
    exec (.mxled 1 0 true) (inst 2 .matrix) = .next (did (.mxled 1 0 true) (inst 2 .matrix)) ∧
    (did (.mxled 1 0 true) (inst 2 .matrix)).fault = none ∧ (did (.mxled 1 0 true) (inst 2 .matrix)).activity = .idle ∧
    exec (.mxled 1 0 true) (did (.mxled 1 0 true) (inst 2 .matrix)) =
      .next (did (.mxled 1 0 true) (did (.mxled 1 0 true) (inst 2 .matrix))) ∧
    (did (.mxled 1 0 true) (did (.mxled 1 0 true) (inst 2 .matrix))).fault = none ∧
    (did (.mxled 1 0 true) (did (.mxled 1 0 true) (inst 2 .matrix))).activity = .idle :=
  ⟨⟨1, 0, true, rfl⟩, by decide, by decide, rfl, by decide, by decide, rfl, by decide, by decide⟩
theorem witness_MatrixLeavesControlRegisters : isMatrixCommand (.mxrow 7 0xA5) = true ∧
    (inst 1 .matrix).devices.length = (inst 1 .matrix).params.n ∧
    exec (.mxrow 7 0xA5) (inst 1 .matrix) = .next (did (.mxrow 7 0xA5) (inst 1 .matrix)) ∧
    (did (.mxrow 7 0xA5) (inst 1 .matrix)).fault = none ∧ (did (.mxrow 7 0xA5) (inst 1 .matrix)).activity = .idle ∧
    DevReg.disptest ∈ [DevReg.decode, .intensity, .scanlimit, .shutdown, .disptest] :=
  ⟨by decide, by decide, rfl, by decide, by decide, by decide⟩
theorem witness_OnlyMatrixCommandsWriteFramebuffer : isMatrixCommand (.wrreg 1 1 0) = false ∧
    exec (.wrreg 1 1 0) (inst 2 .matrix) = .next (did (.wrreg 1 1 0) (inst 2 .matrix)) := ⟨by decide, rfl⟩
theorem witness_SsinitSendsRawDecode : Ready (inst 2 .sevenseg) ∧ (inst 2 .sevenseg).params.frontend = .sevenseg ∧
    AnswersOk (2 * (inst 2 .sevenseg).params.n) (inst 2 .sevenseg) := by decide
theorem witness_SsclrBlanksEveryDigit : Ready (inst 2 .sevenseg) ∧ (inst 2 .sevenseg).params.frontend = .sevenseg ∧
    AnswersOk (16 * (inst 2 .sevenseg).params.n) (inst 2 .sevenseg) := by decide
theorem witness_SshexSendsThePattern : Ready (inst 2 .sevenseg) ∧ (inst 2 .sevenseg).params.frontend = .sevenseg ∧
    (inst 2 .sevenseg).params.Legal ∧ AnswersOk (2 * (inst 2 .sevenseg).params.n) (inst 2 .sevenseg) ∧
    (7 : Byte).toNat ≤ 7 := by decide
theorem witness_SshexDigitOverSevenDoesNothing : Ready (inst 2 .sevenseg) ∧
    (inst 2 .sevenseg).params.frontend = .sevenseg ∧ 7 < (8 : Byte).toNat := by decide
theorem witness_SshexFollowsTheTable : Ready (inst 2 .sevenseg) ∧ (inst 2 .sevenseg).params.frontend = .sevenseg ∧
    (inst 2 .sevenseg).params.Legal ∧ 15 < 16 ∧ (7 : Byte).toNat ≤ 7 ∧
    AnswersOk (2 * (inst 2 .sevenseg).params.n) (inst 2 .sevenseg) := by decide
theorem witness_RangeErrorsDoNothing :
    (Ready (inst 2 .matrix) ∧ (inst 2 .matrix).params.frontend = .matrix ∧ 7 < (8 : Byte).toNat ∧
      8 * (inst 2 .matrix).params.n ≤ (16 : Half).toNat ∧ (7 < (0 : Byte).toNat ∨ 7 < (8 : Half).toNat)) ∧
    exec (.sshex 0 0 0) (inst 2 .sevenseg) = .next (did (.sshex 0 0 0) (inst 2 .sevenseg)) := ⟨by decide, rfl⟩
theorem witness_AbsentFrontendIsRefused : (inst 2 .none).fault = none ∧ (inst 2 .none).activity = .idle ∧
    Instr.mxclr.frontendPresent (inst 2 .none).params = false ∧
    Instr.ssclr.frontendPresent (inst 2 .matrix).params = false := by decide
theorem witness_ReentrantIssueIsRefused : Instr.mxclr.isFrame = false ∧ stalled.fault = none ∧ stalled.activity ≠ .idle := by
  decide
theorem witness_FaultIsFinal : faulted.fault = some ⟨.transport, some 0, 0, 0⟩ ∧ Instr.mxclr.isFrame = false ∧
    faulted.latching = [] ∧
    ∃ t, step { edge 0x0A17 2 with fault := some ⟨.transport, some 0, 0, 0⟩ } = .next t := ⟨rfl, rfl, rfl, _, rfl⟩
theorem witness_TransportFailureState :
    (∃ reg val tgt, Instr.wrreg 0x0C 0x01 0 = .wrreg reg val tgt ∧
      uniSeq 2 0x0C 0x01 0 = uniSeq (answering 2 .none [.ok, .ok, .ok, .fail]).params.n reg val tgt) ∧
    (∃ reg payload, Instr.wrall 0x0A [0x01, 0x0F] = .wrall reg payload ∧
      payload.length = (answering 2 .none [.ok, .ok, .ok, .fail]).params.n ∧ paySeq 0x0A [0x01, 0x0F] = paySeq reg payload) ∧
    Ready (answering 2 .none [.ok, .ok, .ok, .fail]) ∧ 3 < 2 * (answering 2 .none [.ok, .ok, .ok, .fail]).params.n ∧
    AnswersOk 3 (answering 2 .none [.ok, .ok, .ok, .fail]) ∧
    (answering 2 .none [.ok, .ok, .ok, .fail]).transport[3]? = some .fail :=
  ⟨⟨_, _, _, rfl, rfl⟩, ⟨_, _, rfl, rfl, rfl⟩, by decide, by decide, by decide, by decide⟩
/-- The vector of section 2.5: the transport fails in the 4th transaction of MXCLR on a chain of 2. -/
theorem witness_MxclrTransportFailure :
    Ready (answering 2 .matrix (List.replicate 12 .ok ++ [.fail])) ∧
    (answering 2 .matrix (List.replicate 12 .ok ++ [.fail])).params.frontend = .matrix ∧
    FramebufferInv (answering 2 .matrix (List.replicate 12 .ok ++ [.fail])) ∧ 3 < 8 ∧
    0 < 2 * (answering 2 .matrix (List.replicate 12 .ok ++ [.fail])).params.n ∧
    AnswersOk (2 * (answering 2 .matrix (List.replicate 12 .ok ++ [.fail])).params.n * 3 + 0)
      (answering 2 .matrix (List.replicate 12 .ok ++ [.fail])) ∧
    (answering 2 .matrix (List.replicate 12 .ok ++ [.fail])).transport[
      2 * (answering 2 .matrix (List.replicate 12 .ok ++ [.fail])).params.n * 3 + 0]? = some .fail := by decide
/-- The vector of section 2.5: the transport fails in row 4's push of `MXCOL 9` on a chain of 2. -/
theorem witness_MxcolTransportFailure :
    Ready (answering 2 .matrix (List.replicate 19 .ok ++ [.fail])) ∧
    (answering 2 .matrix (List.replicate 19 .ok ++ [.fail])).params.frontend = .matrix ∧
    FramebufferInv (answering 2 .matrix (List.replicate 19 .ok ++ [.fail])) ∧
    (9 : Half).toNat < 8 * (answering 2 .matrix (List.replicate 19 .ok ++ [.fail])).params.n ∧ 4 < 8 ∧
    3 < 2 * (answering 2 .matrix (List.replicate 19 .ok ++ [.fail])).params.n ∧
    AnswersOk (2 * (answering 2 .matrix (List.replicate 19 .ok ++ [.fail])).params.n * 4 + 3)
      (answering 2 .matrix (List.replicate 19 .ok ++ [.fail])) ∧
    (answering 2 .matrix (List.replicate 19 .ok ++ [.fail])).transport[
      2 * (answering 2 .matrix (List.replicate 19 .ok ++ [.fail])).params.n * 4 + 3]? = some .fail := by decide
theorem witness_StallNeverReturns : Ready (answering 2 .none [.ok, .ok, .ok, .stall]) ∧
    (answering 2 .none [.ok, .ok, .ok, .stall]).latching = [] ∧
    3 < 2 * (answering 2 .none [.ok, .ok, .ok, .stall]).params.n ∧ AnswersOk 3 (answering 2 .none [.ok, .ok, .ok, .stall]) ∧
    (answering 2 .none [.ok, .ok, .ok, .stall]).transport[3]? = some .stall := by decide
theorem witness_LiveCommandsComplete : Instr.mxclr.isFrame = false ∧
    Inv (State.initial { par 2 .matrix with transportLive := true } [.ok, .fail]) ∧
    (State.initial { par 2 .matrix with transportLive := true } [.ok, .fail]).params.transportLive = true ∧
    (State.initial { par 2 .matrix with transportLive := true } [.ok, .fail]).fault = none := by decide
theorem witness_FramesWriteTheirRegister : (edge 0x0A17 2).latching = 0 :: [] := by decide
theorem witness_FrameWithoutAnEdge : (Instr.digit0 0x81).isFrame = true ∧ (inst 2 .none).latching = [] := by decide
theorem witness_FrameStepIsTheLatch : (edge 0x0D55 2).latching = 0 :: [] := by decide
theorem witness_EdgeOrderDoesNotMatter : List.Perm [2, 0, 1] (List.range (inst 3 .none).devices.length) := by decide
theorem witness_UndocumentedFrameLosesTheDevice : Undocumented 0x0D 0x55 ∧ (edge 0x0D55 2).latching = 0 :: [] ∧
    frameAt 0 (edge 0x0D55 2) = some (frameOf 0x0D 0x55) ∧ (1 : Nat) ≠ 0 := by decide
theorem witness_LevelAndPowerOfADevice : DevReg.digit0 ≠ .shutdown := by decide
/-- The hypotheses of StepKeepsInv, of ConfigurationNeverChanges and of MarksAndHistoryOnlyGrow. -/
theorem witness_StepKeepsInv : Inv (issuing [0x02] (inst 1 .matrix)) ∧
    step (issuing [0x02] (inst 1 .matrix)) = .next (after [0x02] (inst 1 .matrix)) := ⟨by decide, rfl⟩
theorem witness_StepKeepsBrackets : BracketInv (issuing [0x02] (inst 1 .matrix)) ∧
    step (issuing [0x02] (inst 1 .matrix)) = .next (after [0x02] (inst 1 .matrix)) :=
  ⟨⟨rfl, fun _ => rfl, fun h => absurd rfl h⟩, rfl⟩
theorem witness_ConstructionValues : ¬ (par 256 .none).Legal ∧
    ((par 255 .matrix).Legal ∧ (par 255 .matrix).frontend ≠ .sevenseg) ∧
    ((par 2 .sevenseg).Legal ∧ (par 2 .sevenseg).frontend = .sevenseg ∧
      AnswersOk (2 * (par 2 .sevenseg).n) (State.initial (par 2 .sevenseg) [])) := by decide
theorem witness_ConstructionFailure : (par 2 .sevenseg).Legal ∧ (par 2 .sevenseg).frontend = .sevenseg ∧
    3 < 2 * (par 2 .sevenseg).n ∧ AnswersOk 3 (State.initial (par 2 .sevenseg) [.ok, .ok, .ok, .fail]) ∧
    (State.initial (par 2 .sevenseg) [.ok, .ok, .ok, .fail]).transport[3]? = some .fail := by decide
theorem witness_ConstructionMeetsTheInvariants : construct (par 2 .matrix) [.stall] = .built (answering 2 .matrix [.stall]) := by
  decide
theorem witness_ConfigurationNeverChanges : exec .mxclr (inst 1 .matrix) = .next (did .mxclr (inst 1 .matrix)) ∧
    step (issuing [0x02] (inst 1 .matrix)) = .next (after [0x02] (inst 1 .matrix)) := ⟨rfl, rfl⟩
theorem witness_MarksAndHistoryOnlyGrow : step (issuing [0x0A] { inst 2 .none with refused := true }) =
      .next (after [0x0A] { inst 2 .none with refused := true }) ∧
    (issuing [0x0A] { inst 2 .none with refused := true }).refused = true ∧
    (∃ t, step { edge 0x0A17 2 with fault := some ⟨.transport, some 0, 0, 0⟩ } = .next t) := ⟨rfl, rfl, _, rfl⟩
theorem witness_CommandIndexCounts : Instr.mxclr.isFrame = false ∧
    exec .mxclr (inst 1 .matrix) = .next (did .mxclr (inst 1 .matrix)) := ⟨rfl, rfl⟩
theorem witness_CompletedTransactionsAreOnRecord :
    ∀ b ∈ [uniSeq 2 0x0C 0x01 0, paySeq 0x01 [0x11, 0x22]], b.length = 2 * (inst 2 .none).params.n := by decide
theorem witness_NoCommandReadsADevice : (Instr.wrreg 0x0A 0x05 0).isFrame = false := by decide
theorem witness_ReadsOfTheHost :
    ((inst 2 .matrix).params.frontend = .matrix ∧ 7 < 8 ∧ 1 < (inst 2 .matrix).params.n) ∧
    (inst 2 .none).params.frontend ≠ .matrix ∧ 8 ≤ 8 ∧ (inst 2 .matrix).params.n ≤ 2 ∧
    deviceHolds (did (.digit0 0x81) (edge 0x0181 2)) 0 .digit0 0x81 ∧
    ((inst 2 .none).devices[1]? = some Device.powerOn ∧ regOf .intensity Device.powerOn = none) := by decide

end Sys2Proof.Tests
end

section
/-! PROOFS. What one step runs (spec/00_scope.md): an equation for each way `step` can fetch an instruction, and the
obligation O8 from them. -/

namespace Sys2Proof.Machine

/-- At an edge the step belongs to the first device still to latch (R117), whatever the host has queued. -/
theorem step_of_latching {s : State} {k : Nat} {ks : List Nat} (hlatch : s.latching = k :: ks) :
    step s = stepFrame k s := by
  simp only [step, hlatch]

/-- With no edge under way, no fault and nothing executing, the step is the host's (R148). -/
theorem step_of_idle {s : State} (hlatch : s.latching = []) (hfault : s.fault = none) (hidle : s.activity = .idle) :
    step s = stepCommand s := by
  simp [step, hlatch, hfault, hidle]

/-- A documented frame in the shift register runs as its instruction (R71). -/
theorem stepFrame_of_decodes {s : State} {k : Nat} {f : Half} {i : Instr} (hframe : frameAt k s = some f)
    (hdecode : decodeFrame (frameAddr f) (frameData f) = some i) : stepFrame k s = exec i s := by
  simp only [stepFrame, hframe, hdecode]

/-- A byte string that decodes leaves the queue and runs as its instruction (R65). -/
theorem stepCommand_of_decodes {s : State} {bytes : List Byte} {rest : List (List Byte)} {i : Instr}
    (hhost : s.host = bytes :: rest) (hdecode : decode s.params bytes = .ok i) :
    stepCommand s = exec i { s with host := rest } := by
  simp only [stepCommand, hhost, hdecode]

/-- Settles O8: each clause is the choice `step` makes (`step_of_idle`, `step_of_latching`) followed by the decoder's
answer (`stepCommand_of_decodes`, `stepFrame_of_decodes`). -/
theorem stepRunsTheDecodedInstruction : Obligations.StepRunsTheDecodedInstruction := by
  unfold Obligations.StepRunsTheDecodedInstruction
  constructor
  · intro s bytes rest i hlatch hfault hidle hhost hdecode
    calc step s = stepCommand s := step_of_idle hlatch hfault hidle
      _ = exec i { s with host := rest } := stepCommand_of_decodes hhost hdecode
  · intro s k ks f i hlatch hframe hdecode
    calc step s = stepFrame k s := step_of_latching hlatch
      _ = exec i s := stepFrame_of_decodes hframe hdecode

end Sys2Proof.Machine
end

section
/-! PROOFS. What an instruction and a step can do to a state, said once with its frame: what a command's pseudocode keeps
from one transaction to the next (`Continues`), how a transaction ends a command early (`Halts`), and the ways an
instruction and a step answer a next state (`CommandEffect`, `exec_effect`, `step_effect`). -/

namespace Sys2Proof.Machine

/-! ### Within a command -/

/-- `u` is reached from `s` by completed transactions and writes of cells: what those leave unchanged, and what they only
consume or add to. The framebuffer is not named. -/
structure Continues (s u : State) : Prop where
  params : u.params = s.params
  fault : u.fault = s.fault
  refused : u.refused = s.refused
  refusals : u.refusals = s.refusals
  cmdIndex : u.cmdIndex = s.cmdIndex
  activity : u.activity = s.activity
  returned : u.returned = s.returned
  latching : u.latching = s.latching
  host : u.host = s.host
  quiet : Quiet s → Quiet u
  devices : u.devices.length = s.devices.length
  history : s.history <+: u.history
  transport : u.transport <:+ s.transport

/-- `t` is where transaction `bytes` ends a command from `u` before its end: the transport failed or stalled at a byte
(R85, R86). -/
inductive Halts (u : State) : State → Prop
  | failed (k j : Nat) (bytes : List Byte) (hlen : bytes.length = 2 * u.params.n) (hj : j < bytes.length) :
    Halts u (raiseTransport k j (duringTransact bytes (j + 1) u))
  | stalled (j : Nat) (bytes : List Byte) (hlen : bytes.length = 2 * u.params.n) (hj : j < bytes.length)
    (hstall : u.transport[j]? = some .stall) : Halts u (stallTransfer (duringTransact bytes (j + 1) u))

theorem Continues.refl (s : State) : Continues s s where
  params := rfl
  fault := rfl
  refused := rfl
  refusals := rfl
  cmdIndex := rfl
  activity := rfl
  returned := rfl
  latching := rfl
  host := rfl
  quiet := id
  devices := rfl
  history := List.prefix_rfl
  transport := List.suffix_rfl

/-- A completed transaction adds its events, consumes its answers and leaves the bus free and the line high. -/
theorem Continues.afterTransact {s u : State} (h : Continues s u) (bytes : List Byte) :
    Continues s (afterTransact bytes u) :=
  { h with
    quiet := fun _ => ⟨rfl, rfl⟩
    devices := (latchBytes_length _ _).trans h.devices
    history := h.history.trans (List.prefix_append _ _)
    transport := (List.drop_suffix _ _).trans h.transport }

/-- A write of a cell changes the framebuffer alone. -/
theorem Continues.writeCell {s u : State} (h : Continues s u) (row d : Nat) (v : Byte) :
    Continues s (writeCell row d v u) := { h with }

/-- A transaction of whole chain length completes or halts the command. -/
theorem transact_completes_or_halts {u : State} (k : Nat) {bytes : List Byte} (hlen : bytes.length = 2 * u.params.n) :
    RunKeeps (· = afterTransact bytes u) (Halts u) (transact k bytes u) :=
  transact_keeps k bytes u (fun _ => rfl) (fun j hj _ _ => .failed k j bytes hlen hj)
    (fun j hj _ hstall => .stalled j bytes hlen hj hstall)

/-! ### An instruction -/

/-- The property of a framebuffer survives a write of any byte to a cell a command can name on a chain of `n`. -/
def KeptByWrites (n : Nat) (M : Memory → Prop) : Prop :=
  ∀ (m : Memory) (row d : Nat) (v : Byte), row < 8 → d < n ∨ d = 0 → M m → M (memWrite m (cellAddr row d) v)

/-- The next states a command can answer from `s`, where `M` holds of the framebuffer throughout: it is refused; it returns
at once with no effect; or its pseudocode runs to its end or to the transaction that halts it. -/
inductive CommandEffect (M : Memory → Prop) (s : State) : State → Prop
  | refused (r : RefuseReason) : CommandEffect M s (refuse r s)
  | returned (status : Status) (hidle : s.activity = .idle) : CommandEffect M s (complete status s)
  | completed (u : State) (hidle : s.activity = .idle) (hrun : Continues (start s) u) (hmem : M u.mem) :
    CommandEffect M s (complete .ok u)
  | halted (u t : State) (hidle : s.activity = .idle) (hrun : Continues (start s) u) (hmem : M u.mem)
    (hhalt : Halts u t) : CommandEffect M s t

/-- A command answers a next state in one of these ways, and only where no fault is recorded (R150). Only a matrix command
needs `M` to survive writes. -/
theorem command_effect {M : Memory → Prop} {i : Instr} {s t : State} (hcommand : i.isFrame = false)
    (h : exec i s = .next t) (hmem : M s.mem)
    (hwrites : isMatrixCommand i = true → s.params.frontend = .matrix → KeptByWrites s.params.n M) :
    s.fault = none ∧ CommandEffect M s t := by
  obtain ⟨hfault, hcases⟩ := command_induction (P := fun u => Continues (start s) u ∧ M u.mem)
    (Q := fun t => ∃ u, (Continues (start s) u ∧ M u.mem) ∧ Halts u t) hcommand h ⟨.refl _, hmem⟩
    (fun u hu => hu.1.params)
    (fun hm hfe u row d v hrow hd hu => ⟨hu.1.writeCell row d v, hwrites hm hfe u.mem row d v hrow hd hu.2⟩)
    (fun u k bytes hlen hu => by
      obtain ⟨hgo, hstop⟩ := transact_completes_or_halts k (hlen.trans (by rw [hu.1.params]; rfl))
      refine ⟨fun v hv => ?_, fun v hv => ⟨u, hu, hstop v hv⟩⟩
      rw [hgo v hv]
      exact ⟨hu.1.afterTransact bytes, hu.2⟩)
  refine ⟨hfault, ?_⟩
  rcases hcases with ⟨r, rfl⟩ | ⟨hidle, (rfl | rfl) | ⟨u, ⟨hrun, hmem⟩, rfl⟩ | ⟨u, ⟨hrun, hmem⟩, hhalt⟩⟩
  · exact .refused r
  · exact .returned .ok hidle
  · exact .returned .fail hidle
  · exact .completed u hidle hrun hmem
  · exact .halted u t hidle hrun hmem hhalt

/-- A wire frame acts on the device at the edge alone (R118). -/
theorem exec_frame {i : Instr} (hframe : i.isFrame = true) (s : State) : ∃ f, exec i s = .next (atEdge f s) := by
  cases i <;> simp only [Instr.isFrame, Bool.false_eq_true] at hframe <;> exact ⟨_, rfl⟩

/-- What any instruction can do: latch a frame, or what a command can do. -/
theorem exec_effect {M : Memory → Prop} {i : Instr} {s t : State} (h : exec i s = .next t) (hmem : M s.mem)
    (hwrites : isMatrixCommand i = true → s.params.frontend = .matrix → KeptByWrites s.params.n M) :
    (∃ f, t = atEdge f s) ∨ s.fault = none ∧ CommandEffect M s t := by
  cases hframe : i.isFrame with
  | true =>
    obtain ⟨f, hf⟩ := exec_frame hframe s
    rw [hf] at h
    cases h
    exact .inl ⟨f, rfl⟩
  | false => exact .inr (command_effect hframe h hmem hwrites)

/-! ### The edge -/

/-- The edge taken device by device changes the chain and the devices still to latch, and nothing else. -/
theorem atEdge_eq (f : Device → Device) (s : State) :
    atEdge f s = { s with devices := (atEdge f s).devices, latching := s.latching.tail } := by
  cases hlatch : s.latching with
  | nil =>
    rw [atEdge_nil hlatch]
    cases s
    simpa using hlatch
  | cons k ks =>
    rw [atEdge_cons hlatch]
    rfl

variable (f : Device → Device) (s : State)

@[simp] theorem atEdge_params : (atEdge f s).params = s.params := by rw [atEdge_eq]
@[simp] theorem atEdge_busOwned : (atEdge f s).busOwned = s.busOwned := by rw [atEdge_eq]
@[simp] theorem atEdge_sel : (atEdge f s).sel = s.sel := by rw [atEdge_eq]
@[simp] theorem atEdge_fault : (atEdge f s).fault = s.fault := by rw [atEdge_eq]
@[simp] theorem atEdge_refused : (atEdge f s).refused = s.refused := by rw [atEdge_eq]
@[simp] theorem atEdge_refusals : (atEdge f s).refusals = s.refusals := by rw [atEdge_eq]
@[simp] theorem atEdge_activity : (atEdge f s).activity = s.activity := by rw [atEdge_eq]
@[simp] theorem atEdge_history : (atEdge f s).history = s.history := by rw [atEdge_eq]
@[simp] theorem atEdge_returned : (atEdge f s).returned = s.returned := by rw [atEdge_eq]
@[simp] theorem atEdge_mem : (atEdge f s).mem = s.mem := by rw [atEdge_eq]
@[simp] theorem atEdge_latching : (atEdge f s).latching = s.latching.tail := by rw [atEdge_eq]
@[simp] theorem atEdge_transport : (atEdge f s).transport = s.transport := by rw [atEdge_eq]

/-- The edge loses no device. -/
@[simp] theorem atEdge_devices_length : (atEdge f s).devices.length = s.devices.length := by
  unfold atEdge
  split <;> simp

/-! ### A step -/

variable {s}

/-- What a step can do: nothing, or what an instruction can do from the state whose queue the step has left as `rest`. -/
theorem step_effect {M : Memory → Prop} {t : State} (h : step s = .next t) (hmem : M s.mem)
    (hwrites : s.params.frontend = .matrix → KeptByWrites s.params.n M) :
    t = s ∨ ∃ rest, (∃ f, t = atEdge f { s with host := rest }) ∨
      s.fault = none ∧ CommandEffect M { s with host := rest } t := by
  rcases step_next h with ⟨k, ks, f, _, rfl⟩ | ⟨_, hfault, rfl | ⟨_, bytes, rest, _, ⟨i, _, hexec⟩ | ⟨r, _, rfl⟩⟩⟩
  · exact .inr ⟨s.host, .inl ⟨f, rfl⟩⟩
  · exact .inl rfl
  · exact .inr ⟨rest, exec_effect hexec hmem fun _ => hwrites⟩
  · exact .inr ⟨rest, .inr ⟨hfault, .refused r⟩⟩

end Sys2Proof.Machine
end

section
/-! PROOFS. What every instruction and every step keeps (spec/10_state.md): the configuration, the marks, the records, the
command index and, but for the matrix commands, the framebuffer. Obligations O26, O54, O55 and O56, each read off the ways
an instruction or a step answers a next state. -/

namespace Sys2Proof.Machine

/-! ### What a halted transaction leaves -/

theorem Halts.params {u t : State} (h : Halts u t) : t.params = u.params := by cases h <;> rfl
theorem Halts.mem {u t : State} (h : Halts u t) : t.mem = u.mem := by cases h <;> rfl
theorem Halts.refused {u t : State} (h : Halts u t) : t.refused = u.refused := by cases h <;> rfl
theorem Halts.refusals {u t : State} (h : Halts u t) : t.refusals = u.refusals := by cases h <;> rfl
theorem Halts.returned {u t : State} (h : Halts u t) : t.returned = u.returned := by cases h <;> rfl

/-- What a halted transaction has recorded stands after the history so far. -/
theorem Halts.history {u t : State} (h : Halts u t) : u.history <+: t.history := by
  cases h <;> simp [duringTransact]

/-- A failure ends the command and counts it; a stall leaves it executing and uncounted (R23, R144, R145). -/
theorem Halts.cmdIndex {u t : State} (h : Halts u t) (hcommand : u.activity = .command) :
    t.cmdIndex = u.cmdIndex + 1 ∨ t.cmdIndex = u.cmdIndex ∧ t.activity = .command := by
  cases h with
  | failed k j bytes => exact .inl (by simp [duringTransact, hcommand])
  | stalled j bytes => exact .inr ⟨rfl, hcommand⟩

/-! ### What a command leaves -/

theorem keptByWrites_true (n : Nat) : KeptByWrites n fun _ => True := fun _ _ _ _ _ _ _ => trivial

theorem CommandEffect.params {M : Memory → Prop} {s t : State} (h : CommandEffect M s t) : t.params = s.params := by
  cases h with
  | refused | returned => rfl
  | completed u _ hrun => exact hrun.params
  | halted u _ _ hrun _ hhalt => exact hhalt.params.trans hrun.params

/-- What holds of the framebuffer throughout a command holds of it in the end. -/
theorem CommandEffect.mem {M : Memory → Prop} {s t : State} (h : CommandEffect M s t) (hmem : M s.mem) : M t.mem := by
  cases h with
  | refused | returned => exact hmem
  | completed u _ _ hu => exact hu
  | halted u _ _ _ hu hhalt => rw [hhalt.mem]; exact hu

/-- A command clears no refused mark. -/
theorem CommandEffect.refused_stays {M : Memory → Prop} {s t : State} (h : CommandEffect M s t) (hmark : s.refused = true) :
    t.refused = true := by
  cases h with
  | refused => rfl
  | returned => exact hmark
  | completed u _ hrun => exact hrun.refused.trans hmark
  | halted u _ _ hrun _ hhalt => exact hhalt.refused.trans (hrun.refused.trans hmark)

theorem CommandEffect.history {M : Memory → Prop} {s t : State} (h : CommandEffect M s t) : s.history <+: t.history := by
  cases h with
  | refused | returned => exact List.prefix_rfl
  | completed u _ hrun => exact hrun.history
  | halted u _ _ hrun _ hhalt => exact hrun.history.trans hhalt.history

theorem CommandEffect.statuses {M : Memory → Prop} {s t : State} (h : CommandEffect M s t) :
    s.returned <+: t.returned := by
  cases h with
  | refused => exact List.prefix_rfl
  | returned => exact List.prefix_append _ _
  | completed u _ hrun =>
    rw [complete_returned, hrun.returned]
    exact List.prefix_append _ _
  | halted u _ _ hrun _ hhalt =>
    rw [hhalt.returned, hrun.returned]
    exact List.prefix_rfl

theorem CommandEffect.refusals {M : Memory → Prop} {s t : State} (h : CommandEffect M s t) :
    s.refusals <+: t.refusals := by
  cases h with
  | refused => exact List.prefix_append _ _
  | returned => exact List.prefix_rfl
  | completed u _ hrun =>
    rw [complete_refusals, hrun.refusals]
    exact List.prefix_rfl
  | halted u _ _ hrun _ hhalt =>
    rw [hhalt.refusals, hrun.refusals]
    exact List.prefix_rfl

/-- Every command counts but one that a stall leaves executing. -/
theorem CommandEffect.cmdIndex {M : Memory → Prop} {s t : State} (h : CommandEffect M s t) :
    t.cmdIndex = s.cmdIndex + 1 ∨ t.cmdIndex = s.cmdIndex ∧ t.activity = .command ∧ s.activity = .idle := by
  cases h with
  | refused | returned => exact .inl rfl
  | completed u _ hrun => exact .inl (congrArg (· + 1) hrun.cmdIndex)
  | halted u _ hidle hrun _ hhalt =>
    rcases hhalt.cmdIndex hrun.activity with hcount | ⟨hsame, hexecuting⟩
    · exact .inl (hcount.trans (congrArg (· + 1) hrun.cmdIndex))
    · exact .inr ⟨hsame.trans hrun.cmdIndex, hexecuting, hidle⟩

/-! ### The obligations -/

/-- Settles O26: a command that is no matrix command writes no cell, so "the framebuffer is the one before" holds throughout
it; a frame acts on a device alone. -/
theorem onlyMatrixCommandsWriteFramebuffer : Obligations.OnlyMatrixCommandsWriteFramebuffer := by
  unfold Obligations.OnlyMatrixCommandsWriteFramebuffer
  intro i s t hno h
  rcases exec_effect (M := (· = s.mem)) h rfl (by simp [hno]) with ⟨f, rfl⟩ | ⟨_, heffect⟩
  · exact atEdge_mem f s
  · exact heffect.mem rfl

/-- Settles O54: no way an instruction or a step answers a next state writes the parameters. -/
theorem configurationNeverChanges : Obligations.ConfigurationNeverChanges := by
  unfold Obligations.ConfigurationNeverChanges
  constructor
  · intro i s t h
    rcases exec_effect h trivial (fun _ _ => keptByWrites_true _) with ⟨f, rfl⟩ | ⟨_, heffect⟩
    · exact atEdge_params f s
    · exact heffect.params
  · intro s t h
    rcases step_effect h trivial (fun _ => keptByWrites_true _) with rfl | ⟨rest, ⟨f, rfl⟩ | ⟨_, heffect⟩⟩
    · rfl
    · exact atEdge_params f _
    · exact heffect.params

/-- Settles O55: with a fault recorded a step only latches, and every other step appends to the records. -/
theorem marksAndHistoryOnlyGrow : Obligations.MarksAndHistoryOnlyGrow := by
  unfold Obligations.MarksAndHistoryOnlyGrow
  intro s t h
  rcases step_effect h trivial (fun _ => keptByWrites_true _) with rfl | ⟨rest, ⟨f, rfl⟩ | ⟨hfault, heffect⟩⟩
  · exact ⟨fun _ hr => hr, id, List.prefix_rfl, List.prefix_rfl, List.prefix_rfl⟩
  · simp
  · exact ⟨fun r hr => by simp [hfault] at hr, heffect.refused_stays, heffect.history, heffect.statuses,
      heffect.refusals⟩

/-- Settles O56: what `CommandEffect.cmdIndex` says of the ways a command ends. -/
theorem commandIndexCounts : Obligations.CommandIndexCounts := by
  unfold Obligations.CommandIndexCounts
  intro i s t hcommand h
  obtain ⟨_, heffect⟩ := command_effect hcommand h trivial (fun _ _ => keptByWrites_true _)
  exact heffect.cmdIndex

end Sys2Proof.Machine
end

section
/-! PROOFS. The machine's invariant `Inv`: it is what holds between two transactions (`BetweenTransactions`) together with
how a transaction can end. Obligation O47, and what construction needs of it. -/

namespace Sys2Proof.Machine

/-! ### Between two transactions -/

/-- The invariant where no transaction is under way: between commands with no fault recorded, and within a command's
pseudocode, whatever is executing. -/
structure BetweenTransactions (s : State) : Prop where
  legal : s.params.Legal
  devices : s.devices.length = s.params.n
  latching : ∀ k ∈ s.latching, k < s.params.n
  framebuffer : FramebufferInv s
  quiet : Quiet s
  fault : s.fault = none
  live : s.params.transportLive = true → Answer.stall ∉ s.transport
  refused : s.refused = !s.refusals.isEmpty

/-- Between commands it is the invariant. -/
theorem BetweenTransactions.inv {s : State} (h : BetweenTransactions s) (hidle : s.activity = .idle) : Inv s :=
  ⟨h.legal, h.devices, h.latching, h.framebuffer,
    ⟨fun _ => ⟨h.quiet.1, fun _ => h.quiet.2⟩, fun hbusy => absurd hidle hbusy⟩,
    fun hlive => ⟨hidle, h.live hlive⟩, h.refused⟩

theorem Inv.betweenTransactions {s : State} (h : Inv s) (hidle : s.activity = .idle) (hfault : s.fault = none) :
    BetweenTransactions s := by
  obtain ⟨hlegal, hdevices, hlatching, hframebuffer, ⟨hfree, _⟩, hlive, hrefused⟩ := h
  obtain ⟨hbus, hline⟩ := hfree hidle
  exact ⟨hlegal, hdevices, hlatching, hframebuffer, ⟨hbus, hline hfault⟩, hfault, fun hl => (hlive hl).2, hrefused⟩

/-- Beginning a command changes nothing that it speaks of. -/
theorem BetweenTransactions.start {s : State} (h : BetweenTransactions s) : BetweenTransactions (start s) := { h with }

/-- Nor does returning a status. -/
theorem BetweenTransactions.complete {s : State} (h : BetweenTransactions s) (status : Status) :
    BetweenTransactions (complete status s) := { h with }

/-- Completed transactions and writes of cells keep it, if the writes keep the framebuffer's part. -/
theorem BetweenTransactions.continues {s u : State} (h : BetweenTransactions s) (hrun : Continues s u)
    (hframebuffer : FramebufferInv u) : BetweenTransactions u where
  legal := hrun.params ▸ h.legal
  devices := by rw [hrun.devices, hrun.params, h.devices]
  latching := by rw [hrun.latching, hrun.params]; exact h.latching
  framebuffer := hframebuffer
  quiet := hrun.quiet h.quiet
  fault := hrun.fault.trans h.fault
  live := by
    rw [hrun.params]
    exact fun hlive hmem => h.live hlive (hrun.transport.subset hmem)
  refused := by rw [hrun.refused, hrun.refusals, h.refused]

/-! ### How a transaction ends a command -/

/-- A failure leaves the bus free with the fault on record; a stall, which a live transport never answers, leaves the bus
owned and the line low (R144, R145). -/
theorem BetweenTransactions.halts {u t : State} (h : BetweenTransactions u) (hbusy : u.activity ≠ .idle)
    (hhalt : Halts u t) : Inv t := by
  cases hhalt with
  | failed k j bytes =>
    refine ⟨h.legal, by simpa [duringTransact] using h.devices, h.latching, h.framebuffer,
      ⟨fun _ => ⟨rfl, fun hnone => ?_⟩, fun hne => absurd rfl hne⟩,
      fun hlive => ⟨rfl, fun hmem => h.live hlive (List.mem_of_mem_drop hmem)⟩, h.refused⟩
    rw [raiseTransport_fault (duringTransact bytes (j + 1) u) k j h.fault] at hnone
    cases hnone
  | stalled j bytes _ _ hstall =>
    refine ⟨h.legal, by simpa [duringTransact] using h.devices, h.latching, h.framebuffer,
      ⟨fun hidle => absurd hidle hbusy, fun _ => ⟨rfl, rfl, h.fault⟩⟩,
      fun hlive => absurd (List.mem_of_getElem? hstall) (h.live hlive), h.refused⟩

/-! ### The framebuffer's part -/

/-- `FramebufferInv` of these parameters, as a property of the framebuffer alone. -/
def FramebufferFits (p : Params) (m : Memory) : Prop :=
  Memory.wf m = true ∧ (∀ c ∈ m, c.1 < 8 * p.n) ∧ (p.frontend ≠ .matrix → m = [])

theorem framebufferInv_iff (s : State) : FramebufferInv s ↔ FramebufferFits s.params s.mem := Iff.rfl

/-- A matrix command's writes keep it: they name cells that exist, for device 0 exists too (R21, R45). -/
theorem framebufferFits_keptByWrites {p : Params} (hlegal : p.Legal) (hmatrix : p.frontend = .matrix) :
    KeptByWrites p.n (FramebufferFits p) := by
  obtain ⟨hn, _⟩ := hlegal
  rintro m row d v hrow hd ⟨hwf, hcells, _⟩
  have hcell : cellAddr row d < 8 * p.n := by unfold cellAddr; omega
  exact ⟨memWrite_wf hwf, memWrite_keys (P := (· < 8 * p.n)) hcells hcell, fun hne => absurd hmatrix hne⟩

/-! ### Every way a step answers keeps the invariant -/

theorem Inv.refuse {s : State} (h : Inv s) (r : RefuseReason) : Inv (refuse r s) := by
  obtain ⟨hlegal, hdevices, hlatching, hframebuffer, hbus, hlive, _⟩ := h
  exact ⟨hlegal, hdevices, hlatching, hframebuffer, hbus, hlive, by simp⟩

/-- Taking a byte string off the host's queue. -/
theorem Inv.takeCommand {s : State} (h : Inv s) (rest : List (List Byte)) : Inv { s with host := rest } := h

/-- The edge latches a device that exists and loses none. -/
theorem Inv.atEdge {s : State} (h : Inv s) (f : Device → Device) : Inv (atEdge f s) := by
  obtain ⟨hlegal, hdevices, hlatching, hframebuffer, hbus, hlive, hrefused⟩ := h
  rw [atEdge_eq]
  exact ⟨hlegal, (atEdge_devices_length f s).trans hdevices, fun k hk => hlatching k (List.mem_of_mem_tail hk),
    hframebuffer, hbus, hlive, hrefused⟩

/-- Where a command's pseudocode has got to, the invariant between transactions holds. -/
theorem Inv.running {s u : State} (h : Inv s) (hidle : s.activity = .idle) (hfault : s.fault = none)
    (hrun : Continues (start s) u) (hmem : FramebufferFits s.params u.mem) : BetweenTransactions u :=
  (h.betweenTransactions hidle hfault).start.continues hrun ((framebufferInv_iff u).2 (hrun.params ▸ hmem))

theorem CommandEffect.inv {s t : State} (h : CommandEffect (FramebufferFits s.params) s t) (hfault : s.fault = none)
    (hinv : Inv s) : Inv t := by
  cases h with
  | refused r => exact hinv.refuse r
  | returned status hidle => exact ((hinv.betweenTransactions hidle hfault).complete status).inv rfl
  | completed u hidle hrun hmem => exact ((hinv.running hidle hfault hrun hmem).complete .ok).inv rfl
  | halted u t hidle hrun hmem hhalt =>
    exact (hinv.running hidle hfault hrun hmem).halts (by simp [hrun.activity]) hhalt

/-- Settles O47: a step does nothing, latches (`Inv.atEdge`) or has a command's effect (`CommandEffect.inv`), the
framebuffer fitting the parameters throughout. -/
theorem stepKeepsInv : Obligations.StepKeepsInv := by
  unfold Obligations.StepKeepsInv
  intro s t hinv h
  have ⟨hlegal, _, _, hframebuffer, _⟩ := hinv
  rcases step_effect h hframebuffer (framebufferFits_keptByWrites hlegal) with rfl | ⟨rest, ⟨f, rfl⟩ | ⟨hfault, heffect⟩⟩
  · exact hinv
  · exact (hinv.takeCommand rest).atEdge f
  · exact CommandEffect.inv (s := { s with host := rest }) heffect hfault (hinv.takeCommand rest)

end Sys2Proof.Machine
end

section
/-! PROOFS. The brackets of the history (spec/20_memory.md R54, spec/40_core.md R85): what a complete, a failed and a stalled
transaction add to a history of whole transactions, and the complete transactions read back. Obligation O57. -/

namespace Sys2Proof.Machine

/-- A history of whole transactions, each bracketed as it should be. -/
def Bracketed (n : Nat) (es : List Event) : Prop :=
  orderly n .outside es = true ∧ scanEnd .outside es = .outside

/-- Between commands it is the invariant. -/
theorem Bracketed.bracketInv {s : State} (h : Bracketed s.params.n s.history) (hidle : s.activity = .idle) :
    BracketInv s := ⟨h.1, fun _ => h.2, fun hbusy => absurd hidle hbusy⟩

/-- Events that make a history of whole transactions on their own may follow one. -/
theorem Bracketed.append {n : Nat} {es es' : List Event} (h : Bracketed n es) (h' : Bracketed n es') :
    Bracketed n (es ++ es') := by
  obtain ⟨horderly, hend⟩ := h
  exact ⟨by rw [orderly_append, hend, horderly, h'.1]; rfl, by rw [scanEnd_append, hend, h'.2]⟩

/-! ### The bytes of a transaction -/

/-- Bytes gather while the line is low. -/
theorem scanEnd_bytes (acc bytes : List Byte) : scanEnd (.low acc) (bytes.map .byte) = .low (acc ++ bytes) := by
  induction bytes generalizing acc with
  | nil => simp [scanEnd]
  | cons b bytes ih => simpa [scanEnd, scanNext] using ih (acc ++ [b])

/-- Up to two bytes a device may stand there. -/
theorem orderly_bytes (n : Nat) (acc bytes : List Byte) (h : acc.length + bytes.length ≤ 2 * n) :
    orderly n (.low acc) (bytes.map .byte) = true := by
  induction bytes generalizing acc with
  | nil => rfl
  | cons b bytes ih =>
    rw [List.length_cons] at h
    have hroom : acc.length < 2 * n := by omega
    have hrest : (acc ++ [b]).length + bytes.length ≤ 2 * n := by rw [List.length_append, List.length_singleton]; omega
    simp [orderly, scanAllows, scanNext, hroom, ih _ hrest]

/-- The events of a transaction of which these bytes were handed over. -/
def openEvents (bytes : List Byte) : List Event := [.acq, .sel .low] ++ bytes.map .byte

theorem scanEnd_openEvents (bytes : List Byte) : scanEnd .outside (openEvents bytes) = .low bytes := by
  rw [openEvents, scanEnd_append]
  exact scanEnd_bytes [] bytes

theorem orderly_openEvents {n : Nat} {bytes : List Byte} (h : bytes.length ≤ 2 * n) :
    orderly n .outside (openEvents bytes) = true := by
  rw [openEvents, orderly_append]
  exact orderly_bytes n [] bytes (by simpa using h)

/-- A transaction under way after whole ones. -/
theorem Bracketed.openTransaction {n : Nat} {es : List Event} {bytes : List Byte} (h : Bracketed n es)
    (hlen : bytes.length ≤ 2 * n) :
    orderly n .outside (es ++ openEvents bytes) = true ∧ scanEnd .outside (es ++ openEvents bytes) = .low bytes := by
  obtain ⟨horderly, hend⟩ := h
  exact ⟨by rw [orderly_append, horderly, hend, orderly_openEvents hlen]; rfl,
    by rw [scanEnd_append, hend, scanEnd_openEvents]⟩

/-! ### Whole transactions -/

/-- The line rises after exactly `2×N` bytes (R89). -/
theorem bracketed_transactionEvents {n : Nat} {bytes : List Byte} (hlen : bytes.length = 2 * n) :
    Bracketed n (transactionEvents bytes) := by
  have heq : transactionEvents bytes = openEvents bytes ++ [.sel .high, .rel] := rfl
  constructor
  · rw [heq, orderly_append, orderly_openEvents hlen.le, scanEnd_openEvents]
    simp [orderly, scanAllows, scanNext, hlen]
  · rw [heq, scanEnd_append, scanEnd_openEvents]
    rfl

/-- A failed transaction is closed too (R85). -/
theorem bracketed_failedEvents {n : Nat} {bytes : List Byte} (hlen : bytes.length ≤ 2 * n) :
    Bracketed n (openEvents bytes ++ [.xfail, .rel]) := by
  constructor
  · rw [orderly_append, orderly_openEvents hlen, scanEnd_openEvents]
    rfl
  · rw [scanEnd_append, scanEnd_openEvents]
    rfl

/-- Wherever a transaction halts a command, the history stays bracketed, open at most at the transaction that stalled. -/
theorem Halts.bracketInv {u t : State} (hhalt : Halts u t) (hbusy : u.activity ≠ .idle)
    (h : Bracketed u.params.n u.history) : BracketInv t := by
  have htake : ∀ {bytes : List Byte} {j : Nat}, bytes.length = 2 * u.params.n → (bytes.take j).length ≤ 2 * u.params.n :=
    fun hlen => (List.length_take_le' _ _).trans hlen.le
  cases hhalt with
  | failed k j bytes hlen _ =>
    refine Bracketed.bracketInv ?_ rfl
    simpa [duringTransact, openEvents] using h.append (bracketed_failedEvents (htake hlen))
  | stalled j bytes hlen _ _ =>
    have hhistory : (stallTransfer (duringTransact bytes (j + 1) u)).history =
        u.history ++ openEvents (bytes.take (j + 1)) := List.append_assoc _ _ _
    obtain ⟨horderly, hend⟩ := h.openTransaction (htake (j := j + 1) hlen)
    exact ⟨hhistory ▸ horderly, fun hidle => absurd hidle hbusy, fun _ => ⟨_, hhistory ▸ hend⟩⟩

/-! ### Reading complete transactions back -/

/-- Whole transactions are read back in order, wherever they stand (R28). -/
theorem tx_transactions (n : Nat) (txs : List (List Byte)) (hlen : ∀ b ∈ txs, b.length = 2 * n) (sc : Scan) :
    txFrom n sc (txs.flatMap transactionEvents) = txs := by
  induction txs generalizing sc with
  | nil => simp [txFrom]
  | cons b txs ih =>
    obtain ⟨hb, htxs⟩ := List.forall_mem_cons.1 hlen
    rw [List.flatMap_cons, tx_append, tx_transaction n sc b hb, ih htxs]
    rfl

/-- Settles O57: the history is read in two parts, what was there and what the transactions add. -/
theorem completedTransactionsAreOnRecord : Obligations.CompletedTransactionsAreOnRecord := by
  unfold Obligations.CompletedTransactionsAreOnRecord
  intro txs s hlen
  unfold transactions
  rw [afterTransactions_params, afterTransactions_history, tx_append, tx_transactions _ _ hlen]

end Sys2Proof.Machine
end

section
/-! PROOFS. Reset is construction (spec/70_reset_and_hazards.md R159): the values it leaves and that it meets the invariants.
Obligations O48, O50, O51 and O53. -/

namespace Sys2Proof.Machine

variable {p : Params}

/-! ### The initial state -/

/-- The answers of a live transport hold no stall (R86). -/
theorem initial_live (answers : List Answer) (hlive : p.transportLive = true) :
    Answer.stall ∉ (State.initial p answers).transport := by
  simp [State.initial, hlive]

/-- Before construction's SSINIT, and where there is none. -/
theorem betweenTransactions_initial (hlegal : p.Legal) (answers : List Answer) :
    BetweenTransactions (State.initial p answers) where
  legal := hlegal
  devices := List.length_replicate
  latching := fun _ hk => absurd hk List.not_mem_nil
  framebuffer := ⟨rfl, fun _ hc => absurd hc List.not_mem_nil, fun _ => rfl⟩
  quiet := ⟨rfl, rfl⟩
  fault := rfl
  live := initial_live answers
  refused := rfl

theorem inv_initial (hlegal : p.Legal) (answers : List Answer) : Inv (State.initial p answers) :=
  (betweenTransactions_initial hlegal answers).inv rfl

theorem bracketInv_initial (answers : List Answer) : BracketInv (State.initial p answers) :=
  Bracketed.bracketInv ⟨rfl, rfl⟩ rfl

/-- Settles O48: reset is an initial state of legal parameters. -/
theorem resetMeetsTheInvariants : Obligations.ResetMeetsTheInvariants := by
  unfold Obligations.ResetMeetsTheInvariants
  have hlegal : resetParams.Legal := by decide
  exact ⟨inv_initial hlegal [], bracketInv_initial []⟩

/-- Settles O50: the framebuffer lists no cell, and every device is at power-on. -/
theorem resetValues : Obligations.ResetValues := by
  unfold Obligations.ResetValues
  refine ⟨rfl, rfl, rfl, rfl, rfl, rfl, fun row d => rfl, fun dev hdev r => ?_⟩
  have hpower : dev = Device.powerOn := List.eq_of_mem_replicate hdev
  rw [hpower]
  exact regOf_loseRegs r Device.powerOn

/-! ### Construction's SSINIT -/

/-- Where construction runs SSINIT (R159). -/
def constructing (p : Params) (answers : List Answer) : State :=
  { State.initial p answers with activity := .construction }

theorem betweenTransactions_constructing (hlegal : p.Legal) (answers : List Answer) :
    BetweenTransactions (constructing p answers) := { betweenTransactions_initial hlegal answers with }

/-- The bytes of SSINIT on a fresh chain (R109). -/
abbrev initBytes (p : Params) : List Byte := uniSeq p.n decodeAddr p.decodeRaw p.tAll

/-- What construction makes of SSINIT's run: the controller is idle where it completed, and left where it halted. -/
def builtFrom : Run → Construction
  | .go s => .built { s with activity := .idle }
  | .stop s => .built s

theorem construct_of_illegal (hillegal : ¬ p.Legal) (answers : List Answer) :
    construct p answers = .refused (.config p) := if_neg hillegal

theorem construct_of_not_sevenseg (hlegal : p.Legal) (hfrontend : p.frontend ≠ .sevenseg) (answers : List Answer) :
    construct p answers = .built (State.initial p answers) := by
  unfold construct
  rw [if_pos hlegal]
  cases hfe : p.frontend with
  | none | matrix => rfl
  | sevenseg => exact absurd hfe hfrontend

theorem construct_of_sevenseg (hlegal : p.Legal) (hfrontend : p.frontend = .sevenseg) (answers : List Answer) :
    construct p answers = builtFrom (initSegments (constructing p answers)) := by
  unfold construct
  rw [if_pos hlegal, hfrontend]
  rfl

/-- A built state is the initial one, or the one that SSINIT's transaction leaves, complete or halted. -/
theorem construct_built {answers : List Answer} {s : State} (h : construct p answers = .built s) :
    p.Legal ∧ (s = State.initial p answers ∨
      s = { afterTransact (initBytes p) (constructing p answers) with activity := .idle } ∨
      Halts (constructing p answers) s) := by
  by_cases hlegal : p.Legal
  · refine ⟨hlegal, ?_⟩
    by_cases hfrontend : p.frontend = .sevenseg
    · obtain ⟨hgo, hstop⟩ : RunKeeps (· = afterTransact (initBytes p) (constructing p answers))
          (Halts (constructing p answers)) (initSegments (constructing p answers)) :=
        transact_completes_or_halts 0 (uniSeq_length _ _ _ _)
      rw [construct_of_sevenseg hlegal hfrontend] at h
      cases hrun : initSegments (constructing p answers) with
      | go u =>
        rw [hrun, hgo u hrun] at h
        cases h
        exact .inr (.inl rfl)
      | stop u =>
        rw [hrun] at h
        cases h
        exact .inr (.inr (hstop _ hrun))
    · rw [construct_of_not_sevenseg hlegal hfrontend] at h
      cases h
      exact .inl rfl
  · rw [construct_of_illegal hlegal] at h
    cases h

/-- Settles O53: the initial state meets the invariants, and so does what SSINIT's one transaction leaves of it. -/
theorem constructionMeetsTheInvariants : Obligations.ConstructionMeetsTheInvariants := by
  unfold Obligations.ConstructionMeetsTheInvariants
  intro p answers s h
  obtain ⟨hlegal, rfl | rfl | hhalt⟩ := construct_built h
  · exact ⟨inv_initial hlegal answers, bracketInv_initial answers⟩
  · have hbetween : BetweenTransactions (afterTransact (initBytes p) (constructing p answers)) :=
      (betweenTransactions_constructing hlegal answers).continues ((Continues.refl _).afterTransact _)
        (betweenTransactions_initial hlegal answers).framebuffer
    have hbrackets : Bracketed p.n (transactionEvents (initBytes p)) := bracketed_transactionEvents (uniSeq_length _ _ _ _)
    exact ⟨BetweenTransactions.inv { hbetween with } rfl, Bracketed.bracketInv hbrackets rfl⟩
  · have hbusy : (constructing p answers).activity ≠ .idle := by simp [constructing]
    exact ⟨(betweenTransactions_constructing hlegal answers).halts hbusy hhalt, hhalt.bracketInv hbusy ⟨rfl, rfl⟩⟩

/-! ### The values -/

/-- A broadcast reaches every slot of the chain (R81, R82). -/
theorem slotOf_broadcast {n t k : Nat} (hall : n ≤ t) (hk : k < n) (r v : Byte) :
    slotOf (uniSeq n r v t) k = some (frameOf r v) := by
  have hresolve : resolve n t = .all := if_pos (.inr hall)
  rw [slotOf_uniSeq n r v t k hk, if_pos (.inl hresolve)]

/-- A broadcast to a fresh chain leaves every device alike. -/
theorem latchBytes_broadcast {n t : Nat} (hall : n ≤ t) (r : DevReg) (v : Byte) (dev : Device) :
    latchBytes (uniSeq n (regAddr r) v t) (List.replicate n dev) =
      List.replicate n (writeReg r v { dev with sr := frameOf (regAddr r) v }) := by
  apply List.ext_getElem?
  intro k
  rw [latchBytes_getElem?]
  by_cases hk : k < n
  · simp [hk, slotOf_broadcast hall hk, latchDevice_slot, applyFrame_regAddr]
  · simp [hk]

/-- Settles O51: construction's three outcomes; SSINIT is one broadcast of `DECODE_RAW` to a chain at power-on. -/
theorem constructionValues : Obligations.ConstructionValues := by
  unfold Obligations.ConstructionValues
  intro p answers
  refine ⟨fun hillegal => construct_of_illegal hillegal answers,
    fun hlegal hfrontend => construct_of_not_sevenseg hlegal hfrontend answers, fun hlegal hfrontend hok => ?_⟩
  have hlen : (initBytes p).length = 2 * p.n := uniSeq_length _ _ _ _
  have hrun : initSegments (constructing p answers) = .go (afterTransact (initBytes p) (constructing p answers)) :=
    transact_ok (s := constructing p answers) (hlen ▸ hok)
  have hdevices : latchBytes (initBytes p) (List.replicate p.n Device.powerOn) =
      List.replicate p.n { Device.powerOn with decode := some p.decodeRaw, sr := frameOf 0x09 p.decodeRaw } :=
    latchBytes_broadcast hlegal.2.1 .decode p.decodeRaw Device.powerOn
  rw [construct_of_sevenseg hlegal hfrontend, hrun, ← hdevices, ← hlen]
  rfl

end Sys2Proof.Machine
end

section
/-! PROOFS. No command reads a device (spec/10_state.md R33, spec/43_wire_frames.md R137): taking the devices away first
changes nothing in a command's outcome but the devices. Obligation O58. -/

namespace Sys2Proof.Machine

/-- The state with its devices taken away. -/
def forget (s : State) : State := { s with devices := [] }

/-- The run with the devices taken away where it has got to. -/
def forgetRun : Run → Run
  | .go s => .go (forget s)
  | .stop s => .stop (forget s)

/-- The pseudocode goes the same way whatever the devices hold. -/
def BlindRun (f : State → Run) : Prop := ∀ s, forgetRun (f s) = forgetRun (f (forget s))

/-- The outcome is the same whatever the devices hold. -/
def BlindResult (f : State → Result) : Prop := ∀ s, withoutDevices (f s) = withoutDevices (f (forget s))

/-! ### A transaction, a loop -/

/-- How a transaction ends is the transport's answer alone (R86). -/
theorem blindRun_transact (k : Nat) (bytes : List Byte) : BlindRun (transact k bytes) := by
  intro s
  rcases transact_cases k bytes s with ⟨hok, heq⟩ | ⟨j, hj, hok, hfail, heq⟩ | ⟨j, hj, hok, hstall, heq⟩
  · rw [heq, transact_ok (s := forget s) hok]
    rfl
  · rw [heq, transact_fail (s := forget s) hj hok hfail]
    rfl
  · rw [heq, transact_stall (s := forget s) hj hok hstall]
    rfl

/-- So too where the bytes are read from the state, but not from its devices. -/
theorem blindRun_transactOf (k : Nat) {bytes : State → List Byte} (hbytes : ∀ s, bytes (forget s) = bytes s) :
    BlindRun fun s => transact k (bytes s) s := fun s => by
  simpa only [hbytes] using blindRun_transact k (bytes s) s

theorem BlindRun.andThen {f g : State → Run} (hf : BlindRun f) (hg : BlindRun g) :
    BlindRun fun s => andThen (f s) g := by
  intro s
  have hs := hf s
  change forgetRun (Machine.andThen (f s) g) = forgetRun (Machine.andThen (f (forget s)) g)
  cases hrun : f s <;> cases hrun' : f (forget s) <;> rw [hrun, hrun'] at hs
  case go.go u u' =>
    have hforget : forget u = forget u' := Run.go.inj hs
    calc forgetRun (g u) = forgetRun (g (forget u)) := hg u
      _ = forgetRun (g (forget u')) := by rw [hforget]
      _ = forgetRun (g u') := (hg u').symm
  case stop.stop => exact hs
  case go.stop | stop.go => cases hs

theorem BlindRun.forEach {f : Nat → State → Run} (hf : ∀ k, BlindRun (f k)) (ks : List Nat) :
    BlindRun (forEach ks f) := by
  induction ks with
  | nil => exact fun _ => rfl
  | cons k ks ih => exact (hf k).andThen ih

/-- What is done first may change the state, but takes no part of it from the devices. -/
theorem BlindRun.after {f : State → Run} {g : State → State} (hf : BlindRun f)
    (hg : ∀ s, g (forget s) = forget (g s)) : BlindRun fun s => f (g s) := fun s => by
  simpa only [hg] using hf (g s)

/-! ### The framebuffer -/

theorem writeRow_forget (row : Nat) (v : Nat → Byte) (s : State) : writeRow row v (forget s) = forget (writeRow row v s) :=
  List.foldl_hom forget fun _ _ => rfl

theorem clearCells_forget (s : State) : clearCells (forget s) = forget (clearCells s) :=
  List.foldl_hom forget fun s row => writeRow_forget row _ s

theorem blindRun_pushRow (k row : Nat) : BlindRun (pushRow k row) := blindRun_transactOf k fun _ => rfl

/-! ### A command -/

/-- Returning a status, or nothing where the run stopped. -/
theorem withoutDevices_finish (r : Run) : withoutDevices (finish r) = withoutDevices (finish (forgetRun r)) := by
  cases r <;> rfl

/-- A command that runs its pseudocode. -/
theorem BlindRun.finish {f : State → Run} (hf : BlindRun f) : BlindResult fun s => finish (f (start s)) := by
  intro s
  have hrun : forgetRun (f (start s)) = forgetRun (f (start (forget s))) := hf (start s)
  change withoutDevices (Machine.finish (f (start s))) = withoutDevices (Machine.finish (f (start (forget s))))
  rw [withoutDevices_finish, hrun, ← withoutDevices_finish]

theorem BlindRun.ifInRange {f : State → Run} (hf : BlindRun f) (inRange : Bool) : BlindResult (ifInRange inRange f) := by
  cases inRange with
  | true => exact hf.finish
  | false => exact fun _ => rfl

/-- A choice that no device takes part in. -/
theorem BlindResult.ite {c : State → Prop} [∀ s, Decidable (c s)] {f g : State → Result} (hc : ∀ s, c (forget s) ↔ c s)
    (hf : BlindResult f) (hg : BlindResult g) : BlindResult fun s => if c s then f s else g s := by
  intro s
  by_cases h : c s
  · simpa only [hc, h, if_true] using hf s
  · simpa only [hc, h, if_false] using hg s

/-- Acceptance reads the marks and the parameters (R148). -/
theorem BlindResult.accept {f : State → Result} (hf : BlindResult f) (need : Frontend) (op : Nat) :
    BlindResult (accept need op f) :=
  .ite (c := fun s => s.fault.isSome) (fun _ => .rfl) (fun _ => rfl) <|
    .ite (c := fun s => s.activity ≠ .idle) (fun _ => .rfl) (fun _ => rfl) <|
      .ite (c := fun s => need ≠ .none ∧ need ≠ s.params.frontend) (fun _ => .rfl) (fun _ => rfl) hf

/-- A single-value write reads the chain length. -/
theorem blindRun_uniSeq (k : Nat) (r v : Byte) (t : Nat) : BlindRun fun s => transact k (uniSeq s.params.n r v t) s :=
  blindRun_transactOf k fun _ => rfl

/-- MXCOL's rounds: a bit is updated, then its row is pushed. -/
theorem blindRun_setCol (col : Nat) (cmask : Byte) : BlindRun (setCol col cmask) :=
  .forEach (fun row => (blindRun_pushRow row row).after
    (g := updateBit row (col / 8) (col % 8) (cmask.getLsbD row)) fun _ => rfl) _

/-- SSHEX reads the table and the chain length. -/
theorem blindResult_sshex (digit hexval : Byte) (tgt : Nat) : BlindResult (execSshex digit hexval tgt) := by
  refine BlindResult.accept (.ite (fun _ => .rfl) (fun _ => rfl) fun s => ?_) _ _
  have hparams : (forget s).params = s.params := rfl
  rw [hparams]
  cases hpattern : s.params.hexTable[hexIndex hexval]? with
  | none => rfl
  | some pattern => exact (blindRun_uniSeq 0 _ pattern tgt).finish s

theorem blindResult_exec {i : Instr} (hcommand : i.isFrame = false) : BlindResult (exec i) := by
  cases i with
  | wrreg reg val tgt => exact (blindRun_uniSeq 0 reg val tgt).finish.accept _ _
  | wrall reg payload =>
    exact .accept (.ite (fun _ => .rfl) (blindRun_transact 0 _).finish fun _ => rfl) _ _
  | mxclr => exact ((BlindRun.forEach (fun row => blindRun_pushRow row row) _).after clearCells_forget).finish.accept _ _
  | mxrow row rmask => exact (((blindRun_pushRow _ _).after (writeRow_forget _ _)).ifInRange _).accept _ _
  | mxcol col cmask =>
    exact .accept (fun s => (blindRun_setCol col.toNat cmask).ifInRange (decide (col.toNat < 8 * s.params.n)) s) _ _
  | mxled row col led =>
    exact (((blindRun_pushRow _ _).after
      (g := updateBit row.toNat (col.toNat / 8) (col.toNat % 8) led) fun _ => rfl).ifInRange _).accept _ _
  | ssinit =>
    exact (blindRun_transactOf 0 (bytes := fun s => uniSeq s.params.n decodeAddr s.params.decodeRaw s.params.tAll)
      fun _ => rfl).finish.accept _ _
  | ssclr =>
    exact (BlindRun.forEach (fun k => blindRun_transactOf k
      (bytes := fun s => uniSeq s.params.n (digitAddr k) 0x00 s.params.tAll) fun _ => rfl) _).finish.accept _ _
  | sshex digit hexval tgt => exact blindResult_sshex digit hexval tgt
  | _ => simp [Instr.isFrame] at hcommand

/-- Settles O58: the two states are one when their devices are taken away, and a command is blind to those. -/
theorem noCommandReadsADevice : Obligations.NoCommandReadsADevice := by
  unfold Obligations.NoCommandReadsADevice
  intro i s devices hcommand
  calc withoutDevices (exec i { s with devices := devices }) = withoutDevices (exec i (forget s)) :=
        blindResult_exec hcommand { s with devices := devices }
    _ = withoutDevices (exec i s) := (blindResult_exec hcommand s).symm

end Sys2Proof.Machine
end

section
/-! PROOFS. A refused byte string, the views of a device's registers and the host's reads (spec/10_state.md, spec/20_memory.md,
spec/60_exceptions.md R146). Obligations O9, O46 and O59. -/

namespace Sys2Proof.Machine

/-! ### A byte string that does not decode -/

/-- It leaves the queue and is refused for the decoder's reason (R146). -/
theorem stepCommand_of_refused {s : State} {bytes : List Byte} {rest : List (List Byte)} {r : RefuseReason}
    (hhost : s.host = bytes :: rest) (hdecode : decode s.params bytes = .error r) :
    stepCommand s = .next (refuse r { s with host := rest }) := by
  simp only [stepCommand, hhost, hdecode]

/-- Settles O9: the step is the host's, and the decoder's answer is a refusal. -/
theorem stepRefusesWhatDoesNotDecode : Obligations.StepRefusesWhatDoesNotDecode := by
  unfold Obligations.StepRefusesWhatDoesNotDecode
  intro s bytes rest r hlatch hfault hidle hhost hdecode
  calc step s = stepCommand s := step_of_idle hlatch hfault hidle
    _ = .next (refuse r { s with host := rest }) := stepCommand_of_refused hhost hdecode

/-! ### The views of a device's registers -/

/-- The level is the low nibble of what the intensity register holds (R129). -/
theorem levelOf_eq (dev : Device) : levelOf dev = (regOf .intensity dev).map (· &&& 0x0F) := rfl

/-- Two devices whose shutdown registers hold the same are in the same power state: the free power state of another byte is
a function of the byte (log entry 18). -/
theorem powerOf_congr {dev dev' : Device} (h : regOf .shutdown dev = regOf .shutdown dev') : powerOf dev = powerOf dev' := by
  have hshutdown : dev.shutdown = dev'.shutdown := h
  simp only [powerOf, hshutdown]

/-- Settles O46: a view reads one register, and a write of a register is read back there and nowhere else
(`regOf_writeReg`). -/
theorem levelAndPowerOfADevice : Obligations.LevelAndPowerOfADevice := by
  unfold Obligations.LevelAndPowerOfADevice
  intro dev d
  refine ⟨?_, rfl, rfl, fun r hr => powerOf_congr ?_⟩
  · rw [levelOf_eq, regOf_writeReg, if_pos rfl]
    rfl
  · rw [regOf_writeReg, if_neg hr.symm]

/-! ### The host's reads -/

/-- A device register is observed where the device exists and the register holds a value (R35, R41). -/
theorem observeReg_of_device {s : State} {k : Nat} {dev : Device} (hdev : s.devices[k]? = some dev) (r : DevReg) :
    observeReg k r s = (regOf r dev).elim (.error .noValue) .ok := by
  unfold observeReg
  rw [hdev]
  cases hreg : regOf r dev <;> simp [hreg]

/-- Settles O59: the host's read is one choice on whether the cell exists, and the observation follows
`observeReg_of_device`. -/
theorem readsOfTheHost : Obligations.ReadsOfTheHost := by
  unfold Obligations.ReadsOfTheHost
  refine ⟨fun s row d hmatrix hrow hd => if_pos ⟨hmatrix, hrow, hd⟩, fun s row d habsent => if_neg ?_, ?_, ?_⟩
  · rintro ⟨hmatrix, hrow, hd⟩
    rcases habsent with hfrontend | hrow' | hd'
    · exact hfrontend hmatrix
    · omega
    · omega
  · intro s k r v hholds
    obtain ⟨dev, hdev, hreg⟩ := Option.bind_eq_some_iff.1 hholds
    rw [observeReg_of_device hdev, hreg]
    rfl
  · intro s k r dev hdev hreg
    rw [observeReg_of_device hdev, hreg]
    rfl

end Sys2Proof.Machine
end

section
/-! PROOFS. Every step keeps the history bracketed (spec/20_memory.md R54, spec/40_core.md R85, R89). Obligation O49. -/

namespace Sys2Proof.Machine

/-- Where the command issued in `s` has got to when no transaction is under way: its history is of whole transactions. -/
structure BracketedRun (s u : State) : Prop where
  params : u.params = s.params
  activity : u.activity = .command
  history : Bracketed s.params.n u.history

/-- An idle controller's history is of whole transactions, so a command starts from there. -/
theorem BracketInv.start {s : State} (h : BracketInv s) (hidle : s.activity = .idle) : BracketedRun s (start s) := by
  obtain ⟨horderly, hend, _⟩ := h
  exact ⟨rfl, rfl, horderly, hend hidle⟩

/-- Returning a status closes no bracket and opens none. -/
theorem BracketedRun.complete {s u : State} (h : BracketedRun s u) (status : Status) :
    BracketInv (complete status u) :=
  Bracketed.bracketInv (s := Machine.complete status u) (by rw [complete_params, h.params]; exact h.history) rfl

/-- A transaction of whole chain length leaves the history of whole transactions, or halts the command with the history
open at most at the transaction that stalled. -/
theorem BracketedRun.transact {s u : State} (h : BracketedRun s u) (k : Nat) {bytes : List Byte}
    (hlen : bytes.length = 2 * s.params.n) : RunKeeps (BracketedRun s) BracketInv (transact k bytes u) := by
  obtain ⟨hgo, hstop⟩ := transact_completes_or_halts (u := u) k (by rw [h.params, hlen])
  constructor
  · intro v hv
    rw [hgo v hv]
    exact ⟨h.params, h.activity, h.history.append (bracketed_transactionEvents hlen)⟩
  · intro v hv
    exact (hstop v hv).bracketInv (by simp [h.activity]) (by rw [h.params]; exact h.history)

/-- A command given to an idle controller keeps the brackets, whichever way it ends. -/
theorem command_bracketInv {i : Instr} {s t : State} (hcommand : i.isFrame = false) (hidle : s.activity = .idle)
    (hs : BracketInv s) (h : exec i s = .next t) : BracketInv t := by
  obtain ⟨_, ⟨r, rfl⟩ | ⟨_, (rfl | rfl) | ⟨u, hu, rfl⟩ | ht⟩⟩ := command_induction (P := BracketedRun s) (Q := BracketInv)
    hcommand h (BracketInv.start hs hidle) (fun _ hu => hu.params) (fun _ _ _ _ _ _ _ _ hu => { hu with })
    (fun _ k _ hlen hu => hu.transact k hlen)
  · exact hs
  · exact (BracketInv.start hs hidle).complete .ok
  · exact (BracketInv.start hs hidle).complete .fail
  · exact hu.complete .ok
  · exact ht

/-- The edge taken device by device records no event. -/
theorem BracketInv.atEdge {s : State} (h : BracketInv s) (f : Device → Device) : BracketInv (atEdge f s) := by
  rw [atEdge_eq]
  exact h

/-- An instruction keeps the brackets: a frame acts at the edge, and a command as `command_bracketInv` says. -/
theorem exec_bracketInv {i : Instr} {s t : State} (hidle : s.activity = .idle) (hs : BracketInv s)
    (h : exec i s = .next t) : BracketInv t := by
  cases hframe : i.isFrame with
  | true =>
    obtain ⟨f, hf⟩ := exec_frame hframe s
    rw [hf] at h
    cases h
    exact BracketInv.atEdge hs f
  | false => exact command_bracketInv hframe hidle hs h

/-- Settles O49: a step latches, does nothing, runs an instruction (`exec_bracketInv`) or refuses a byte string, which
adds nothing to the history. -/
theorem stepKeepsBrackets : Obligations.StepKeepsBrackets := by
  unfold Obligations.StepKeepsBrackets
  intro s t hs h
  rcases step_next h with ⟨_, _, f, _, rfl⟩ | ⟨_, _, rfl | ⟨hidle, _, rest, _, ⟨i, _, hexec⟩ | ⟨r, _, rfl⟩⟩⟩
  · exact BracketInv.atEdge hs f
  · exact hs
  · exact exec_bracketInv (s := { s with host := rest }) hidle hs hexec
  · exact hs

end Sys2Proof.Machine
end

section
/-! PROOFS. What MXROW and MXCOL write and push (spec/20_memory.md R49, R50, spec/41_matrix.md R96, R98, R99): the row or the
column in closed form, from the laws of the loops. Obligations O19 and O20. -/

namespace Sys2Proof.Machine

/-- A ready controller with the MATRIX front-end runs a matrix command. -/
theorem accept_matrix {op : Nat} {body : State → Result} {s : State} (hready : Ready s)
    (hmatrix : s.params.frontend = .matrix) : accept .matrix op body s = body s := by
  obtain ⟨hfault, hidle, _⟩ := hready
  exact accept_ready hfault hidle (.inr hmatrix.symm)

/-- Settles O19: the row is written (`writeRow_spec`), so the push (`pushRow_quiet`) sends the mask's bytes. -/
theorem mxrowWritesAndPushesItsRow : Obligations.MxrowWritesAndPushesItsRow := by
  unfold Obligations.MxrowWritesAndPushesItsRow
  intro s row rmask hready hmatrix ⟨hwf, _⟩ hok hrow
  have ⟨_, hidle, hquiet⟩ := hready
  obtain ⟨m, hwrite, _, hrowcells, hothers, _⟩ := writeRow_spec row.toNat (maskByte rmask) (start s) hwf
  refine ⟨m, ?_, hrowcells, hothers⟩
  have hread : readRow row.toNat { start s with mem := m } = (List.range s.params.n).map (maskByte rmask) :=
    List.map_congr_left fun d hd => hrowcells d (List.mem_range.1 hd)
  have hpush : setRow row.toNat rmask (start s) = .go { afterTransactions
      [paySeq (digitAddr row.toNat) ((List.range s.params.n).map (maskByte rmask))] (start s) with mem := m } := by
    unfold setRow
    rw [hwrite, pushRow_quiet (s := { start s with mem := m }) hquiet hok, hread]
    rfl
  calc exec (.mxrow row rmask) s = ifInRange (row.toNat ≤ 7) (setRow row.toNat rmask) s := accept_matrix hready hmatrix
    _ = finish (setRow row.toNat rmask (start s)) := ifInRange_true (decide_eq_true hrow)
    _ = _ := by rw [hpush, finish_transactions hidle]

/-- Settles O20: the loop in closed form (`forEach_setCol`) and what its framebuffer reads as (`colMemory_spec`). -/
theorem mxcolWritesAndPushesEveryRow : Obligations.MxcolWritesAndPushesEveryRow := by
  unfold Obligations.MxcolWritesAndPushesEveryRow
  intro s col cmask hready hmatrix ⟨hwf, _⟩ hok hcol
  have ⟨_, hidle, hquiet⟩ := hready
  have h8 : ∀ row ∈ List.range 8, row < 8 := fun _ => List.mem_range.1
  obtain ⟨_, hcolumn, hothers, _⟩ :=
    colMemory_spec (col.toNat / 8) (col.toNat % 8) cmask (List.range 8) s.mem hwf List.nodup_range h8
  refine ⟨colMemory (col.toNat / 8) (col.toNat % 8) cmask (List.range 8) s.mem, ?_,
    fun row hrow => hcolumn row (List.mem_range.2 hrow), fun a ha => hothers a fun row hrow => ha row (h8 row hrow)⟩
  have hanswers : AnswersOk ((List.range 8).length * (2 * s.params.n)) (start s) :=
    answersOk_mono (s := start s) hok (by rw [List.length_range]; omega)
  have hloop := forEach_setCol (s := start s) (col.toNat / 8) (col.toNat % 8) cmask (List.range 8) hwf List.nodup_range h8
    hquiet hanswers
  calc exec (.mxcol col cmask) s = ifInRange (col.toNat < 8 * s.params.n) (setCol col.toNat cmask) s :=
        accept_matrix hready hmatrix
    _ = finish (setCol col.toNat cmask (start s)) := ifInRange_true (decide_eq_true hcol)
    _ = _ := by
      unfold setCol
      rw [hloop, finish_transactions hidle]
      rfl

end Sys2Proof.Machine
end

section
/-! PROOFS. The edge taken device by device (spec/20_memory.md R55, spec/43_wire_frames.md R117, R138): each device is latched
once, so the order does not show. Obligation O44. -/

namespace Sys2Proof.Machine

/-- A device that exists applies the frame in its shift register, documented or not (R118, R133). -/
theorem stepFrame_of_device {s : State} {k : Nat} {dev : Device} (hdev : s.devices[k]? = some dev) :
    stepFrame k s = .next (atEdge (applyFrame (frameAddr dev.sr) (frameData dev.sr)) s) := by
  have hframe : frameAt k s = some dev.sr := congrArg (Option.map Device.sr) hdev
  unfold stepFrame
  rw [hframe]
  exact exec_decodeFrame (frameAddr dev.sr) (frameData dev.sr) s

/-- A device that does not exist applies nothing. -/
theorem stepFrame_of_no_device {s : State} {k : Nat} (hdev : s.devices[k]? = none) :
    stepFrame k s = .next (atEdge id s) := by
  have hframe : frameAt k s = none := congrArg (Option.map Device.sr) hdev
  unfold stepFrame
  rw [hframe]
  rfl

/-- The step at an edge latches the device that is next, whatever the frame (R117, R118, R133). -/
theorem step_latches {s : State} {k : Nat} {ks : List Nat} (hlatch : s.latching = k :: ks) :
    step s = .next { s with latching := ks, devices := s.devices.modify k latchDevice } := by
  cases hdev : s.devices[k]? with
  | none =>
    have hsame : s.devices.modify k latchDevice = s.devices.modify k id := by
      rw [List.modify_id, List.modify_eq_self (List.getElem?_eq_none_iff.1 hdev)]
    rw [step_of_latching hlatch, stepFrame_of_no_device hdev, atEdge_cons hlatch, hsame]
  | some dev =>
    have hsame : s.devices.modify k latchDevice =
        s.devices.modify k (applyFrame (frameAddr dev.sr) (frameData dev.sr)) := by
      rw [List.modify_eq_set_getElem?, List.modify_eq_set_getElem?, hdev]
      rfl
    rw [step_of_latching hlatch, stepFrame_of_device hdev, atEdge_cons hlatch, hsame]

/-- One step per device still to latch completes the edge, the devices latched one after another. -/
theorem run_latches (ks : List Nat) (s : State) (hlatch : s.latching = ks) :
    Host.Core.run Sys2Proof.core ks.length s =
      .next { s with latching := [], devices := ks.foldl (fun devices k => devices.modify k latchDevice) s.devices } := by
  induction ks generalizing s with
  | nil =>
    have hdone : s = { s with latching := [] } := by rw [← hlatch]
    exact congrArg _ hdone
  | cons k ks ih =>
    have hstep : Sys2Proof.core.step s = .next { s with latching := ks, devices := s.devices.modify k latchDevice } :=
      step_latches hlatch
    simp only [List.length_cons, Host.Core.run, hstep]
    exact ih { s with latching := ks, devices := s.devices.modify k latchDevice } rfl

/-- Changing entries one after another, none of them twice, changes each listed entry once. -/
theorem getElem?_foldl_modify {α : Type} (f : α → α) {ks : List Nat} (hnodup : ks.Nodup) (xs : List α) (j : Nat) :
    (ks.foldl (fun xs k => xs.modify k f) xs)[j]? = if j ∈ ks then xs[j]?.map f else xs[j]? := by
  induction ks generalizing xs with
  | nil => simp
  | cons k ks ih =>
    obtain ⟨hk, hks⟩ := List.nodup_cons.1 hnodup
    rw [List.foldl_cons, ih hks, List.getElem?_modify]
    by_cases hj : k = j
    · subst hj
      simp [hk]
    · simp [hj, Ne.symm hj]

/-- Changing every entry once, in any order, is changing all at once. -/
theorem foldl_modify_perm_range {α : Type} (f : α → α) {ks : List Nat} {xs : List α}
    (hperm : ks.Perm (List.range xs.length)) : ks.foldl (fun xs k => xs.modify k f) xs = xs.map f := by
  apply List.ext_getElem?
  intro j
  have hnodup : ks.Nodup := hperm.nodup_iff.2 List.nodup_range
  have hmem : j ∈ ks ↔ j < xs.length := hperm.mem_iff.trans List.mem_range
  rw [getElem?_foldl_modify f hnodup, List.getElem?_map]
  by_cases hj : j < xs.length <;> simp [hmem, hj]

/-- Settles O44: the run applies the devices' frames one after another (`run_latches`), each device's once. -/
theorem edgeOrderDoesNotMatter : Obligations.EdgeOrderDoesNotMatter := by
  unfold Obligations.EdgeOrderDoesNotMatter
  intro s ks hperm
  rw [run_latches ks _ rfl, foldl_modify_perm_range latchDevice hperm]

end Sys2Proof.Machine
end

section
/-! PROOFS. The two encodings (spec/30_encoding.md R64 to R76): what a command's opcode says of it, the two directions of the
round trip through the operand fields, the decoder's checks, and the obligations O1, O2, O3, O4 and O5 from them. -/

namespace Sys2Proof

/-! ### What an opcode says -/

/-- An instruction is a command where the opcode map lists it (R66). -/
theorem Instr.isFrame_eq_false_iff {i : Instr} : i.isFrame = false ↔ ∃ op, i.op = some op := by
  cases i <;> simp [Instr.isFrame, Instr.op]

/-- A command needs the front-end that the opcode map gives its op (R66). -/
theorem Instr.opFrontend_op {i : Instr} {op : Nat} (hop : i.op = some op) : opFrontend op = i.frontend := by
  cases i <;> cases hop <;> rfl

/-- The opcode map has nine rows (R66). -/
theorem Instr.op_lt {i : Instr} {op : Nat} (hop : i.op = some op) : op < 9 := by
  cases i <;> cases hop <;> decide

/-- The front-end is there where none is needed or it is the one of the parameters (R66). -/
theorem Instr.frontendPresent_iff {i : Instr} {p : Params} :
    i.frontendPresent p = true ↔ i.frontend = .none ∨ i.frontend = p.frontend := by
  simp [Instr.frontendPresent]

theorem Instr.wellFormed_iff {i : Instr} {p : Params} :
    i.wellFormed p = true ↔ (i.frontend = .none ∨ i.frontend = p.frontend) ∧ i.fieldsFit p = true := by
  simp [Instr.wellFormed, Instr.frontendPresent_iff]

theorem opFrontend_matrix {op : Nat} (hop : 2 ≤ op ∧ op ≤ 5) : opFrontend op = .matrix := by
  simp [opFrontend, show ¬ op < 2 by omega, show op < 6 by omega]

theorem opFrontend_sevenseg {op : Nat} (hop : 6 ≤ op ∧ op ≤ 8) : opFrontend op = .sevenseg := by
  simp [opFrontend, show ¬ op < 2 by omega, show ¬ op < 6 by omega, show op < 9 by omega]

/-- The opcode map's front-end column, read by ranges of ops (R66). -/
theorem opFrontend_available {p : Params} {op : Nat} (hop : op ≤ 8) (hmatrix : 2 ≤ op ∧ op ≤ 5 → p.frontend = .matrix)
    (hsevenseg : 6 ≤ op → p.frontend = .sevenseg) : opFrontend op = .none ∨ opFrontend op = p.frontend := by
  obtain hlow | hmid | hhigh : op < 2 ∨ (2 ≤ op ∧ op ≤ 5) ∨ (6 ≤ op ∧ op ≤ 8) := by omega
  · exact .inl (by simp [opFrontend, hlow])
  · exact .inr (by rw [opFrontend_matrix hmid, hmatrix hmid])
  · exact .inr (by rw [opFrontend_sevenseg hhigh, hsevenseg hhigh.1])

/-! ### The operand fields -/

/-- A number that fits its field comes back from the field's bytes (R65, R67). -/
theorem bytesNat_natBytes_of_lt {c v : Nat} (hv : v < 256 ^ c) : bytesNat (natBytes c v) = v := by
  rw [bytesNat_natBytes, Nat.mod_eq_of_lt hv]

/-- The same, for a field whose width is given in bits. -/
theorem bytesNat_natBytes_fieldBytes {w v : Nat} (hv : v < 2 ^ w) : bytesNat (natBytes (fieldBytes w) v) = v :=
  bytesNat_natBytes_of_lt (hv.trans_le (pow_le_fieldBytes w))

/-- The row mask's `8 * N` bits fill its `N` bytes (R65). -/
theorem pow_maskBits (n : Nat) : 2 ^ (8 * n) = 256 ^ n := pow_mul 2 8 n

/-- A one-bit field's byte is the bit (R65). -/
theorem ledByte_back {b : Byte} (hb : b.toNat < 2) : (if b == 1 then 1 else 0 : Byte) = b := by
  obtain h | h : b.toNat = 0 ∨ b.toNat = 1 := by omega
  · rw [show b = 0 from BitVec.eq_of_toNat_eq h]; rfl
  · rw [show b = 1 from BitVec.eq_of_toNat_eq h]; rfl

/-- A column number's two bytes are the bytes it is put together from (R65). -/
theorem col_bytes (hi lo : Byte) :
    (hi ++ lo : Half).extractLsb' 0 8 = lo ∧ (hi ++ lo : Half).extractLsb' 8 8 = hi :=
  ⟨BitVec.extractLsb'_append_eq_right, BitVec.extractLsb'_append_eq_left⟩

/-- A command whose operands fit is its op's byte and fields that decode to it. -/
theorem decodeFields_encode {p : Params} {i : Instr} {op : Nat} (hop : i.op = some op) (hfit : i.fieldsFit p = true) :
    ∃ fields, encode p i = BitVec.ofNat 8 op :: fields ∧ decodeFields p op fields = some i := by
  cases i <;> cases hop
  case wrreg reg val tgt =>
    have htgt : tgt < 2 ^ p.wT := by simpa [Instr.fieldsFit] using hfit
    exact ⟨_, rfl, by simp [decodeFields, bytesNat_natBytes_fieldBytes htgt, htgt]⟩
  case wrall reg payload => exact ⟨_, rfl, rfl⟩
  case mxclr => exact ⟨_, rfl, rfl⟩
  case mxrow row rmask =>
    have hmask : rmask < 256 ^ p.n := by simpa [Instr.fieldsFit, pow_maskBits] using hfit
    exact ⟨_, rfl, by simp [decodeFields, bytesNat_natBytes_of_lt hmask]⟩
  case mxcol col cmask => exact ⟨_, rfl, by simp [decodeFields, col_back]⟩
  case mxled row col led => exact ⟨_, rfl, by cases led <;> simp [decodeFields, col_back]⟩
  case ssinit => exact ⟨_, rfl, rfl⟩
  case ssclr => exact ⟨_, rfl, rfl⟩
  case sshex digit hexval tgt =>
    have htgt : tgt < 2 ^ p.wT := by simpa [Instr.fieldsFit] using hfit
    exact ⟨_, rfl, by simp [decodeFields, bytesNat_natBytes_fieldBytes htgt, htgt]⟩

/-- A target field is the bytes of the number it decodes to (R65). -/
theorem natBytes_target {p : Params} {tgt : List Byte} (hlen : tgt.length = fieldBytes p.wT) :
    natBytes (fieldBytes p.wT) (bytesNat tgt) = tgt := by
  rw [← hlen, natBytes_bytesNat]

/-- Fields of the op's length that decode are, after the op's byte, the record of the command they decode to, and its
operands fit. -/
theorem encode_of_decodeFields {p : Params} {i : Instr} {op : Nat} {fields : List Byte}
    (hdecode : decodeFields p op fields = some i) (hlen : fields.length + 1 = commandLength p op) :
    encode p i = BitVec.ofNat 8 op :: fields ∧ i.op = some op ∧ i.fieldsFit p = true := by
  unfold decodeFields at hdecode
  split at hdecode
  · -- WRREG
    split at hdecode
    · next reg val tgt =>
      split_ifs at hdecode with htgt
      cases hdecode
      have htgtlen : tgt.length = fieldBytes p.wT := by simp [commandLength] at hlen; omega
      exact ⟨by simp [encode, natBytes_target htgtlen], rfl, by simpa [Instr.fieldsFit] using htgt⟩
    · cases hdecode
  · -- WRALL
    split at hdecode
    · next reg payload =>
      cases hdecode
      have hpayload : payload.length = p.n := by simp [commandLength] at hlen; omega
      exact ⟨rfl, rfl, by simpa [Instr.fieldsFit] using hpayload⟩
    · cases hdecode
  · -- MXCLR
    cases hdecode
    have hnone : fields = [] := by simpa [commandLength] using hlen
    exact ⟨by rw [hnone]; rfl, rfl, rfl⟩
  · -- MXROW
    split at hdecode
    · next row rmask =>
      cases hdecode
      have hmasklen : rmask.length = p.n := by simp [commandLength] at hlen; omega
      have hmask : bytesNat rmask < 2 ^ (8 * p.n) := by rw [pow_maskBits, ← hmasklen]; exact bytesNat_lt rmask
      exact ⟨by simp [encode, ← hmasklen, natBytes_bytesNat], rfl, by simpa [Instr.fieldsFit] using hmask⟩
    · cases hdecode
  · -- MXCOL
    split at hdecode
    · next lo hi cmask =>
      cases hdecode
      exact ⟨by simp [encode, col_bytes], rfl, rfl⟩
    · cases hdecode
  · -- MXLED
    split at hdecode
    · next row lo hi led =>
      split_ifs at hdecode with hled
      cases hdecode
      exact ⟨by simp only [encode, col_bytes, ledByte_back hled]; rfl, rfl, rfl⟩
    · cases hdecode
  · -- SSINIT
    cases hdecode
    have hnone : fields = [] := by simpa [commandLength] using hlen
    exact ⟨by rw [hnone]; rfl, rfl, rfl⟩
  · -- SSCLR
    cases hdecode
    have hnone : fields = [] := by simpa [commandLength] using hlen
    exact ⟨by rw [hnone]; rfl, rfl, rfl⟩
  · -- SSHEX
    split at hdecode
    · next digit hexval tgt =>
      split_ifs at hdecode with htgt
      cases hdecode
      have htgtlen : tgt.length = fieldBytes p.wT := by simp [commandLength] at hlen; omega
      exact ⟨by simp [encode, natBytes_target htgtlen], rfl, by simpa [Instr.fieldsFit] using htgt⟩
    · cases hdecode
  · cases hdecode

/-- A well-formed command's record has its op's length (R65, R76). -/
theorem encode_length_of_op {p : Params} {i : Instr} {op : Nat} (hop : i.op = some op) (hwf : i.wellFormed p = true) :
    (encode p i).length = commandLength p op := by
  cases i <;> cases hop
  case wrreg => exact Laws.EncodeLength.wrreg _ _ _ p hwf
  case wrall => exact Laws.EncodeLength.wrall _ _ p hwf
  case mxclr => exact Laws.EncodeLength.mxclr p hwf
  case mxrow => exact Laws.EncodeLength.mxrow _ _ p hwf
  case mxcol => exact Laws.EncodeLength.mxcol _ _ p hwf
  case mxled => exact Laws.EncodeLength.mxled _ _ _ p hwf
  case ssinit => exact Laws.EncodeLength.ssinit p hwf
  case ssclr => exact Laws.EncodeLength.ssclr p hwf
  case sshex => exact Laws.EncodeLength.sshex _ _ _ p hwf

/-! ### The decoder's checks -/

section Checks

variable {p : Params} {b : Byte} {fields : List Byte}

/-- Past the opcode's own bits: an absent front-end comes before the length (R148). -/
theorem decode_of_absent_frontend (hop : b.toNat < 9) (hneed : opFrontend b.toNat ≠ .none)
    (habsent : opFrontend b.toNat ≠ p.frontend) : decode p (b :: fields) = .error (.noFrontend b.toNat) := by
  rw [decode_cons, if_neg (by omega), if_neg (by omega), if_pos ⟨hneed, habsent⟩]

theorem decode_of_length_ne (hop : b.toNat < 9) (hfrontend : opFrontend b.toNat = .none ∨ opFrontend b.toNat = p.frontend)
    (hlen : (b :: fields).length ≠ commandLength p b.toNat) :
    decode p (b :: fields) = .error (.length (b :: fields).length) := by
  rw [decode_cons, if_neg (by omega), if_neg (by omega), if_neg (by tauto), if_pos hlen]

/-- Past all other checks the fields decide (R148). -/
theorem decode_of_length_eq (hop : b.toNat < 9) (hfrontend : opFrontend b.toNat = .none ∨ opFrontend b.toNat = p.frontend)
    (hlen : (b :: fields).length = commandLength p b.toNat) :
    decode p (b :: fields) = (decodeFields p b.toNat fields).elim (.error (.reservedBits (b :: fields))) .ok := by
  rw [decode_cons, if_neg (by omega), if_neg (by omega), if_neg (by tauto), if_neg (not_not_intro hlen)]
  cases decodeFields p b.toNat fields <;> rfl

/-- A byte string decodes where it passes every check and its fields decode. -/
theorem decode_eq_ok_iff {i : Instr} : decode p (b :: fields) = .ok i ↔
    b.toNat < 9 ∧ (opFrontend b.toNat = .none ∨ opFrontend b.toNat = p.frontend) ∧
      (b :: fields).length = commandLength p b.toNat ∧ decodeFields p b.toNat fields = some i := by
  constructor
  · intro h
    have hchecks := h
    rw [decode_cons] at hchecks
    split_ifs at hchecks with hbits hreserved habsent hne
    have hop : b.toNat < 9 := by omega
    have hfrontend : opFrontend b.toNat = .none ∨ opFrontend b.toNat = p.frontend := by tauto
    have hlen := not_not.1 hne
    rw [decode_of_length_eq hop hfrontend hlen] at h
    cases hfields : decodeFields p b.toNat fields with
    | none => simp [hfields] at h
    | some j => exact ⟨hop, hfrontend, hlen, by simpa [hfields] using h⟩
  · rintro ⟨hop, hfrontend, hlen, hfields⟩
    rw [decode_of_length_eq hop hfrontend hlen, hfields]
    rfl

end Checks

/-! ### Commands -/

/-- Settles O1: the record passes each check of `decode_eq_ok_iff`, and its fields decode back (`decodeFields_encode`). -/
theorem commandDecodesBack : Obligations.CommandDecodesBack := by
  unfold Obligations.CommandDecodesBack
  intro p i hcommand hwf
  obtain ⟨op, hop⟩ := Instr.isFrame_eq_false_iff.1 hcommand
  obtain ⟨hfrontend, hfit⟩ := Instr.wellFormed_iff.1 hwf
  obtain ⟨fields, hencode, hfields⟩ := decodeFields_encode hop hfit
  have hlen := encode_length_of_op hop hwf
  have hbyte : (BitVec.ofNat 8 op).toNat = op := by
    have := Instr.op_lt hop
    simp only [BitVec.toNat_ofNat]
    omega
  rw [hencode] at hlen ⊢
  rw [decode_eq_ok_iff, hbyte, Instr.opFrontend_op hop]
  exact ⟨Instr.op_lt hop, hfrontend, hlen, hfields⟩

/-- Settles O2: a string that decodes passed every check, so its fields are those of the command
(`encode_of_decodeFields`). -/
theorem recordHasOneMeaning : Obligations.RecordHasOneMeaning := by
  unfold Obligations.RecordHasOneMeaning
  intro p bytes i hdecode
  cases bytes with
  | nil => cases hdecode
  | cons b fields =>
    obtain ⟨_, hfrontend, hlen, hfields⟩ := decode_eq_ok_iff.1 hdecode
    obtain ⟨hencode, hop, hfit⟩ := encode_of_decodeFields hfields hlen
    rw [Instr.opFrontend_op hop] at hfrontend
    exact ⟨by simpa using hencode, Instr.isFrame_eq_false_iff.2 ⟨_, hop⟩, Instr.wellFormed_iff.2 ⟨hfrontend, hfit⟩⟩

/-- Settles O4: the checks one after another; a string that passes them all is a record where its fields decode (O2), and
no record where they do not (O1). -/
theorem decodeChecksInOrder : Obligations.DecodeChecksInOrder := by
  unfold Obligations.DecodeChecksInOrder
  intro p b fields
  refine ⟨fun hhigh => ?_, fun hlow hhigh => ?_, ?_, fun hop hmatrix hsevenseg => ⟨?_, fun hlen => ?_⟩⟩
  · rw [decode_cons, if_pos (by omega)]
  · rw [decode_cons, if_neg (by omega), if_pos hlow]
  · rintro (⟨hlow, hhigh, habsent⟩ | ⟨hlow, hhigh, habsent⟩)
    · have hneed := opFrontend_matrix ⟨hlow, hhigh⟩
      exact decode_of_absent_frontend (by omega) (by simp [hneed]) (hneed ▸ habsent.symm)
    · have hneed := opFrontend_sevenseg ⟨hlow, hhigh⟩
      exact decode_of_absent_frontend (by omega) (by simp [hneed]) (hneed ▸ habsent.symm)
  · exact decode_of_length_ne (by omega) (opFrontend_available hop hmatrix hsevenseg)
  · have hdecode := decode_of_length_eq (by omega) (opFrontend_available hop hmatrix hsevenseg) hlen
    cases hfields : decodeFields p b.toNat fields with
    | some i =>
      rw [hfields] at hdecode
      obtain ⟨hencode, hcommand, hwf⟩ := recordHasOneMeaning p _ i hdecode
      exact .inl ⟨i, hwf, hcommand, hencode, hdecode⟩
    | none =>
      rw [hfields] at hdecode
      refine .inr ⟨fun i hwf hcommand hencode => ?_, hdecode⟩
      have hback := commandDecodesBack p i hcommand hwf
      rw [hencode, hdecode] at hback
      cases hback

/-- Settles O5: the five words, each decoded. -/
theorem wordsOfTheTableDecode : Obligations.WordsOfTheTableDecode := by
  unfold Obligations.WordsOfTheTableDecode
  decide

/-! ### Wire frames -/

/-- A frame instruction's two bytes decode to it (R70, R71). -/
theorem decodeFrame_encode (p : Params) {i : Instr} (hframe : i.isFrame = true) :
    ∃ a d : Byte, encode p i = [a, d] ∧ decodeFrame a d = some i := by
  cases i <;> simp only [Instr.isFrame, Bool.false_eq_true] at hframe <;> exact ⟨_, _, rfl, rfl⟩

/-- A pair that decodes is the encoding of the frame it decodes to (R70, R71). -/
theorem encode_of_decodeFrame (p : Params) {a d : Byte} {i : Instr} (hdecode : decodeFrame a d = some i) :
    i.isFrame = true ∧ encode p i = [a, d] := by
  have hbyte : [a, d] = [BitVec.ofNat 8 a.toNat, d] := by simp
  rw [hbyte]
  unfold decodeFrame at hdecode
  split at hdecode
  case h_1 ha =>
    split_ifs at hdecode with hd
    cases hdecode
    exact ⟨rfl, by rw [ha, hd]; rfl⟩
  case h_15 => cases hdecode
  all_goals
    next ha =>
      cases hdecode
      exact ⟨rfl, by rw [ha]; rfl⟩

/-- The undocumented frames by the numbers of their address bytes (R71, R133). -/
theorem undocumented_iff {a d : Byte} : Machine.Undocumented a d ↔
    (a.toNat = 0 ∧ d ≠ 0) ∨ a.toNat = 13 ∨ a.toNat = 14 ∨ 16 ≤ a.toNat := by
  simp [Machine.Undocumented, BitVec.toNat_eq]

/-- The pairs that decode to nothing are the undocumented frames (R133). -/
theorem decodeFrame_eq_none_iff {a d : Byte} : decodeFrame a d = none ↔ Machine.Undocumented a d := by
  rw [undocumented_iff]
  unfold decodeFrame
  split
  case h_1 ha => simp [ha]
  case h_15 =>
    simp only [imp_false] at *
    exact iff_of_true trivial (.inr (by omega))
  all_goals
    next ha => simp [ha]

/-- Settles O3, from the two directions of the round trip and `decodeFrame_eq_none_iff`. -/
theorem frameDecodesBack : Obligations.FrameDecodesBack := by
  unfold Obligations.FrameDecodesBack
  exact ⟨fun p _ => decodeFrame_encode p, fun p _ _ _ => encode_of_decodeFrame p, fun _ _ => decodeFrame_eq_none_iff⟩

end Sys2Proof
end

section
/-! PROOFS. A command of an absent front-end (spec/60_exceptions.md R140, R146, R147): the obligation O33. -/

namespace Sys2Proof.Machine

/-- Each command's meaning begins with its acceptance, for the front-end and the op of the opcode map (R66, R148). -/
theorem exec_eq_accept {i : Instr} {op : Nat} (hop : i.op = some op) (s : State) :
    ∃ body, exec i s = accept i.frontend op body s := by
  cases i <;> cases hop <;>
    simp only [exec, execWrreg, execWrall, execMxclr, execMxrow, execMxcol, execMxled, execSsinit, execSsclr, execSshex] <;>
    exact ⟨_, rfl⟩

/-- An idle controller without the front-end refuses the command (R66, R147). -/
theorem accept_absent {need : Frontend} {op : Nat} {body : State → Result} {s : State} (hfault : s.fault = none)
    (hidle : s.activity = .idle) (hneed : need ≠ .none) (habsent : need ≠ s.params.frontend) :
    accept need op body s = .next (refuse (.noFrontend op) s) := by
  simp [accept, hfault, hidle, hneed, habsent]

/-- A wire frame needs no front-end (R66). -/
theorem frontend_of_isFrame {i : Instr} (hframe : i.isFrame = true) : i.frontend = .none := by
  cases i <;> simp only [Instr.isFrame, Bool.false_eq_true] at hframe <;> rfl

/-- Settles O33: the acceptance of the command (`exec_eq_accept`) refuses it (`accept_absent`). -/
theorem absentFrontendIsRefused : Obligations.AbsentFrontendIsRefused := by
  unfold Obligations.AbsentFrontendIsRefused
  intro i s hfault hidle hlacks
  obtain ⟨hneed, habsent⟩ : i.frontend ≠ .none ∧ i.frontend ≠ s.params.frontend := by
    rw [← not_or, ← Instr.frontendPresent_iff, hlacks]
    exact Bool.false_ne_true
  have hcommand : i.isFrame = false := by
    rw [← Bool.not_eq_true]
    exact fun hframe => hneed (frontend_of_isFrame hframe)
  obtain ⟨op, hop⟩ := Instr.isFrame_eq_false_iff.1 hcommand
  obtain ⟨body, hexec⟩ := exec_eq_accept hop s
  exact ⟨op, hop, hexec.trans (accept_absent hfault hidle hneed habsent)⟩

end Sys2Proof.Machine
end

section
/-! PROOFS. The assembler and the disassembler (spec/30_encoding.md R77 to R79): what the lexer and the operand parser make of
printed words, printed numbers read back, and the obligations O6 and O7. -/

namespace Sys2Proof.Machine

/-! ### Pseudo-instructions -/

/-- Settles O7: the rows of R78's table, the last one by its range of `n`. -/
theorem pseudosExpandToWrreg : Obligations.PseudosExpandToWrreg := by
  unfold Obligations.PseudosExpandToWrreg
  intro p reg v n tgt
  refine ⟨rfl, rfl, rfl, rfl, rfl, rfl, rfl, rfl, fun hn => ?_, fun hn => ?_⟩
  · simp [expand, hn]
  · simp [expand, hn]

/-! ### Words and the lexer -/

/-- The character stands in a word: it is no space, no tab, no comma, no brace and no start of a comment (R77). -/
abbrev WordChar (c : Char) : Prop :=
  c ≠ ';' ∧ ¬ (c = ' ' ∨ c = '\t') ∧ c ≠ ',' ∧ c ≠ openChar ∧ c ≠ closeChar

/-- The characters are a word that the lexer reads as one part of a line. -/
def IsWord (w : List Char) : Prop := w ≠ [] ∧ ∀ c ∈ w, WordChar c

/-- Capital letters are a word: every mnemonic, and `ALL` (R77). -/
theorem isWord_of_isUpper {w : List Char} (hw : w ≠ [] ∧ w.all Char.isUpper = true) : IsWord w := by
  refine ⟨hw.1, fun c hc => ?_⟩
  have hc : c.isUpper = true := List.all_eq_true.1 hw.2 c hc
  refine ⟨?_, ?_, ?_, ?_, ?_⟩
  case refine_2 => rintro (rfl | rfl) <;> revert hc <;> decide
  all_goals rintro rfl; revert hc; decide

/-- A line begins with the end of whatever word comes before it. -/
def EndsWord (line : List Char) : Prop := ∀ acc, lex line acc = flushWord acc ++ lex line []

theorem endsWord_nil : EndsWord [] := fun _ => by simp [lex, flushWord]

theorem endsWord_space (line : List Char) : EndsWord (' ' :: line) := fun _ => by simp [lex, flushWord]

theorem endsWord_comma (line : List Char) : EndsWord (',' :: line) := fun _ => by simp [lex, flushWord]

theorem endsWord_closeChar (line : List Char) : EndsWord (closeChar :: line) := fun _ => by
  simp [lex, flushWord, closeChar, openChar]

/-- The lexer collects the characters of a word. -/
theorem lex_append_of_wordChars {w : List Char} (hw : ∀ c ∈ w, WordChar c) (line acc : List Char) :
    lex (w ++ line) acc = lex line (w.reverse ++ acc) := by
  induction w generalizing acc with
  | nil => rfl
  | cons c w ih =>
    obtain ⟨⟨hcomment, hspace, hcomma, hopen, hclose⟩, hw⟩ := List.forall_mem_cons.1 hw
    rw [List.cons_append, lex, if_neg hcomment, if_neg hspace, if_neg hcomma, if_neg hopen, if_neg hclose, ih hw]
    simp

/-- A word before something that ends it is one part of the line. -/
theorem lex_word_append {w line : List Char} (hw : IsWord w) (hline : EndsWord line) :
    lex (w ++ line) [] = .word w :: lex line [] := by
  obtain ⟨hne, hchars⟩ := hw
  rw [lex_append_of_wordChars hchars, hline]
  simp [flushWord, hne]

theorem lex_word {w : List Char} (hw : IsWord w) : lex w [] = [.word w] := by
  simpa [lex, flushWord] using lex_word_append hw endsWord_nil

theorem lex_word_space {w : List Char} (hw : IsWord w) (line : List Char) :
    lex (w ++ ' ' :: line) [] = .word w :: lex line [] := by
  rw [lex_word_append hw (endsWord_space line)]
  simp [lex, flushWord]

theorem lex_word_separator {w : List Char} (hw : IsWord w) (line : List Char) :
    lex (w ++ (separator ++ line)) [] = .word w :: .comma :: lex line [] := by
  rw [separator, List.cons_append, lex_word_append hw (endsWord_comma _)]
  simp [lex, flushWord]

theorem lex_word_close {w : List Char} (hw : IsWord w) : lex (w ++ [closeChar]) [] = [.word w, .closeBrace] := by
  rw [lex_word_append hw (endsWord_closeChar _)]
  simp [lex, flushWord, closeChar, openChar]

theorem lex_open (line : List Char) : lex (openChar :: line) [] = .openBrace :: lex line [] := by
  simp [lex, flushWord, openChar]

/-! ### Operands -/

/-- Words between separators are read as that many operands (R77). -/
theorem parseOperands_words {ws : List (List Char)} (hne : ws ≠ []) (hws : ∀ w ∈ ws, IsWord w) :
    parseOperands none (lex (separator.intercalate ws) []) = some (ws.map .word) := by
  induction ws with
  | nil => exact absurd rfl hne
  | cons w ws ih =>
    obtain ⟨hw, hws⟩ := List.forall_mem_cons.1 hws
    cases ws with
    | nil => simp [lex_word hw, parseOperands]
    | cons w' ws =>
      rw [List.intercalate_cons_cons, List.append_assoc, lex_word_separator hw, parseOperands, ih (by simp) hws]
      rfl

/-- Words between separators, up to the closing brace, are read as the rest of an open list (R77). -/
theorem parseOperands_list {ws : List (List Char)} (hne : ws ≠ []) (hws : ∀ w ∈ ws, IsWord w) (inside : List (List Char)) :
    parseOperands (some inside) (lex (separator.intercalate ws ++ [closeChar]) []) = some [.list (inside ++ ws)] := by
  induction ws generalizing inside with
  | nil => exact absurd rfl hne
  | cons w ws ih =>
    obtain ⟨hw, hws⟩ := List.forall_mem_cons.1 hws
    cases ws with
    | nil => simp [lex_word_close hw, parseOperands]
    | cons w' ws =>
      rw [List.intercalate_cons_cons, List.append_assoc, List.append_assoc, lex_word_separator hw, parseOperands,
        ih (by simp) hws]
      simp

/-- A line of a mnemonic and operands assembles to the command they name. -/
theorem assembleLine_of_operands {p : Params} {name line : List Char} {ops : List Operand} {i : Instr} (hname : IsWord name)
    (hops : parseOperands none (lex line []) = some ops) (hcommand : commandOf p name ops = some i) :
    assembleLine p (name ++ ' ' :: line) = .command i := by
  rw [assembleLine, lex_word_space hname]
  cases hlex : lex line [] with
  | nil => simp [hlex, parseOperands] at hops
  | cons t ts => simp [← hlex, hops, assembleWords, hcommand]

/-- A line of a mnemonic alone assembles to the command it names. -/
theorem assembleLine_of_name {p : Params} {name : List Char} {i : Instr} (hname : IsWord name)
    (hcommand : commandOf p name [] = some i) : assembleLine p name = .command i := by
  simp [assembleLine, lex_word hname, assembleWords, hcommand]

/-- A line of a mnemonic and words between separators assembles to the command they name. -/
theorem assembleLine_of_words {p : Params} {name : List Char} {ws : List (List Char)} {i : Instr} (hname : IsWord name)
    (hne : ws ≠ []) (hws : ∀ w ∈ ws, IsWord w) (hcommand : commandOf p name (ws.map .word) = some i) :
    assembleLine p (name ++ ' ' :: separator.intercalate ws) = .command i :=
  assembleLine_of_operands hname (parseOperands_words hne hws) hcommand

/-! ### Numbers -/

/-- A hexadecimal digit reads as its value, and stands in a word. -/
theorem digitValue_hexChar : ∀ v < 16, digitValue (hexChar v) = some v ∧ WordChar (hexChar v) := by decide

/-- Hexadecimal digits read as the number's last digits, after what was read before. -/
theorem parseDigits_hexDigits (count v acc : Nat) :
    parseDigits 16 (hexDigits count v) acc = some (16 ^ count * acc + v % 16 ^ count) := by
  induction count generalizing acc with
  | zero => simp [hexDigits, parseDigits, Nat.mod_one]
  | succ count ih =>
    have hdigit : v / 16 ^ count % 16 < 16 := Nat.mod_lt _ (by decide)
    have hsplit : v % 16 ^ (count + 1) = v % 16 ^ count + 16 ^ count * (v / 16 ^ count % 16) := by
      rw [pow_succ, Nat.mod_mul]
    simp only [hexDigits, parseDigits, (digitValue_hexChar _ hdigit).1, hdigit, if_true, ih, hsplit]
    congr 1
    ring

/-- A printed number that fits its digits reads as itself below any bound above it (R77, R79). -/
theorem numberBelow_printHex {bound count v : Nat} (hcount : 0 < count) (hfits : v < 16 ^ count) (hbound : v < bound) :
    numberBelow bound (printHex count v) = some v := by
  obtain ⟨count, rfl⟩ := Nat.exists_eq_add_one_of_ne_zero hcount.ne'
  have hparse := parseDigits_hexDigits (count + 1) v 0
  rw [Nat.mod_eq_of_lt hfits] at hparse
  simp only [hexDigits] at hparse
  simp [numberBelow, printHex, hexDigits, parseNumber, hparse, hbound]

theorem isWord_printHex (count v : Nat) : IsWord (printHex count v) := by
  have hdigits : ∀ c ∈ hexDigits count v, WordChar c := by
    induction count with
    | zero => simp [hexDigits]
    | succ count ih =>
      exact List.forall_mem_cons.2 ⟨(digitValue_hexChar _ (Nat.mod_lt _ (by decide))).2, ih⟩
  exact ⟨by simp [printHex], List.forall_mem_cons.2 ⟨by decide, List.forall_mem_cons.2 ⟨by decide, hdigits⟩⟩⟩

/-! ### Printed operands -/

theorem isWord_printByte (b : Byte) : IsWord (printByte b) := isWord_printHex 2 b.toNat

theorem isWord_printTgt (p : Params) (tgt : Nat) : IsWord (printTgt p tgt) := by
  unfold printTgt
  split
  · exact isWord_of_isUpper (by decide)
  · exact isWord_printHex _ _

theorem byteOperand_printByte (b : Byte) : byteOperand (printByte b) = some b := by
  simp [byteOperand, printByte, numberBelow_printHex (by decide : 0 < 2) b.isLt b.isLt]

/-- No register name is spelt as a number (R77). -/
theorem regOperand_printByte (b : Byte) : regOperand (printByte b) = some b := by
  have hname : regName (printByte b) = none := by simp [regName, printByte, printHex]
  simp [regOperand, hname, byteOperand_printByte]

theorem colOperand_printHex (col : Half) : colOperand (printHex 4 col.toNat) = some col := by
  simp [colOperand, numberBelow_printHex (by decide : 0 < 4) col.isLt col.isLt]

/-- A target reads back, as `ALL` or as a number of enough digits for `W_T` bits (R79). -/
theorem tgtOperand_printTgt {p : Params} {tgt : Nat} (hwidth : 1 ≤ p.wT) (htgt : tgt < 2 ^ p.wT) :
    tgtOperand p (printTgt p tgt) = some tgt := by
  unfold printTgt
  split
  · next hall => simp [tgtOperand, hall]
  · have hdigits : tgt < 16 ^ ((p.wT + 3) / 4) := by
      rw [show 16 = 2 ^ 4 from rfl, ← pow_mul]
      exact htgt.trans_le (Nat.pow_le_pow_right (by decide) (by omega))
    have hnumber : printHex ((p.wT + 3) / 4) tgt ≠ allWord := by simp [printHex, allWord]
    rw [tgtOperand, if_neg hnumber]
    exact numberBelow_printHex (by omega) hdigits htgt

theorem maskOperand_printHex {n rmask : Nat} (hn : 1 ≤ n) (hmask : rmask < 2 ^ (8 * n)) :
    numberBelow (2 ^ (8 * n)) (printHex (2 * n) rmask) = some rmask := by
  have hdigits : rmask < 16 ^ (2 * n) := by
    rw [show 16 = 2 ^ 4 from rfl, ← pow_mul]
    exact hmask.trans_eq (by congr 1; omega)
  exact numberBelow_printHex (by omega) hdigits hmask

theorem ledOperand_printHex (led : Bool) :
    numberBelow 2 (printHex 1 (if led then 1 else 0)) = some (if led then 1 else 0) := by
  cases led <;> rfl

/-- Printed bytes are the bytes' words between separators. -/
theorem printBytes_eq_intercalate (bs : List Byte) : printBytes bs = separator.intercalate (bs.map printByte) := by
  induction bs with
  | nil => rfl
  | cons b bs ih =>
    cases bs with
    | nil => simp [printBytes]
    | cons b' bs => simp [printBytes, ih]

theorem byteOperands_map_printByte (bs : List Byte) : byteOperands (bs.map printByte) = some bs := by
  induction bs with
  | nil => rfl
  | cons b bs ih => simp [byteOperands, byteOperand_printByte, ih]

theorem isWord_of_mem_map_printByte {bs : List Byte} {w : List Char} (hw : w ∈ bs.map printByte) : IsWord w := by
  obtain ⟨b, _, rfl⟩ := List.mem_map.1 hw
  exact isWord_printByte b

/-! ### Lines -/

/-- The payload's list is read back as one operand (R77). -/
theorem parseOperands_payload (reg : Byte) {payload : List Byte} (hne : payload ≠ []) :
    parseOperands none
        (lex (printByte reg ++ (separator ++ openChar :: (separator.intercalate (payload.map printByte) ++ [closeChar]))) []) =
      some [.word (printByte reg), .list (payload.map printByte)] := by
  rw [lex_word_separator (isWord_printByte reg), lex_open, parseOperands, parseOperands,
    parseOperands_list (by simpa using hne) fun _ => isWord_of_mem_map_printByte]
  rfl

section Lines

variable {p : Params}

theorem assembleLine_wrreg (reg val : Byte) {tgt : Nat} (hwidth : 1 ≤ p.wT) (htgt : tgt < 2 ^ p.wT) :
    assembleLine p (nameWrreg ++ ' ' :: separator.intercalate [printByte reg, printByte val, printTgt p tgt]) =
      .command (.wrreg reg val tgt) :=
  assembleLine_of_words (isWord_of_isUpper (by decide)) (by simp)
    (by simp [isWord_printByte, isWord_printTgt])
    (by simp [commandOf, regOperand_printByte, byteOperand_printByte, tgtOperand_printTgt hwidth htgt])

theorem assembleLine_wrall (reg : Byte) {payload : List Byte} (hlen : payload.length = p.n) (hn : 1 ≤ p.n) :
    assembleLine p (nameWrall ++ ' ' :: (printByte reg ++
        (separator ++ openChar :: (separator.intercalate (payload.map printByte) ++ [closeChar])))) =
      .command (.wrall reg payload) := by
  have hne : payload ≠ [] := List.ne_nil_of_length_pos (by omega)
  exact assembleLine_of_operands (isWord_of_isUpper (by decide)) (parseOperands_payload reg hne)
    (by simp [commandOf, nameWrreg, nameWrall, regOperand_printByte, byteOperands_map_printByte, hlen])

theorem assembleLine_mxrow (row : Byte) {rmask : Nat} (hn : 1 ≤ p.n) (hmask : rmask < 2 ^ (8 * p.n)) :
    assembleLine p (nameMxrow ++ ' ' :: separator.intercalate [printByte row, printHex (2 * p.n) rmask]) =
      .command (.mxrow row rmask) :=
  assembleLine_of_words (isWord_of_isUpper (by decide)) (by simp)
    (by simp [isWord_printByte, isWord_printHex])
    (by simp [commandOf, nameWrreg, nameWrall, nameMxclr, nameMxrow, byteOperand_printByte, maskOperand_printHex hn hmask])

theorem assembleLine_mxcol (col : Half) (cmask : Byte) :
    assembleLine p (nameMxcol ++ ' ' :: separator.intercalate [printHex 4 col.toNat, printByte cmask]) =
      .command (.mxcol col cmask) :=
  assembleLine_of_words (isWord_of_isUpper (by decide)) (by simp)
    (by simp [isWord_printByte, isWord_printHex])
    (by simp [commandOf, nameWrreg, nameWrall, nameMxclr, nameMxrow, nameMxcol, byteOperand_printByte, colOperand_printHex])

theorem assembleLine_mxled (row : Byte) (col : Half) (led : Bool) :
    assembleLine p (nameMxled ++ ' ' ::
        separator.intercalate [printByte row, printHex 4 col.toNat, printHex 1 (if led then 1 else 0)]) =
      .command (.mxled row col led) :=
  assembleLine_of_words (isWord_of_isUpper (by decide)) (by simp)
    (by simp [isWord_printByte, isWord_printHex])
    (by
      simp [commandOf, nameWrreg, nameWrall, nameMxclr, nameMxrow, nameMxcol, nameMxled, byteOperand_printByte,
        colOperand_printHex, ledOperand_printHex]
      cases led <;> rfl)

theorem assembleLine_sshex (digit hexval : Byte) {tgt : Nat} (hwidth : 1 ≤ p.wT) (htgt : tgt < 2 ^ p.wT) :
    assembleLine p (nameSshex ++ ' ' :: separator.intercalate [printByte digit, printByte hexval, printTgt p tgt]) =
      .command (.sshex digit hexval tgt) :=
  assembleLine_of_words (isWord_of_isUpper (by decide)) (by simp)
    (by simp [isWord_printByte, isWord_printTgt])
    (by
      simp [commandOf, nameWrreg, nameWrall, nameMxclr, nameMxrow, nameMxcol, nameMxled, nameSsinit, nameSsclr, nameSshex,
        byteOperand_printByte, tgtOperand_printTgt hwidth htgt])

end Lines

/-- Settles O6: each command's printed line is its mnemonic and its operands' words, and each word reads back. -/
theorem disassemblyAssemblesBack : Obligations.DisassemblyAssemblesBack := by
  unfold Obligations.DisassemblyAssemblesBack
  intro p i hlegal hcommand hwf
  obtain ⟨hn, -, hwidth, -⟩ := hlegal
  obtain ⟨-, hfit⟩ := Instr.wellFormed_iff.1 hwf
  cases i <;> simp only [Instr.isFrame, Bool.true_eq_false] at hcommand <;> refine ⟨_, rfl, ?_⟩
  case wrreg reg val tgt =>
    have htgt : tgt < 2 ^ p.wT := by simpa [Instr.fieldsFit] using hfit
    simpa using assembleLine_wrreg reg val hwidth htgt
  case wrall reg payload =>
    have hlen : payload.length = p.n := by simpa [Instr.fieldsFit] using hfit
    simpa [printBytes_eq_intercalate] using assembleLine_wrall reg hlen hn
  case mxclr => exact assembleLine_of_name (isWord_of_isUpper (by decide)) rfl
  case mxrow row rmask =>
    have hmask : rmask < 2 ^ (8 * p.n) := by simpa [Instr.fieldsFit] using hfit
    simpa using assembleLine_mxrow row hn hmask
  case mxcol col cmask => simpa using assembleLine_mxcol col cmask
  case mxled row col led => simpa using assembleLine_mxled row col led
  case ssinit => exact assembleLine_of_name (isWord_of_isUpper (by decide)) rfl
  case ssclr => exact assembleLine_of_name (isWord_of_isUpper (by decide)) rfl
  case sshex digit hexval tgt =>
    have htgt : tgt < 2 ^ p.wT := by simpa [Instr.fieldsFit] using hfit
    simpa using assembleLine_sshex digit hexval hwidth htgt

end Sys2Proof.Machine
end

section
/-! PROOFS. The frame sequencer (spec/40_core.md R82 to R84, R89, R90, R95): what each slot of a unicast carries, and a
broadcast as the payload sequence of equal bytes. Obligations O10 and O11. -/

namespace Sys2Proof.Machine

/-- A target on the chain names its own slot and no other, on a chain of one device too (R81). -/
theorem resolve_names_slot_iff {n d i : Nat} (hd : d < n) (hi : i < n) :
    resolve n d = .all ∨ resolve n d = .one i ↔ i = d := by
  unfold resolve
  by_cases hn : n = 1
  · simp only [hn, true_or, if_true, true_iff]
    omega
  · simp [hn, show ¬ n ≤ d by omega, eq_comm]

/-- The pair is at the target's slot, the no-op pair at every other (R90). -/
theorem slotOf_unicast {n d i : Nat} (hd : d < n) (hi : i < n) (r v : Byte) :
    slotOf (uniSeq n r v d) i = some (if i = d then frameOf r v else 0x0000) := by
  rw [slotOf_uniSeq n r v d i hi]
  simp only [resolve_names_slot_iff hd hi]

/-- The pair is repeated where the target resolves to the whole chain (R90). -/
theorem uniSeq_of_all {n t : Nat} (hall : n = 1 ∨ n ≤ t) (r v : Byte) :
    uniSeq n r v t = (List.replicate n [r, v]).flatten := by
  have hslot : ∀ i, slotFrame i (resolve n t) r v = [r, v] := fun _ => if_pos (.inl (if_pos hall))
  simp [uniSeq, hslot, List.flatMap_def]

/-- A payload of equal bytes makes the broadcast's byte string (R95). -/
theorem paySeq_replicate {n t : Nat} (hall : n = 1 ∨ n ≤ t) (r v : Byte) :
    paySeq r (List.replicate n v) = uniSeq n r v t := by
  rw [uniSeq_of_all hall, paySeq, List.flatMap_def, List.map_replicate]

/-- Settles O10: the slots of a unicast (`slotOf_unicast`) and the repeated pair of a broadcast (`uniSeq_of_all`). -/
theorem unicastAndBroadcastSequences : Obligations.UnicastAndBroadcastSequences := by
  unfold Obligations.UnicastAndBroadcastSequences
  intro n r v
  exact ⟨fun d hd => ⟨uniSeq_length n r v d, fun i hi => slotOf_unicast hd hi r v⟩,
    fun t hall => uniSeq_of_all hall.symm r v⟩

/-- Each slot has its payload byte (R84). -/
theorem slotOf_paySeq_of_lt {payload : List Byte} {i : Nat} (hi : i < payload.length) (r : Byte) :
    slotOf (paySeq r payload) i = some (frameOf r payload[i]) := by
  rw [slotOf_paySeq, List.getElem?_eq_getElem hi]
  rfl

/-- Settles O11: two bytes a payload byte (`paySeq_length`), the pair of each in its slot (`slotOf_paySeq_of_lt`). -/
theorem payloadSequenceSlots : Obligations.PayloadSequenceSlots := by
  unfold Obligations.PayloadSequenceSlots
  intro r payload
  exact ⟨paySeq_length r payload, fun i hi => slotOf_paySeq_of_lt hi r⟩

end Sys2Proof.Machine
end

section
/-! PROOFS. WRREG and WRALL from a ready controller (spec/40_core.md R81, R85 to R95, spec/60_exceptions.md R144, R145):
each is one transaction, and the command ends as the transaction does, complete, failed or stalled. Obligations O12 to O16,
O36 and O39. -/

namespace Sys2Proof.Machine

variable {s : State}

/-! ### One transaction -/

/-- A ready controller takes a command that needs no front-end. -/
theorem accept_core {op : Nat} {body : State → Result} (hready : Ready s) : accept .none op body s = body s := by
  obtain ⟨hfault, hidle, _⟩ := hready
  exact accept_ready hfault hidle (.inl rfl)

theorem exec_wrreg (hready : Ready s) (reg val : Byte) (tgt : Nat) :
    exec (.wrreg reg val tgt) s = finish (transact 0 (uniSeq s.params.n reg val tgt) (start s)) := by
  simp only [exec, execWrreg, accept_core hready]

theorem exec_wrall (hready : Ready s) (reg : Byte) {payload : List Byte} (hlen : payload.length = s.params.n) :
    exec (.wrall reg payload) s = finish (transact 0 (paySeq reg payload) (start s)) := by
  simp only [exec, execWrall, accept_core hready, if_pos hlen]

/-- A payload of another length than the chain is refused (R88). -/
theorem exec_wrall_of_length_ne (hready : Ready s) (reg : Byte) {payload : List Byte}
    (hlen : payload.length ≠ s.params.n) :
    exec (.wrall reg payload) s = .next (refuse (.length (2 + payload.length)) s) := by
  simp only [exec, execWrall, accept_core hready, if_neg hlen]

/-- A command of one transaction that completes (R85). -/
theorem finish_transact_ok (hready : Ready s) {bytes : List Byte} (hok : AnswersOk bytes.length s) :
    finish (transact 0 bytes (start s)) = .next (returning .ok (afterTransactions [bytes] s)) := by
  obtain ⟨_, hidle, hquiet⟩ := hready
  rw [transact_quiet (s := start s) hquiet hok, finish_transactions' hidle]

theorem exec_wrreg_ok (hready : Ready s) (hok : AnswersOk (2 * s.params.n) s) (reg val : Byte) (tgt : Nat) :
    exec (.wrreg reg val tgt) s = .next (returning .ok (afterTransactions [uniSeq s.params.n reg val tgt] s)) := by
  rw [exec_wrreg hready, finish_transact_ok hready (by rwa [uniSeq_length])]

theorem exec_wrall_ok (hready : Ready s) (hok : AnswersOk (2 * s.params.n) s) (reg : Byte) {payload : List Byte}
    (hlen : payload.length = s.params.n) :
    exec (.wrall reg payload) s = .next (returning .ok (afterTransactions [paySeq reg payload] s)) := by
  rw [exec_wrall hready reg hlen, finish_transact_ok hready (by rwa [paySeq_length, hlen])]

/-- Settles O13: the one transaction completes (`exec_wrreg_ok`). -/
theorem wrregSendsOneTransaction : Obligations.WrregSendsOneTransaction := by
  unfold Obligations.WrregSendsOneTransaction
  intro s reg val tgt hready hok
  exact exec_wrreg_ok hready hok reg val tgt

/-- Settles O14: with `N` bytes the transaction completes, with another number the command is refused. -/
theorem wrallSendsOneTransaction : Obligations.WrallSendsOneTransaction := by
  unfold Obligations.WrallSendsOneTransaction
  intro s reg payload hready
  exact ⟨fun hlen hok => exec_wrall_ok hready hok reg hlen, fun hlen => exec_wrall_of_length_ne hready reg hlen⟩

/-- WRALL of equal bytes runs as the broadcast does, in whatever state it is issued (R95). -/
theorem exec_wrall_replicate {t : Nat} (hall : s.params.n = 1 ∨ s.params.n ≤ t) (r v : Byte) :
    exec (.wrall r (List.replicate s.params.n v)) s = exec (.wrreg r v t) s := by
  simp [exec, execWrall, execWrreg, accept, paySeq_replicate hall]

/-- Settles O12: the same byte string (`paySeq_replicate`), so the same command (`exec_wrall_replicate`). -/
theorem equalPayloadIsBroadcast : Obligations.EqualPayloadIsBroadcast := by
  unfold Obligations.EqualPayloadIsBroadcast
  intro s r v t hall
  exact ⟨paySeq_replicate (.inr hall) r v, exec_wrall_replicate (.inr hall) r v⟩

/-! ### What the devices hold -/

/-- A device of the chain whose slot carries a documented register's frame holds the byte there, and every other register as
before (R118). -/
theorem latch_reg_of_lt {bytes : List Byte} {devices : List Device} {k : Nat} {r : DevReg} {v : Byte}
    (hk : k < devices.length) (hslot : slotOf bytes k = some (frameOf (regAddr r) v)) (r' : DevReg) :
    ((latchBytes bytes devices)[k]?).bind (regOf r') = if r' = r then some v else (devices[k]?).bind (regOf r') := by
  have hdev : devices[k]? = some devices[k] := List.getElem?_eq_getElem hk
  rw [latch_reg hslot hdev, hdev]
  rfl

/-- Settles O15: device `k`'s slot carries the frame (`latch_reg_of_lt`), every other slot the no-op frame (`latch_noop`). -/
theorem unicastReachesOnlyItsDevice : Obligations.UnicastReachesOnlyItsDevice := by
  unfold Obligations.UnicastReachesOnlyItsDevice
  intro s r v k hready hok hchain _ hk
  refine ⟨_, exec_wrreg_ok hready hok (regAddr r) v k, ?_⟩
  have hslot : slotOf (uniSeq s.params.n (regAddr r) v k) k = some (frameOf (regAddr r) v) := by
    rw [slotOf_unicast hk hk, if_pos rfl]
  have htarget := latch_reg_of_lt (hchain ▸ hk) hslot
  refine ⟨(htarget r).trans (if_pos rfl), fun j r' hother => ?_⟩
  by_cases hj : j = k
  · subst hj
    exact (htarget r').trans (if_neg (hother.resolve_left fun hne => hne rfl))
  · refine latch_noop fun hlen => ?_
    rw [slotOf_unicast hk (hchain ▸ hlen), if_neg hj]

/-- WRALL of a documented register leaves each device its own byte there, and every other register as it was (R84). -/
theorem wrall_reaches_every_device (r : DevReg) (hready : Ready s) (hok : AnswersOk (2 * s.params.n) s)
    (hchain : s.devices.length = s.params.n) {payload : List Byte} (hlen : payload.length = s.params.n) :
    ∃ t, exec (.wrall (regAddr r) payload) s = .next t ∧
      (∀ (k : Nat) (h : k < payload.length), deviceHolds t k r payload[k]) ∧
      ∀ (k : Nat) (r' : DevReg), r' ≠ r → (t.devices[k]?).bind (regOf r') = (s.devices[k]?).bind (regOf r') := by
  refine ⟨_, exec_wrall_ok hready hok (regAddr r) hlen, ?_⟩
  have hlengths : s.devices.length = payload.length := hchain.trans hlen.symm
  have hlatched := fun k (hk : k < payload.length) =>
    latch_reg_of_lt (r := r) (hlengths ▸ hk : k < s.devices.length) (slotOf_paySeq_of_lt hk (regAddr r))
  refine ⟨fun k hk => (hlatched k hk r).trans (if_pos rfl), fun k r' hr => ?_⟩
  by_cases hk : k < payload.length
  · exact (hlatched k hk r').trans (if_neg hr)
  · exact latch_noop fun hdevice => absurd (hlengths ▸ hdevice) hk

/-- Settles O16: WRALL by `wrall_reaches_every_device`, and WRREG as WRALL of equal bytes (`exec_wrall_replicate`). -/
theorem broadcastReachesEveryDevice : Obligations.BroadcastReachesEveryDevice := by
  unfold Obligations.BroadcastReachesEveryDevice
  intro s r hready hok hchain
  refine ⟨fun v tgt hall => ?_, fun payload hlen => wrall_reaches_every_device r hready hok hchain hlen⟩
  obtain ⟨t, hexec, hholds, hothers⟩ :=
    wrall_reaches_every_device r hready hok hchain (List.length_replicate (n := s.params.n) (a := v))
  refine ⟨t, (exec_wrall_replicate hall (regAddr r) v).symm.trans hexec, fun k hk => ?_, hothers⟩
  have hbyte := hholds k (List.length_replicate.symm ▸ hk)
  rwa [List.getElem_replicate] at hbyte

/-! ### A transaction cut short -/

/-- The exception in a ready controller's transaction `txn` at byte `j`, with everything it leaves (R135, R144). -/
theorem raiseTransport_of_ready (hready : Ready s) (txn j : Nat) (bytes : List Byte) :
    raiseTransport txn j (duringTransact bytes (j + 1) (start s)) = { s with
      history := s.history ++ [.acq, .sel .low] ++ (bytes.take (j + 1)).map .byte ++ [.xfail, .rel]
      sel := Config.selAfterFail s.draws
      draws := s.draws + 1
      devices := s.devices.mapIdx fun k _ => { Device.powerOn with sr := Config.shiftCutShort s.draws k }
      fault := some ⟨.transport, some s.cmdIndex, txn, j⟩
      cmdIndex := s.cmdIndex + 1
      transport := s.transport.drop (j + 1) } := by
  obtain ⟨hfault, hidle, hfree, _⟩ := hready
  have hevents : ∀ es : List Event, es ++ [.xfail] ++ [.rel] = es ++ [.xfail, .rel] := fun _ => List.append_assoc _ _ _
  simp only [raiseTransport, release, record, duringTransact, start, hfault, hidle, hfree, hevents]
  rfl

/-- Settles O36: either command is one transaction of `2×N` bytes, which fails at byte `j` (`transact_fail`). -/
theorem transportFailureState : Obligations.TransportFailureState := by
  unfold Obligations.TransportFailureState
  intro s i bytes j hcommand hready hj hok hfail
  have hrun : exec i s = finish (transact 0 bytes (start s)) ∧ bytes.length = 2 * s.params.n := by
    rcases hcommand with ⟨reg, val, tgt, rfl, rfl⟩ | ⟨reg, payload, rfl, hlen, rfl⟩
    · exact ⟨exec_wrreg hready reg val tgt, uniSeq_length _ _ _ _⟩
    · exact ⟨exec_wrall hready reg hlen, by rw [paySeq_length, hlen]⟩
  obtain ⟨hexec, hlen⟩ := hrun
  rw [hexec, transact_fail (s := start s) (hlen ▸ hj) hok hfail, ← raiseTransport_of_ready hready]
  rfl

/-- While a command executes a step changes nothing (R145). -/
theorem step_of_busy (hlatch : s.latching = []) (hfault : s.fault = none) (hbusy : s.activity ≠ .idle) :
    step s = .next s := by
  simp [step, hlatch, hfault, hbusy]

/-- Settles O39: the one transaction stalls (`transact_stall`) and leaves the command executing (`step_of_busy`). -/
theorem stallNeverReturns : Obligations.StallNeverReturns := by
  unfold Obligations.StallNeverReturns
  intro s reg val tgt j hready hlatch hj hok hstall
  have hrun := transact_stall (s := start s) (txn := 0) (bytes := uniSeq s.params.n reg val tgt)
    (by rwa [uniSeq_length]) hok hstall
  have ⟨hfault, _⟩ := hready
  refine ⟨_, (exec_wrreg hready reg val tgt).trans (congrArg finish hrun), ?_, rfl, rfl, rfl, hfault, rfl, rfl, rfl, rfl⟩
  exact step_of_busy hlatch hfault (by simp [duringTransact, start])

end Sys2Proof.Machine
end

section
/-! PROOFS. A transport failure within MXCOL (spec/40_core.md R93, spec/41_matrix.md R99, spec/60_exceptions.md R144): the
pushes before the failing one stand, and so does the failing row's update. Obligation O38. -/

namespace Sys2Proof.Machine

/-- A loop over indices in order ends where round `r` stops, the rounds before it having gone on (R93). -/
theorem forEach_range_stop {f : Nat → State → Run} {r n : Nat} (hr : r < n) {s u t : State}
    (hbefore : forEach (List.range r) f s = .go u) (hstop : f r u = .stop t) : forEach (List.range n) f s = .stop t := by
  obtain ⟨k, rfl⟩ : ∃ k, n = r + (k + 1) := ⟨n - r - 1, by omega⟩
  rw [List.range_add, List.range_succ_eq_map, List.map_cons, forEach_append, hbefore]
  simp [andThen, forEach, hstop]

/-- A failed transaction adds none to those on record (R28). -/
theorem transactions_raiseTransport (txn j k : Nat) (bytes : List Byte) (u : State) :
    transactions (raiseTransport txn j (duringTransact bytes k u)) = transactions u := by
  have hhistory : (raiseTransport txn j (duringTransact bytes k u)).history =
      u.history ++ ([.acq, .sel .low] ++ (bytes.take k).map .byte ++ [.xfail, .rel]) := by
    simp [duringTransact]
  unfold transactions
  rw [hhistory, tx_append]
  exact (congrArg _ (tx_open_none _ _ _)).trans (List.append_nil _)

theorem colRow_length (dev b : Nat) (cmask : Byte) (row : Nat) (s : State) :
    (colRow dev b cmask row s).length = s.params.n := by simp [colRow]

/-- The byte strings of MXCOL's pushes of rows 0 to `r - 1` (R99). -/
def colPushes (dev b : Nat) (cmask : Byte) (r : Nat) (s : State) : List (List Byte) :=
  (List.range r).map fun row => paySeq (digitAddr row) (colRow dev b cmask row s)

theorem colPushes_length (dev b : Nat) (cmask : Byte) (r : Nat) (s : State) :
    (colPushes dev b cmask r s).length = r := by simp [colPushes]

theorem length_of_mem_colPushes {dev b : Nat} {cmask : Byte} {r : Nat} {s : State} :
    ∀ bytes ∈ colPushes dev b cmask r s, bytes.length = 2 * s.params.n := by
  simp [colPushes, paySeq_length, colRow_length]

/-- MXCOL before push `r`: rows 0 to `r - 1` are updated and pushed (R99). -/
def beforePush (dev b : Nat) (cmask : Byte) (r : Nat) (s : State) : State :=
  { afterTransactions (colPushes dev b cmask r s) s with mem := colMemory dev b cmask (List.range r) s.mem }

theorem beforePush_transport (dev b : Nat) (cmask : Byte) (r : Nat) (s : State) :
    (beforePush dev b cmask r s).transport = s.transport.drop (2 * s.params.n * r) := by
  have hsum : ((colPushes dev b cmask r s).map List.length).sum = 2 * s.params.n * r := by
    rw [List.sum_eq_card_nsmul _ (2 * s.params.n) (by simpa using length_of_mem_colPushes)]
    simp [colPushes_length, Nat.mul_comm]
  rw [← hsum]
  rfl

theorem transactions_beforePush (dev b : Nat) (cmask : Byte) (r : Nat) (s : State) :
    transactions (beforePush dev b cmask r s) = transactions s ++ colPushes dev b cmask r s :=
  completedTransactionsAreOnRecord (colPushes dev b cmask r s) s length_of_mem_colPushes

/-- With row `r` updated too, the framebuffer has the updates of rows 0 to `r` (R99). -/
theorem updateBit_beforePush_mem (dev b : Nat) (cmask : Byte) (r : Nat) (s : State) :
    (updateBit r dev b (cmask.getLsbD r) (beforePush dev b cmask r s)).mem =
      colMemory dev b cmask (List.range (r + 1)) s.mem := by
  simp [updateBit_spec, beforePush, readCell, colMemory, List.range_succ]

/-- The rounds before push `r`, their transfers answered ok. -/
theorem forEach_beforePush {s : State} (dev b : Nat) (cmask : Byte) {r : Nat} (hwf : Memory.wf s.mem = true)
    (hquiet : Quiet s) (hr : r < 8) (hok : AnswersOk (2 * s.params.n * r) s) :
    forEach (List.range r) (fun row s => pushRow row row (updateBit row dev b (cmask.getLsbD row) s)) s =
      .go (beforePush dev b cmask r s) :=
  forEach_setCol dev b cmask (List.range r) hwf List.nodup_range (fun _ hrow => (List.mem_range.1 hrow).trans hr) hquiet
    (by rwa [List.length_range, Nat.mul_comm])

/-- Where MXCOL stops when push `r` fails at byte `j`: row `r` is updated, its transaction cut short (R93, R144). -/
theorem setCol_fails {s : State} {col : Nat} {cmask : Byte} {r j : Nat} (hwf : Memory.wf s.mem = true) (hquiet : Quiet s)
    (hr : r < 8) (hj : j < 2 * s.params.n) (hok : AnswersOk (2 * s.params.n * r + j) s)
    (hfail : s.transport[2 * s.params.n * r + j]? = some .fail) :
    ∃ bytes, setCol col cmask s = .stop (raiseTransport r j (duringTransact bytes (j + 1)
      (updateBit r (col / 8) (col % 8) (cmask.getLsbD r) (beforePush (col / 8) (col % 8) cmask r s)))) := by
  have htransport := beforePush_transport (col / 8) (col % 8) cmask r s
  obtain ⟨hokBefore, hokPush⟩ := (answersOk_add htransport).1 hok
  have hbefore := forEach_beforePush (col / 8) (col % 8) cmask hwf hquiet hr hokBefore
  rw [← List.getElem?_drop, ← htransport] at hfail
  refine ⟨_, forEach_range_stop hr hbefore (transact_fail ?_ hokPush hfail)⟩
  rw [paySeq_length, readRow_length]
  exact hj

/-- Settles O38: MXCOL stops in push `r` (`setCol_fails`), when the framebuffer has the updates of rows 0 to `r`
(`updateBit_beforePush_mem`, `colMemory_spec`) and the `r` transactions before are on record. -/
theorem mxcolTransportFailure : Obligations.MxcolTransportFailure := by
  unfold Obligations.MxcolTransportFailure
  intro s col cmask r j hready hmatrix ⟨hwf, _⟩ hcol hr hj hok hfail
  have ⟨hfault, _, hquiet⟩ := hready
  obtain ⟨bytes, hstop⟩ := setCol_fails (s := start s) (col := col.toNat) (cmask := cmask) hwf hquiet hr hj hok hfail
  have hexec : exec (.mxcol col cmask) s = finish (setCol col.toNat cmask (start s)) :=
    (accept_matrix hready hmatrix).trans (ifInRange_true (decide_eq_true hcol))
  have hrows : ∀ {row}, row ∈ List.range (r + 1) ↔ row ≤ r := List.mem_range.trans Nat.lt_succ_iff
  obtain ⟨_, hcolumn, hothers, _⟩ := colMemory_spec (col.toNat / 8) (col.toNat % 8) cmask (List.range (r + 1))
    (start s).mem hwf List.nodup_range fun row hrow => (hrows.1 hrow).trans_lt hr
  rw [← updateBit_beforePush_mem] at hcolumn hothers
  refine ⟨_, hexec.trans (congrArg finish hstop), raiseTransport_fault _ _ _ hfault, rfl,
    fun row hrow => hcolumn row (hrows.2 hrow), fun a ha => hothers a fun row hrow => ha row (hrows.1 hrow),
    colPushes (col.toNat / 8) (col.toNat % 8) cmask r s, colPushes_length _ _ _ _ _, ?_⟩
  rw [transactions_raiseTransport]
  exact transactions_beforePush (col.toNat / 8) (col.toNat % 8) cmask r (start s)

end Sys2Proof.Machine
end

section
/-! PROOFS. MXCLR and MXLED from a ready controller (spec/41_matrix.md R96, R97, R100, spec/60_exceptions.md R144): the
cleared rows in closed form, to the end or to the push that fails, and the one row that a pixel changes. Obligations O17,
O22 and O37. -/

namespace Sys2Proof.Machine

variable {s : State}

/-! ### MXCLR -/

/-- The byte strings of MXCLR's pushes of rows 0 to `r - 1` on a chain of `n` (R97). -/
def clearPushes (n r : Nat) : List (List Byte) :=
  (List.range r).map fun row => paySeq (digitAddr row) (List.replicate n 0x00)

theorem length_of_mem_clearPushes {n r : Nat} : ∀ bytes ∈ clearPushes n r, bytes.length = 2 * n := by
  simp [clearPushes, paySeq_length]

theorem clearPushes_bytes (n r : Nat) : ((clearPushes n r).map List.length).sum = 2 * n * r := by
  rw [List.sum_eq_card_nsmul _ (2 * n) (by simpa using length_of_mem_clearPushes)]
  simp [clearPushes, Nat.mul_comm]

/-- MXCLR before push `r`: every cell is zeroed and rows 0 to `r - 1` are pushed (R97). -/
def beforeClearPush (r : Nat) (s : State) : State :=
  { afterTransactions (clearPushes s.params.n r) s with mem := [] }

theorem beforeClearPush_transport (r : Nat) (s : State) :
    (beforeClearPush r s).transport = s.transport.drop (2 * s.params.n * r) := by
  rw [← clearPushes_bytes]
  rfl

theorem transactions_beforeClearPush (r : Nat) (s : State) :
    transactions (beforeClearPush r s) = transactions s ++ clearPushes s.params.n r :=
  completedTransactionsAreOnRecord (clearPushes s.params.n r) s length_of_mem_clearPushes

/-- Every row of an empty framebuffer is zero on every device. -/
theorem readRow_of_empty {u : State} (hempty : u.mem = []) (row : Nat) :
    readRow row u = List.replicate u.params.n 0x00 := by
  have hcell : ∀ d, readCell row d u = 0x00 := fun d => by rw [readCell, hempty]; rfl
  simp [readRow, hcell]

/-- The pushes before push `r`, their transfers answered ok. -/
theorem forEach_beforeClearPush {r : Nat} (hquiet : Quiet s) (hok : AnswersOk (2 * s.params.n * r) s) :
    forEach (List.range r) (fun row s => pushRow row row s) { s with mem := [] } = .go (beforeClearPush r s) := by
  have hanswers : AnswersOk ((List.range r).length * (2 * s.params.n)) s := by rwa [List.length_range, Nat.mul_comm]
  rw [forEach_pushRow (s := { s with mem := [] }) (List.range r) hquiet hanswers]
  simp only [readRow_of_empty]
  rfl

theorem exec_mxclr (hready : Ready s) (hmatrix : s.params.frontend = .matrix) (hfit : FramebufferInv s) :
    exec .mxclr s =
      finish (forEach (List.range 8) (fun row s => pushRow row row s) { start s with mem := [] }) := by
  obtain ⟨hwf, hcells, _⟩ := hfit
  have hclear : clearCells (start s) = { start s with mem := [] } := clearCells_spec (start s) hwf hcells
  simp only [exec, execMxclr, accept_matrix hready hmatrix, clearMatrix, hclear]

/-- Settles O17: the framebuffer is cleared (`exec_mxclr`), so the eight pushes send zeros (`forEach_beforeClearPush`). -/
theorem mxclrZeroesAndPushes : Obligations.MxclrZeroesAndPushes := by
  unfold Obligations.MxclrZeroesAndPushes
  intro s hready hmatrix hfit hok
  have ⟨_, hidle, hquiet⟩ := hready
  have hanswers : AnswersOk (2 * s.params.n * 8) (start s) := answersOk_mono (s := start s) hok (by omega)
  rw [exec_mxclr hready hmatrix hfit, forEach_beforeClearPush (s := start s) hquiet hanswers]
  exact finish_transactions hidle

/-- Where MXCLR stops when push `r` fails at byte `j`: its transaction is cut short (R93, R144). -/
theorem clearMatrix_fails {r j : Nat} (hquiet : Quiet s) (hr : r < 8) (hj : j < 2 * s.params.n)
    (hok : AnswersOk (2 * s.params.n * r + j) s) (hfail : s.transport[2 * s.params.n * r + j]? = some .fail) :
    ∃ bytes, forEach (List.range 8) (fun row s => pushRow row row s) { s with mem := [] } =
      .stop (raiseTransport r j (duringTransact bytes (j + 1) (beforeClearPush r s))) := by
  have htransport := beforeClearPush_transport r s
  obtain ⟨hokBefore, hokPush⟩ := (answersOk_add htransport).1 hok
  rw [← List.getElem?_drop, ← htransport] at hfail
  refine ⟨_, forEach_range_stop hr (forEach_beforeClearPush hquiet hokBefore) (transact_fail ?_ hokPush hfail)⟩
  rw [paySeq_length, readRow_length]
  exact hj

/-- Settles O37: MXCLR stops in push `r` (`clearMatrix_fails`), when the framebuffer is empty and the `r` transactions
before are on record; the failure leaves no device register a value (`regOf_loseDevice`). -/
theorem mxclrTransportFailure : Obligations.MxclrTransportFailure := by
  unfold Obligations.MxclrTransportFailure
  intro s r j hready hmatrix hfit hr hj hok hfail
  have ⟨hfault, _, hquiet⟩ := hready
  obtain ⟨bytes, hstop⟩ := clearMatrix_fails (s := start s) hquiet hr hj hok hfail
  refine ⟨_, (exec_mxclr hready hmatrix hfit).trans (congrArg finish hstop), raiseTransport_fault _ _ _ hfault, rfl, rfl,
    rfl, ?_, fun dev hdev g => ?_⟩
  · rw [transactions_raiseTransport]
    exact transactions_beforeClearPush r (start s)
  · obtain ⟨k, _, rfl⟩ := List.mem_mapIdx.1 hdev
    exact regOf_loseDevice g _ k _

/-! ### MXLED -/

/-- Settles O22: one cell is written (`updateBit_spec`), so the push (`pushRow_quiet`) sends the row with that bit updated
(`readRow_updateBit`). -/
theorem mxledWritesAndPushesOnePixel : Obligations.MxledWritesAndPushesOnePixel := by
  unfold Obligations.MxledWritesAndPushesOnePixel
  intro s row col led hready hmatrix ⟨hwf, _⟩ hok hrow hcol
  have ⟨_, hidle, hquiet⟩ := hready
  refine ⟨memWrite s.mem (cellAddr row.toNat 0) (setBit col.toNat led (readCell row.toNat 0 s)), ?_, ?_, ?_⟩
  · have hdevice : col.toNat / 8 = 0 := by omega
    have hbit : col.toNat % 8 = col.toNat := by omega
    have hread : readRow row.toNat (updateBit row.toNat 0 col.toNat led (start s)) = (List.range s.params.n).map fun d =>
        if d = 0 then setBit col.toNat led (readCell row.toNat 0 s) else readCell row.toNat d s := by
      refine (readRow_updateBit (s := start s) hwf).trans (List.map_congr_left fun d _ => ?_)
      by_cases hd : d = 0
      · rw [if_pos hd, if_pos hd, hd]
        rfl
      · rw [if_neg hd, if_neg hd]
        rfl
    calc exec (.mxled row col led) s
        = ifInRange (row.toNat ≤ 7 && col.toNat ≤ 7) (setLed row.toNat col.toNat led) s := accept_matrix hready hmatrix
      _ = finish (setLed row.toNat col.toNat led (start s)) := ifInRange_true (by simp [hrow, hcol])
      _ = _ := by
        unfold setLed
        rw [hdevice, hbit, pushRow_quiet (s := updateBit row.toNat 0 col.toNat led (start s)) hquiet hok, hread]
        exact finish_transactions hidle
  · rw [memRead_memWrite hwf, if_pos rfl]
  · intro a ha
    rw [memRead_memWrite hwf, if_neg ha]

end Sys2Proof.Machine
end

section
/-! PROOFS. What a matrix command does, said once for all four (spec/41_matrix.md R96 to R100, R142): how it ends
(`matrix_effect`), what it does to each cell (`cellAfter`), and that the transactions it makes are the rows it pushes, as
its final framebuffer has them (`Pushed`). -/

namespace Sys2Proof.Machine

/-! ### How a matrix command ends -/

/-- The pseudocode of a matrix command in range (R97 to R100). -/
def matrixRun : Instr → State → Run
  | .mxclr => clearMatrix
  | .mxrow row rmask => setRow row.toNat rmask
  | .mxcol col cmask => setCol col.toNat cmask
  | .mxled row col led => setLed row.toNat col.toNat led
  | _ => .go

/-- The operands of a matrix command are in range on a chain of `n` (R142). -/
def inRange (n : Nat) : Instr → Bool
  | .mxrow row _ => decide (row.toNat ≤ 7)
  | .mxcol col _ => decide (col.toNat < 8 * n)
  | .mxled row col _ => decide (row.toNat ≤ 7) && decide (col.toNat ≤ 7)
  | _ => true

/-- An idle controller with these parameters runs the matrix command (R66, R142). -/
def Runs (p : Params) (i : Instr) : Prop := p.frontend = .matrix ∧ inRange p.n i = true

/-- Every matrix command is accepted, then checked for its range, then run (R142, R148). -/
theorem exec_matrix {i : Instr} (hmatrix : isMatrixCommand i = true) (s : State) :
    ∃ op, exec i s = accept .matrix op (fun s => ifInRange (inRange s.params.n i) (matrixRun i) s) s := by
  cases i with
  | mxclr => exact ⟨2, by simp only [exec, execMxclr, ifInRange, inRange, matrixRun, if_true]⟩
  | mxrow row rmask => exact ⟨3, by simp only [exec, execMxrow, inRange, matrixRun]⟩
  | mxcol col cmask => exact ⟨4, by simp only [exec, execMxcol, inRange, matrixRun]⟩
  | mxled row col led => exact ⟨5, by simp only [exec, execMxled, inRange, matrixRun]⟩
  | _ => simp [isMatrixCommand, Instr.frontend] at hmatrix

/-- Every row a command in range pushes exists (R45). -/
theorem pushedRows_lt {i : Instr} {n : Nat} (hrange : inRange n i = true) : ∀ row ∈ pushedRows i, row < 8 := by
  cases i with
  | mxclr | mxcol col cmask => exact fun _ => List.mem_range.1
  | mxrow row rmask | mxled row col led =>
    simp [inRange] at hrange
    simp [pushedRows]
    omega
  | _ => simp [pushedRows]

/-- A matrix command only writes cells and pushes rows that exist: what those keep, its run keeps (R97 to R100). -/
theorem matrixRun_keeps {P Q : State → Prop} {i : Instr} {s : State} (hrange : inRange s.params.n i = true)
    (hwrite : ∀ u row d v, P u → P (writeCell row d v u))
    (hpush : ∀ u k row, row < 8 → P u → RunKeeps P Q (pushRow k row u)) (hs : P s) :
    RunKeeps P Q (matrixRun i s) := by
  have hrow : ∀ row v u, P u → P (writeRow row v u) := fun row v u hu =>
    (writeRow_keeps row v u.params.n (fun w d b _ => hwrite w row d b) rfl hu).1
  have hloop : ∀ {f : Nat → State → Run}, (∀ k < 8, ∀ u, P u → RunKeeps P Q (f k u)) → ∀ u, P u →
      RunKeeps P Q (forEach (List.range 8) f u) := fun {f} hf u hu =>
    forEach_keeps (List.range 8) (fun k hk v w hv => (hf k (List.mem_range.1 hk) v hv).1 w)
      (fun k hk v w hv => (hf k (List.mem_range.1 hk) v hv).2 w) hu
  cases i with
  | mxclr =>
    have hclear : P (clearCells s) :=
      List.foldlRecOn (List.range 8) _ hs fun u hu row _ => hrow row _ u hu
    rw [matrixRun, clearMatrix]
    exact hloop (fun k hk u => hpush u k k hk) _ hclear
  | mxrow row rmask =>
    exact hpush _ 0 _ (pushedRows_lt hrange _ (List.mem_singleton_self _)) (hrow _ _ s hs)
  | mxcol col cmask =>
    rw [matrixRun, setCol]
    exact hloop (fun k hk u hu => hpush _ k k hk (hwrite u k _ _ hu)) s hs
  | mxled row col led =>
    exact hpush _ 0 _ (pushedRows_lt hrange _ (List.mem_singleton_self _)) (hwrite s _ _ _ hs)
  | _ =>
    refine ⟨fun v hv => ?_, fun v hv => ?_⟩ <;> cases hv
    exact hs

/-- A push adds to a run, or halts the command. -/
theorem Continues.pushRow {s u : State} (h : Continues s u) (k row : Nat) :
    RunKeeps (Continues s) (fun t => ∃ v, Continues s v ∧ Halts v t) (pushRow k row u) := by
  obtain ⟨hgo, hstop⟩ := transact_completes_or_halts (u := u) k (bytes := paySeq (digitAddr row) (readRow row u))
    (by rw [paySeq_length, readRow_length])
  exact ⟨fun v hv => hgo v hv ▸ h.afterTransact _, fun v hv => ⟨u, h, hstop v hv⟩⟩

/-- The next states a matrix command answers from `s`: another command is executing; the command cannot run here and
changes nothing but the marks; or it runs, to its end or to the transaction that halts it. -/
inductive MatrixEffect (i : Instr) (s : State) : State → Prop
  | busy (hbusy : s.activity ≠ .idle) : MatrixEffect i s (refuse .reentrant s)
  | rejected (t : State) (hnot : ¬ Runs s.params i) (ht : (∃ r, t = refuse r s) ∨ t = complete .fail s) :
    MatrixEffect i s t
  | completed (u : State) (hruns : Runs s.params i) (hrun : matrixRun i (start s) = .go u) :
    MatrixEffect i s (complete .ok u)
  | halted (u t : State) (hrun : Continues (start s) u) (hhalt : Halts u t) : MatrixEffect i s t

theorem matrix_effect {i : Instr} {s t : State} (hmatrix : isMatrixCommand i = true) (h : exec i s = .next t) :
    s.fault = none ∧ MatrixEffect i s t := by
  obtain ⟨op, hexec⟩ := exec_matrix hmatrix s
  rw [hexec] at h
  obtain ⟨hfault, ⟨hbusy, rfl⟩ | ⟨_, _, hne, rfl⟩ | ⟨hidle, hfrontend, h⟩⟩ := accept_next h
  · exact ⟨hfault, .busy hbusy⟩
  · exact ⟨hfault, .rejected _ (fun hruns => hne hruns.1.symm) (.inl ⟨_, rfl⟩)⟩
  · refine ⟨hfault, ?_⟩
    have hpresent : s.params.frontend = .matrix := (hfrontend.resolve_left (by decide)).symm
    cases hrange : inRange s.params.n i with
    | false =>
      rw [ifInRange_false hrange] at h
      cases h
      exact .rejected _ (fun hruns => by simp [Runs, hrange] at hruns) (.inr rfl)
    | true =>
      rw [ifInRange_true hrange] at h
      rcases finish_next h with ⟨u, hrun, rfl⟩ | hrun
      · exact .completed u ⟨hpresent, hrange⟩ hrun
      · obtain ⟨u, hu, hhalt⟩ := (matrixRun_keeps (s := start s) hrange (fun _ row d v hu => hu.writeCell row d v)
          (fun _ k row _ hu => hu.pushRow k row) (Continues.refl _)).2 t hrun
        exact .halted u t hu hhalt

/-- A halted command leaves a fault on record or is still executing (R144, R145). -/
theorem Halts.marks {u t : State} (h : Halts u t) (hfault : u.fault = none) (hbusy : u.activity = .command) :
    t.fault ≠ none ∨ t.activity ≠ .idle := by
  cases h with
  | failed k j bytes =>
    left
    rw [raiseTransport_fault (duringTransact bytes (j + 1) u) k j hfault]
    exact Option.some_ne_none _
  | stalled j bytes =>
    right
    simp [duringTransact, hbusy]

/-- A matrix command that returned OK ran to its end: no other way it ends returns OK (R25, R142). -/
theorem matrix_returns_ok {i : Instr} {s t : State} (hmatrix : isMatrixCommand i = true) (h : exec i s = .next t)
    (hok : t.returned = s.returned ++ [(s.cmdIndex, .ok)]) :
    Runs s.params i ∧ ∃ u, matrixRun i (start s) = .go u ∧ t = complete .ok u := by
  obtain ⟨_, heffect⟩ := matrix_effect hmatrix h
  cases heffect with
  | busy => simp at hok
  | rejected t _ ht => rcases ht with ⟨r, rfl⟩ | rfl <;> simp at hok
  | completed u hruns hrun => exact ⟨hruns, u, hrun, rfl⟩
  | halted u t hrun hhalt =>
    rw [hhalt.returned, hrun.returned] at hok
    simp at hok

/-- A matrix command that neither faults nor is left executing ran to its end, or changed nothing but the marks. -/
theorem matrix_ends {i : Instr} {s t : State} (hmatrix : isMatrixCommand i = true) (h : exec i s = .next t)
    (hfault : t.fault = none) (hidle : t.activity = .idle) :
    (¬ Runs s.params i ∧ ((∃ r, t = refuse r s) ∨ t = complete .fail s)) ∨
      (Runs s.params i ∧ ∃ u, matrixRun i (start s) = .go u ∧ t = complete .ok u) := by
  obtain ⟨hnone, heffect⟩ := matrix_effect hmatrix h
  cases heffect with
  | busy hbusy => exact absurd hidle hbusy
  | rejected t hnot ht => exact .inl ⟨hnot, ht⟩
  | completed u hruns hrun => exact .inr ⟨hruns, u, hrun, rfl⟩
  | halted u t hrun hhalt =>
    rcases hhalt.marks (hrun.fault.trans hnone) hrun.activity with hne | hne
    · exact absurd hfault hne
    · exact absurd hidle hne

/-! ### The cells -/

/-- What a matrix command makes of cell `(row, d)`, which holds `old`, on a chain of `n` (R97 to R100). -/
def cellAfter (n row d : Nat) (old : Byte) : Instr → Byte
  | .mxclr => if d < n then 0x00 else old
  | .mxrow row' rmask => if row = row'.toNat ∧ d < n then maskByte rmask d else old
  | .mxcol col cmask => if d = col.toNat / 8 then setBit (col.toNat % 8) (cmask.getLsbD row) old else old
  | .mxled row' col led =>
    if row = row'.toNat ∧ d = col.toNat / 8 then setBit (col.toNat % 8) led old else old
  | _ => old

/-- The bits of a cell after one of them is set or cleared (R99, R100). -/
theorem getLsbD_setBit {b j : Nat} (hj : j < 8) (on : Bool) (old : Byte) :
    (setBit b on old).getLsbD j = if j = b then on else old.getLsbD j := by
  have hbit : (1#8 <<< b).getLsbD j = decide (j = b) := by
    simp only [BitVec.getLsbD_shiftLeft, BitVec.getLsbD_one, hj]
    grind
  have hones : (0xFF#8).getLsbD j = true := by interval_cases j <;> rfl
  unfold setBit
  cases on with
  | true =>
    rw [if_pos rfl, BitVec.getLsbD_or, hbit]
    by_cases hb : j = b <;> simp [hb]
  | false =>
    rw [if_neg (by decide), BitVec.getLsbD_and, BitVec.getLsbD_and, BitVec.getLsbD_not, hbit, hones]
    by_cases hb : j = b <;> simp [hb, hj]

theorem setBit_setBit (b : Nat) (on : Bool) (old : Byte) : setBit b on (setBit b on old) = setBit b on old := by
  refine BitVec.eq_of_getLsbD_eq fun j hj => ?_
  rw [getLsbD_setBit hj, getLsbD_setBit hj]
  split <;> rfl

/-- A matrix command makes nothing more of a cell the second time. -/
theorem cellAfter_cellAfter (n row d : Nat) (old : Byte) (i : Instr) :
    cellAfter n row d (cellAfter n row d old i) i = cellAfter n row d old i := by
  cases i with
  | mxclr | mxrow row' rmask => simp only [cellAfter]; split <;> rfl
  | mxcol col cmask | mxled row' col led =>
    simp only [cellAfter]
    split
    · exact setBit_setBit _ _ _
    · rfl
  | _ => rfl

/-- Every address is that of a cell, so two framebuffers in canonical form with the same cells are equal. -/
theorem memory_ext_cells {m m' : Memory} (hwf : Memory.wf m = true) (hwf' : Memory.wf m' = true)
    (hcells : ∀ row < 8, ∀ d, memRead m (cellAddr row d) = memRead m' (cellAddr row d)) : m = m' := by
  refine memory_ext hwf hwf' fun a => ?_
  have ha : a = cellAddr (a % 8) (a / 8) := by unfold cellAddr; omega
  rw [ha]
  exact hcells (a % 8) (by omega) (a / 8)

/-- The cells after one row is written on every device. -/
theorem writeRow_cells {row : Nat} (hrow : row < 8) (v : Nat → Byte) {s : State} (hwf : Memory.wf s.mem = true) :
    ∃ m, writeRow row v s = { s with mem := m } ∧ Memory.wf m = true ∧ ∀ row' < 8, ∀ d,
      memRead m (cellAddr row' d) = if row' = row ∧ d < s.params.n then v d else memRead s.mem (cellAddr row' d) := by
  obtain ⟨m, hwrite, hm, hcells, hothers, _⟩ := writeRow_spec row v s hwf
  refine ⟨m, hwrite, hm, fun row' hrow' d => ?_⟩
  split_ifs with hc
  · obtain ⟨rfl, hd⟩ := hc
    exact hcells d hd
  · refine hothers _ fun d' hd' heq => hc ?_
    obtain ⟨hsame, rfl⟩ := (cellAddr_inj hrow' hrow).1 heq
    exact ⟨hsame, hd'⟩

/-- The cells after the first `k` rows are zeroed. -/
theorem clearRows_cells {k : Nat} (hk : k ≤ 8) {s : State} (hwf : Memory.wf s.mem = true) :
    ∃ m, (List.range k).foldl (fun s row => writeRow row (fun _ => 0x00) s) s = { s with mem := m } ∧
      Memory.wf m = true ∧ ∀ row < 8, ∀ d,
        memRead m (cellAddr row d) = if row < k ∧ d < s.params.n then 0x00 else memRead s.mem (cellAddr row d) := by
  induction k with
  | zero => exact ⟨s.mem, rfl, hwf, by simp⟩
  | succ k ih =>
    obtain ⟨m, hclear, hm, hcells⟩ := ih (by omega)
    obtain ⟨m', hwrite, hm', hcells'⟩ :=
      writeRow_cells (s := { s with mem := m }) (Nat.lt_of_succ_le hk) (fun _ => 0x00) hm
    refine ⟨m', by rw [List.range_succ, List.foldl_append, hclear]; exact hwrite, hm', fun row hrow d => ?_⟩
    rw [hcells' row hrow d, hcells row hrow d]
    by_cases hlast : row = k
    · simp [hlast]
    · have hbefore : row < k + 1 ↔ row < k := by omega
      simp [hlast, hbefore]

/-! ### The rows -/

/-- The byte strings that push these rows of `u`'s framebuffer (R96). -/
def rowPushes (rows : List Nat) (u : State) : List (List Byte) :=
  rows.map fun row => paySeq (digitAddr row) (readRow row u)

/-- `u` is reached from `s` by pushing these rows in order, each as `u` has it: but for the framebuffer, the bus and the
select line, `u` is what those transactions leave of `s`. -/
abbrev Pushed (rows : List Nat) (s u : State) : Prop :=
  u = { afterTransactions (rowPushes rows u) s with mem := u.mem, busOwned := u.busOwned, sel := u.sel }

theorem Pushed.params {rows : List Nat} {s u : State} (h : Pushed rows s u) : u.params = s.params := by
  have hparams := congrArg State.params h
  exact hparams

theorem Pushed.devices {rows : List Nat} {s u : State} (h : Pushed rows s u) :
    u.devices = (rowPushes rows u).foldl (fun devices bytes => latchBytes bytes devices) s.devices :=
  congrArg State.devices h

/-- The rows pushed are the transactions on record, in order (R28). -/
theorem Pushed.transactions {rows : List Nat} {s u : State} (h : Pushed rows s u) :
    transactions u = transactions s ++ rowPushes rows u := by
  have hlen : ∀ bytes ∈ rowPushes rows u, bytes.length = 2 * s.params.n := by
    simp [rowPushes, paySeq_length, readRow_length, h.params]
  have hhistory := congrArg State.history h
  have hrecord : Machine.transactions u = Machine.transactions (afterTransactions (rowPushes rows u) s) := by
    unfold Machine.transactions
    rw [h.params, hhistory]
    rfl
  rw [hrecord]
  exact completedTransactionsAreOnRecord _ s hlen

theorem Pushed.nil (s : State) : Pushed [] s s := by
  simp [Pushed, rowPushes, afterTransactions_nil]

/-- One more row pushed first, if the later rounds leave it as it was sent. -/
theorem Pushed.cons {row : Nat} {rows : List Nat} {s v u : State} (hfirst : Pushed [row] s v) (hrest : Pushed rows v u)
    (hrow : readRow row u = readRow row v) : Pushed (row :: rows) s u := by
  have hpushes : rowPushes (row :: rows) u = rowPushes [row] v ++ rowPushes rows u := by simp [rowPushes, hrow]
  unfold Pushed
  rw [hpushes, ← afterTransactions_append]
  exact Eq.trans hrest (congrArg (fun w : State => { afterTransactions (rowPushes rows u) w with
    mem := u.mem, busOwned := u.busOwned, sel := u.sel }) hfirst)

/-- A push that completes, of a row whose cells were edited just before. -/
theorem pushRow_go {k row : Nat} {m : Memory} {s u : State} (h : pushRow k row { s with mem := m } = .go u) :
    u.mem = m ∧ Pushed [row] s u := by
  obtain ⟨hgo, _⟩ := transact_completes_or_halts (u := { s with mem := m }) k
    (bytes := paySeq (digitAddr row) (readRow row { s with mem := m })) (by rw [paySeq_length, readRow_length])
  rw [hgo u h]
  exact ⟨rfl, by simp [Pushed, rowPushes, afterTransact, afterTransactions, readRow, readCell]⟩

/-- Editing a row before it is pushed keeps the canonical form and leaves the other rows alone. -/
structure EditsOwnRow (edit : Nat → Memory → Memory) : Prop where
  wf : ∀ k m, Memory.wf m = true → Memory.wf (edit k m) = true
  others : ∀ k < 8, ∀ row < 8, row ≠ k → ∀ d m, Memory.wf m = true →
    memRead (edit k m) (cellAddr row d) = memRead m (cellAddr row d)

/-- Rows that are not edited stay as they are. -/
theorem EditsOwnRow.foldl {edit : Nat → Memory → Memory} (hedit : EditsOwnRow edit) {ks : List Nat}
    (hks : ∀ k ∈ ks, k < 8) {row : Nat} (hrow : row < 8) (hnot : row ∉ ks) (d : Nat)
    {m : Memory} (hwf : Memory.wf m = true) :
    memRead (ks.foldl (fun m k => edit k m) m) (cellAddr row d) = memRead m (cellAddr row d) := by
  induction ks generalizing m with
  | nil => rfl
  | cons k ks ih =>
    obtain ⟨hk, hks⟩ := List.forall_mem_cons.1 hks
    obtain ⟨hne, hnot⟩ := not_or.1 (List.mem_cons.not.1 hnot)
    exact (ih hks hnot (hedit.wf k m hwf)).trans (hedit.others k hk row hrow hne d m hwf)

theorem andThen_go {r : Run} {f : State → Run} {u : State} (h : andThen r f = .go u) : ∃ v, r = .go v ∧ f v = .go u := by
  cases r with
  | go v => exact ⟨v, rfl, h⟩
  | stop v => cases h

/-- Rows edited and pushed one after another: a row once pushed is not edited again, so each was sent as it is in the
end. -/
theorem forEach_pushRow_go {edit : Nat → Memory → Memory} (hedit : EditsOwnRow edit) {ks : List Nat} (hnodup : ks.Nodup)
    (hks : ∀ k ∈ ks, k < 8) {s u : State} (hwf : Memory.wf s.mem = true)
    (h : forEach ks (fun k s => pushRow k k { s with mem := edit k s.mem }) s = .go u) :
    u.mem = ks.foldl (fun m k => edit k m) s.mem ∧ Pushed ks s u := by
  induction ks generalizing s with
  | nil =>
    cases h
    exact ⟨rfl, Pushed.nil _⟩
  | cons k ks ih =>
    obtain ⟨hnot, hnodup⟩ := List.nodup_cons.1 hnodup
    obtain ⟨hk, hks⟩ := List.forall_mem_cons.1 hks
    obtain ⟨v, hfirst, hrest⟩ := andThen_go h
    obtain ⟨hmem, hpushed⟩ := pushRow_go hfirst
    have hwf' : Memory.wf v.mem = true := hmem ▸ hedit.wf k s.mem hwf
    obtain ⟨hmem', hpushed'⟩ := ih hnodup hks hwf' hrest
    refine ⟨by rw [hmem', hmem]; rfl, hpushed.cons hpushed' ?_⟩
    unfold readRow readCell
    rw [hpushed'.params, hmem']
    exact List.map_congr_left fun d _ => hedit.foldl hks hk hnot d hwf'

/-! ### A run to its end -/

/-- Matrix command `i` ran from `s` to its end in `u`: each cell is what the command makes of it, and the rows it pushes
were sent as they are in the end (R97 to R100). -/
structure Draws (i : Instr) (s u : State) : Prop where
  wf : Memory.wf u.mem = true
  cells : ∀ row < 8, ∀ d, readCell row d u = cellAfter s.params.n row d (readCell row d s) i
  pushed : Pushed (pushedRows i) s u

variable {s u : State}

theorem clearMatrix_draws (hwf : Memory.wf s.mem = true) (h : clearMatrix s = .go u) : Draws .mxclr s u := by
  obtain ⟨m, hclear, hm, hcells⟩ := clearRows_cells le_rfl hwf
  have hclear : clearCells s = { s with mem := m } := hclear
  rw [clearMatrix, hclear] at h
  obtain ⟨hmem, hpushed⟩ := forEach_pushRow_go (edit := fun _ m => m) ⟨fun _ _ hm => hm, fun _ _ _ _ _ _ _ _ => rfl⟩
    List.nodup_range (fun _ => List.mem_range.1) (s := { s with mem := m }) hm h
  have hmem : u.mem = m := hmem
  exact ⟨hmem ▸ hm, fun row hrow d => by simp [readCell, hmem, hcells row hrow d, cellAfter, hrow], hpushed⟩

theorem setRow_draws {row : Byte} {rmask : Nat} (hrow : row.toNat < 8) (hwf : Memory.wf s.mem = true)
    (h : setRow row.toNat rmask s = .go u) : Draws (.mxrow row rmask) s u := by
  obtain ⟨m, hwrite, hm, hcells⟩ := writeRow_cells hrow (maskByte rmask) hwf
  rw [setRow, hwrite] at h
  obtain ⟨rfl, hpushed⟩ := pushRow_go h
  exact ⟨hm, hcells, hpushed⟩

theorem setCol_draws {col : Half} {cmask : Byte} (hwf : Memory.wf s.mem = true) (h : setCol col.toNat cmask s = .go u) :
    Draws (.mxcol col cmask) s u := by
  have hrows : ∀ row ∈ List.range 8, row < 8 := fun _ => List.mem_range.1
  have hedit : EditsOwnRow fun row m => memWrite m (cellAddr row (col.toNat / 8))
      (setBit (col.toNat % 8) (cmask.getLsbD row) (memRead m (cellAddr row (col.toNat / 8)))) := by
    refine ⟨fun _ _ => memWrite_wf, fun k hk row hrow hne d m hm => ?_⟩
    rw [memRead_memWrite hm, if_neg fun heq => hne ((cellAddr_inj hrow hk).1 heq).1]
  obtain ⟨hmem, hpushed⟩ := forEach_pushRow_go hedit List.nodup_range hrows hwf h
  obtain ⟨hm, hcolumn, hothers, _⟩ :=
    colMemory_spec (col.toNat / 8) (col.toNat % 8) cmask (List.range 8) s.mem hwf List.nodup_range hrows
  have hmem : u.mem = colMemory (col.toNat / 8) (col.toNat % 8) cmask (List.range 8) s.mem := hmem
  refine ⟨hmem ▸ hm, fun row hrow d => ?_, hpushed⟩
  simp only [readCell, cellAfter, hmem]
  by_cases hd : d = col.toNat / 8
  · rw [if_pos hd, hd]
    exact hcolumn row (List.mem_range.2 hrow)
  · rw [if_neg hd]
    exact hothers _ fun k hk heq => hd ((cellAddr_inj hrow (hrows k hk)).1 heq).2

theorem setLed_draws {row : Byte} {col : Half} {led : Bool} (hrow : row.toNat < 8) (hwf : Memory.wf s.mem = true)
    (h : setLed row.toNat col.toNat led s = .go u) : Draws (.mxled row col led) s u := by
  obtain ⟨hmem, hpushed⟩ := pushRow_go h
  refine ⟨hmem ▸ memWrite_wf hwf, fun row' hrow' d => ?_, hpushed⟩
  simp only [readCell, cellAfter, hmem, memRead_memWrite hwf, cellAddr_inj hrow' hrow]
  split_ifs with hc
  · rw [hc.1, hc.2]
  · rfl

/-- What every matrix command that runs to its end has done. -/
theorem matrixRun_draws {i : Instr} (hmatrix : isMatrixCommand i = true) (hrange : inRange s.params.n i = true)
    (hwf : Memory.wf s.mem = true) (h : matrixRun i s = .go u) : Draws i s u := by
  cases i with
  | mxclr => exact clearMatrix_draws hwf h
  | mxrow row rmask => exact setRow_draws (pushedRows_lt hrange _ (List.mem_singleton_self _)) hwf h
  | mxcol col cmask => exact setCol_draws hwf h
  | mxled row col led => exact setLed_draws (pushedRows_lt hrange _ (List.mem_singleton_self _)) hwf h
  | _ => simp [isMatrixCommand, Instr.frontend] at hmatrix

end Sys2Proof.Machine
end

section
/-! PROOFS. What the framebuffer holds and what was sent after a matrix command (spec/41_matrix.md R104 to R106): read off
what the command makes of each cell and the rows it pushed (`Draws`). Obligations O18, O21 and O24. -/

namespace Sys2Proof.Machine

variable {i : Instr} {s t : State}

/-- What a matrix command that returned OK has done, up to its start and its return. -/
theorem draws_of_returns_ok (hmatrix : isMatrixCommand i = true) (hwf : Memory.wf s.mem = true) (h : exec i s = .next t)
    (hok : t.returned = s.returned ++ [(s.cmdIndex, .ok)]) : ∃ u, Draws i (start s) u ∧ t = complete .ok u := by
  obtain ⟨⟨_, hrange⟩, u, hrun, ht⟩ := matrix_returns_ok hmatrix h hok
  exact ⟨u, matrixRun_draws (s := start s) hmatrix hrange hwf hrun, ht⟩

/-- Settles O18: every cell of the chain is cleared, so each of the eight rows pushed is the broadcast of a zero. -/
theorem mxclrClearsInEightTransactions : Obligations.MxclrClearsInEightTransactions := by
  unfold Obligations.MxclrClearsInEightTransactions
  rintro s t ⟨hwf, _⟩ h hok
  obtain ⟨u, hdraws, rfl⟩ := draws_of_returns_ok rfl hwf h hok
  have hparams : u.params = s.params := hdraws.pushed.params
  have hclear : ∀ row d, row < 8 → d < u.params.n → readCell row d u = 0x00 := fun row d hrow hd =>
    (hdraws.cells row hrow d).trans (if_pos (hparams ▸ hd))
  refine ⟨hclear, hdraws.pushed.transactions.trans (congrArg _ (List.map_congr_left fun row hrow => ?_))⟩
  have hzeros : readRow row u = List.replicate u.params.n 0x00 := by
    refine List.eq_replicate_iff.2 ⟨readRow_length row u, fun b hb => ?_⟩
    obtain ⟨d, hd, rfl⟩ := List.mem_map.1 hb
    exact hclear row d (List.mem_range.1 hrow) (List.mem_range.1 hd)
  rw [hzeros, paySeq, List.flatMap_def, List.map_replicate]
  rfl

/-- Settles O21: MXCOL sets or clears the column's bit of each row's cell, and `getLsbD_setBit` reads it back. -/
theorem mxcolColumnIsTheMask : Obligations.MxcolColumnIsTheMask := by
  unfold Obligations.MxcolColumnIsTheMask
  rintro s t col cmask ⟨hwf, _⟩ h hok row hrow
  obtain ⟨u, hdraws, rfl⟩ := draws_of_returns_ok rfl hwf h hok
  have hcell : readCell row (col.toNat / 8) u =
      setBit (col.toNat % 8) (cmask.getLsbD row) (readCell row (col.toNat / 8) s) :=
    (hdraws.cells row hrow _).trans (if_pos rfl)
  change (readCell row (col.toNat / 8) u).getLsbD (col.toNat % 8) = cmask.getLsbD row
  rw [hcell, getLsbD_setBit (Nat.mod_lt _ (by decide)), if_pos rfl]

/-- The second of two runs of one command finds every cell as it would leave it. -/
theorem Draws.twice {u v w : State} (hfirst : Draws i s u) (hsecond : Draws i v w) (hmem : v.mem = u.mem)
    (hparams : v.params = s.params) : w.mem = u.mem := by
  refine memory_ext_cells hsecond.wf hfirst.wf fun row hrow d => ?_
  calc readCell row d w = cellAfter s.params.n row d (readCell row d v) i := by rw [hsecond.cells row hrow d, hparams]
    _ = cellAfter s.params.n row d (readCell row d u) i := by rw [readCell_mem hmem]
    _ = readCell row d u := by rw [hfirst.cells row hrow d, cellAfter_cellAfter]

/-- The rows pushed are those of the framebuffer on that chain. -/
theorem rowPushes_congr {u v : State} (hmem : u.mem = v.mem) (hparams : u.params = v.params) (rows : List Nat) :
    rowPushes rows u = rowPushes rows v := by
  simp only [rowPushes, readRow_eq hmem hparams]

/-- What a matrix command that could not run has left alone. -/
theorem rejected_keeps (ht : (∃ r, t = refuse r s) ∨ t = complete .fail s) :
    t.params = s.params ∧ t.mem = s.mem ∧ t.devices = s.devices ∧ transactions t = transactions s := by
  rcases ht with ⟨r, rfl⟩ | rfl <;> exact ⟨rfl, rfl, rfl, rfl⟩

/-- A matrix command repeated, neither time faulting or left executing. -/
theorem matrix_repeated {u : State} (hmatrix : isMatrixCommand i = true) (hwf : Memory.wf s.mem = true)
    (hfirst : exec i s = .next t) (htfault : t.fault = none) (htidle : t.activity = .idle)
    (hsecond : exec i t = .next u) (hufault : u.fault = none) (huidle : u.activity = .idle) :
    u.mem = t.mem ∧ ∃ txs, transactions t = transactions s ++ txs ∧ transactions u = transactions t ++ txs := by
  rcases matrix_ends hmatrix hfirst htfault htidle with ⟨hnot, ht⟩ | ⟨⟨hfrontend, hrange⟩, v, hrun, rfl⟩
  · obtain ⟨hparams, _, _, htxs⟩ := rejected_keeps ht
    rcases matrix_ends hmatrix hsecond hufault huidle with ⟨_, hu⟩ | ⟨hruns, _⟩
    · obtain ⟨_, hmem, _, htxs'⟩ := rejected_keeps hu
      exact ⟨hmem, [], by rw [htxs, List.append_nil], by rw [htxs', List.append_nil]⟩
    · exact absurd (hparams ▸ hruns) hnot
  · have hdraws : Draws i (start s) v := matrixRun_draws (s := start s) hmatrix hrange hwf hrun
    have hparams : v.params = s.params := hdraws.pushed.params
    rcases matrix_ends hmatrix hsecond hufault huidle with ⟨hnot, _⟩ | ⟨⟨_, hrange'⟩, w, hrun', rfl⟩
    · exact absurd (show Runs v.params i from hparams ▸ ⟨hfrontend, hrange⟩) hnot
    · have hdraws' : Draws i (start (complete .ok v)) w :=
        matrixRun_draws (s := start (complete .ok v)) hmatrix hrange' hdraws.wf hrun'
      have hmem : w.mem = v.mem := hdraws.twice hdraws' rfl hparams
      refine ⟨hmem, rowPushes (pushedRows i) v, hdraws.pushed.transactions, ?_⟩
      rw [← rowPushes_congr hmem hdraws'.pushed.params]
      exact hdraws'.pushed.transactions

/-- Settles O24: any matrix command may be repeated (`matrix_repeated`), for what it makes of a cell it makes of it again
(`cellAfter_cellAfter`). -/
theorem matrixSettersAreIdempotent : Obligations.MatrixSettersAreIdempotent := by
  unfold Obligations.MatrixSettersAreIdempotent
  intro i s t u hsetter ⟨hwf, _⟩ _ hfirst htfault htidle hsecond hufault huidle
  have hmatrix : isMatrixCommand i = true := by
    rcases hsetter with ⟨row, rmask, rfl⟩ | ⟨col, cmask, rfl⟩ | ⟨row, col, led, rfl⟩ <;> rfl
  exact matrix_repeated hmatrix hwf hfirst htfault htidle hsecond hufault huidle

end Sys2Proof.Machine
end

section
/-! PROOFS. What the devices hold after a matrix command (spec/41_matrix.md R101, R107): a row pushed reaches its digit
register of every device and no other register. Obligations O23 and O25. -/

namespace Sys2Proof.Machine

variable {i : Instr} {s t : State}

/-! ### One row -/

/-- Distinct rows are shown by distinct registers (R96). -/
theorem digitReg_inj {row row' : Nat} (hrow : row < 8) (hrow' : row' < 8) (h : digitReg row = digitReg row') :
    row = row' := by
  have hall : ∀ a < 8, ∀ b < 8, digitReg a = digitReg b → a = b := by decide
  exact hall row hrow row' hrow' h

/-- No digit register is a control register (R32). -/
theorem digitReg_not_control {row : Nat} {r : DevReg}
    (hr : r ∈ [DevReg.decode, .intensity, .scanlimit, .shutdown, .disptest]) : r ≠ digitReg row := by
  rintro rfl
  unfold digitReg at hr
  split at hr <;> simp at hr

/-- Slot `k` of a pushed row carries device `k`'s cell to the row's digit register (R96). -/
theorem slotOf_rowPush {row k : Nat} (hrow : row < 8) {u : State} (hk : k < u.params.n) :
    slotOf (paySeq (digitAddr row) (readRow row u)) k = some (frameOf (regAddr (digitReg row)) (readCell row k u)) := by
  rw [slotOf_paySeq, digitAddr_regAddr hrow]
  simp [readRow, hk]

/-- A pushed row is in its digit register of every device of the chain, and no other register changes (R101, R107). -/
theorem latch_rowPush {row k : Nat} (hrow : row < 8) {u : State} {devices : List Device}
    (hk : k < u.params.n) (hdevice : k < devices.length) (r : DevReg) :
    ((latchBytes (paySeq (digitAddr row) (readRow row u)) devices)[k]?).bind (regOf r) =
      if r = digitReg row then some (readCell row k u) else (devices[k]?).bind (regOf r) :=
  latch_reg_of_lt hdevice (slotOf_rowPush hrow hk) r

/-! ### The rows of a command -/

/-- After rows are pushed, the register of each holds its cell; and so does one that held it before (R101). -/
theorem latch_rowPushes {rows : List Nat} (hrows : ∀ row ∈ rows, row < 8) {u : State} {row k : Nat} (hrow : row < 8)
    (hk : k < u.params.n) {devices : List Device} (hdevice : k < devices.length)
    (hshown : row ∈ rows ∨ (devices[k]?).bind (regOf (digitReg row)) = some (readCell row k u)) :
    (((rowPushes rows u).foldl (fun devices bytes => latchBytes bytes devices) devices)[k]?).bind (regOf (digitReg row)) =
      some (readCell row k u) := by
  induction rows generalizing devices with
  | nil => exact hshown.resolve_left List.not_mem_nil
  | cons row' rows ih =>
    obtain ⟨hrow', hrows⟩ := List.forall_mem_cons.1 hrows
    refine ih hrows (by rwa [latchBytes_length]) ?_
    rw [latch_rowPush hrow' hk hdevice]
    by_cases hsame : row = row'
    · subst hsame
      exact .inr (if_pos rfl)
    · rw [if_neg fun heq => hsame (digitReg_inj hrow hrow' heq)]
      exact hshown.imp_left fun hmem => (List.mem_cons.1 hmem).resolve_left hsame

/-- Settles O23: the rows pushed are the final framebuffer's (`Pushed`), and their registers hold them
(`latch_rowPushes`). -/
theorem displayEqualsFramebuffer : Obligations.DisplayEqualsFramebuffer := by
  unfold Obligations.DisplayEqualsFramebuffer
  rintro i s t hmatrix ⟨hwf, _⟩ hchain h hok _ row hrow k hk
  obtain ⟨⟨_, hrange⟩, _⟩ := matrix_returns_ok hmatrix h hok
  obtain ⟨u, hdraws, rfl⟩ := draws_of_returns_ok hmatrix hwf h hok
  have hrows := pushedRows_lt hrange
  have hparams : u.params = s.params := hdraws.pushed.params
  have hk : k < u.params.n := hk
  have hdevice : k < (start s).devices.length := by rwa [start_devices, hchain, ← hparams]
  have hshown := latch_rowPushes hrows (hrows row hrow) hk hdevice (.inl hrow)
  rw [← hdraws.pushed.devices] at hshown
  exact hshown

/-! ### The control registers -/

/-- The chain is whole, and register `r` of its devices holds what it held in `s`. -/
structure KeepsReg (r : DevReg) (s u : State) : Prop where
  chain : u.devices.length = u.params.n
  holds : ∀ k : Nat, (u.devices[k]?).bind (regOf r) = (s.devices[k]?).bind (regOf r)

/-- A push that completes changes no register but the row's (R107). -/
theorem KeepsReg.pushRow {r : DevReg} {u : State} (h : KeepsReg r s u) (k : Nat) {row : Nat} (hrow : row < 8)
    (hr : r ≠ digitReg row) : RunKeeps (KeepsReg r s) (fun _ => True) (pushRow k row u) := by
  refine transact_keeps k _ u (fun _ => ⟨(latchBytes_length _ _).trans h.chain, fun j => ?_⟩) (fun _ _ _ _ => trivial)
    (fun _ _ _ _ => trivial)
  rw [← h.holds j]
  by_cases hj : j < u.params.n
  · exact (latch_rowPush hrow hj (h.chain ▸ hj) r).trans (if_neg hr)
  · exact latch_noop fun hdevice => absurd (h.chain ▸ hdevice) hj

/-- Settles O25: a command that ran only wrote cells and pushed rows (`matrixRun_keeps`), and a row pushed changes no
control register. -/
theorem matrixLeavesControlRegisters : Obligations.MatrixLeavesControlRegisters := by
  unfold Obligations.MatrixLeavesControlRegisters
  intro i s t k r hmatrix hchain h hfault hidle hr
  rcases matrix_ends hmatrix h hfault hidle with ⟨_, ht⟩ | ⟨⟨_, hrange⟩, u, hrun, rfl⟩
  · obtain ⟨_, _, hdevices, _⟩ := rejected_keeps ht
    rw [hdevices]
  · have hstart : KeepsReg r s (start s) := ⟨hchain, fun _ => rfl⟩
    have hkeeps := matrixRun_keeps (P := KeepsReg r s) (s := start s) hrange (fun _ _ _ _ hu => { hu with })
      (fun _ k _ hrow hu => hu.pushRow k hrow (digitReg_not_control hr)) hstart
    exact (hkeeps.1 u hrun).holds k

end Sys2Proof.Machine
end

section
/-! PROOFS. The seven-segment commands from a ready controller (spec/42_sevenseg.md R108 to R114): SSINIT is one broadcast,
SSCLR a loop of eight, SSHEX one write of the numeral's pattern or, with a digit over 7, nothing. Obligations O27, O28, O29
and O31. -/

namespace Sys2Proof.Machine

variable {s : State}

/-- A ready controller with the SEVENSEG front-end runs a seven-segment command. -/
theorem accept_sevenseg {op : Nat} {body : State → Result} (hready : Ready s) (hsevenseg : s.params.frontend = .sevenseg) :
    accept .sevenseg op body s = body s := by
  obtain ⟨hfault, hidle, _⟩ := hready
  exact accept_ready hfault hidle (.inr hsevenseg.symm)

/-! ### SSINIT and SSCLR -/

theorem exec_ssinit (hready : Ready s) (hsevenseg : s.params.frontend = .sevenseg) :
    exec .ssinit s = finish (initSegments (start s)) := by
  simp only [exec, execSsinit, accept_sevenseg hready hsevenseg]

theorem exec_ssclr (hready : Ready s) (hsevenseg : s.params.frontend = .sevenseg) :
    exec .ssclr s = finish (clearSegments (start s)) := by
  simp only [exec, execSsclr, accept_sevenseg hready hsevenseg]

/-- Settles O27: the broadcast is one transaction that completes (`finish_transact_ok`). -/
theorem ssinitSendsRawDecode : Obligations.SsinitSendsRawDecode := by
  unfold Obligations.SsinitSendsRawDecode
  intro s hready hsevenseg hok
  exact (exec_ssinit hready hsevenseg).trans (finish_transact_ok hready (by rwa [uniSeq_length]))

/-- The broadcasts of SSCLR complete one after another (R110): their bytes depend on the parameters only. -/
theorem clearSegments_quiet (hquiet : Quiet s) (hok : AnswersOk (16 * s.params.n) s) :
    clearSegments s = .go (afterTransactions ((List.range 8).map fun k =>
      uniSeq s.params.n (digitAddr k) 0x00 s.params.tAll) s) :=
  forEach_transacts (b := fun k s => uniSeq s.params.n (digitAddr k) 0x00 s.params.tAll) (fun _ _ _ => rfl) _
    (fun _ => uniSeq_length _ _ _ _) hquiet (answersOk_mono hok (by rw [List.length_range]; omega))

/-- Settles O28: the loop completes (`clearSegments_quiet`), so the command returns OK. -/
theorem ssclrBlanksEveryDigit : Obligations.SsclrBlanksEveryDigit := by
  unfold Obligations.SsclrBlanksEveryDigit
  intro s hready hsevenseg hok
  have ⟨_, hidle, hquiet⟩ := hready
  rw [exec_ssclr hready hsevenseg, clearSegments_quiet (s := start s) hquiet hok, finish_transactions' hidle]
  rfl

/-! ### SSHEX -/

/-- SSHEX with a digit that exists is one transaction, which completes (R111). -/
theorem exec_sshex_ok (hready : Ready s) (hsevenseg : s.params.frontend = .sevenseg) (hok : AnswersOk (2 * s.params.n) s)
    {digit hexval pattern : Byte} (hdigit : digit.toNat ≤ 7)
    (hpattern : s.params.hexTable[hexIndex hexval]? = some pattern) (tgt : Nat) : exec (.sshex digit hexval tgt) s =
      .next (returning .ok (afterTransactions [uniSeq s.params.n (digitAddr digit.toNat) pattern tgt] s)) := by
  simp only [exec, execSshex, accept_sevenseg hready hsevenseg, if_neg hdigit.not_gt, hpattern]
  exact finish_transact_ok hready (by rwa [uniSeq_length])

/-- SSHEX with a digit that does not exist only returns (R111, R143). -/
theorem exec_sshex_of_digit_gt (hready : Ready s) (hsevenseg : s.params.frontend = .sevenseg) {digit : Byte}
    (hdigit : 7 < digit.toNat) (hexval : Byte) (tgt : Nat) :
    exec (.sshex digit hexval tgt) s = .next (returning .ok s) := by
  have ⟨_, hidle, _⟩ := hready
  simp only [exec, execSshex, accept_sevenseg hready hsevenseg, if_pos hdigit, complete_ok_idle hidle]

/-- Legal parameters have a pattern for each of the sixteen numerals (R108, R159). -/
theorem hexTable_of_lt {p : Params} (hlegal : p.Legal) {v : Nat} (hv : v < 16) :
    ∃ pattern, p.hexTable[v]? = some pattern := by
  obtain ⟨_, _, _, hlen⟩ := hlegal
  exact ⟨_, List.getElem?_eq_getElem (hlen ▸ hv)⟩

/-- The numeral's index is the low nibble (R111). -/
theorem hexIndex_eq_mod (hexval : Byte) : hexIndex hexval = hexval.toNat % 16 := by
  rw [hexIndex, BitVec.toNat_and]
  exact Nat.and_two_pow_sub_one_eq_mod hexval.toNat 4

/-- Settles O29: the numeral's index is in the table (`hexTable_of_lt`), and its pattern is sent (`exec_sshex_ok`). -/
theorem sshexSendsThePattern : Obligations.SshexSendsThePattern := by
  unfold Obligations.SshexSendsThePattern
  intro s digit hexval tgt hready hsevenseg hlegal hok hdigit
  have hindex : hexIndex hexval < 16 := hexIndex_eq_mod hexval ▸ Nat.mod_lt _ (by decide)
  obtain ⟨pattern, hpattern⟩ := hexTable_of_lt hlegal hindex
  exact ⟨pattern, hpattern, exec_sshex_ok hready hsevenseg hok hdigit hpattern tgt⟩

/-- A single hexadecimal digit is its own index in the table (R114). -/
theorem hexIndex_ofNat {v : Nat} (hv : v < 16) : hexIndex (BitVec.ofNat 8 v) = v := by
  rw [hexIndex_eq_mod, BitVec.toNat_ofNat]
  omega

/-- Settles O31: numeral `v` has index `v` (`hexIndex_ofNat`), and the one transaction sent is on record
(`completedTransactionsAreOnRecord`); digit 8 sends nothing. -/
theorem sshexFollowsTheTable : Obligations.SshexFollowsTheTable := by
  unfold Obligations.SshexFollowsTheTable
  intro s digit v tgt hready hsevenseg hlegal hv
  refine ⟨fun hdigit hok => ?_, _, exec_sshex_of_digit_gt hready hsevenseg (by decide) _ tgt, rfl⟩
  obtain ⟨pattern, hpattern⟩ := hexTable_of_lt hlegal hv
  refine ⟨_, pattern, exec_sshex_ok hready hsevenseg hok hdigit (by rwa [hexIndex_ofNat hv]) tgt, hpattern, ?_⟩
  exact completedTransactionsAreOnRecord _ s (List.forall_mem_singleton.2 (uniSeq_length _ _ _ _))

end Sys2Proof.Machine
end

section
/-! PROOFS. The wire frames (spec/43_wire_frames.md R116 to R135): what a frame writes to the device at the edge, and what an
undocumented frame leaves. Obligations O41, O42, O43 and O45. -/

namespace Sys2Proof.Machine

/-! ### One frame at an edge -/

/-- Settles O43: a step at an edge latches the device that is next (`step_latches`). -/
theorem frameStepIsTheLatch : Obligations.FrameStepIsTheLatch := by
  unfold Obligations.FrameStepIsTheLatch
  intro s k ks hlatch
  exact step_latches hlatch

/-- Settles O42: a frame acts only at the edge (`exec_frame`), and there is none (`atEdge_nil`). -/
theorem frameWithoutAnEdge : Obligations.FrameWithoutAnEdge := by
  unfold Obligations.FrameWithoutAnEdge
  intro i s hframe hlatch
  obtain ⟨f, hexec⟩ := exec_frame hframe s
  rw [hexec, atEdge_nil hlatch]

/-- A register write at an edge changes that register of the device that is next, and takes the device off the edge. -/
theorem writeAtEdge_cons {s : State} {k : Nat} {ks : List Nat} (hlatch : s.latching = k :: ks) (r : DevReg) (d : Byte) :
    writeAtEdge r d s = { s with latching := ks, devices := s.devices.modify k (writeReg r d) } :=
  atEdge_cons hlatch

/-- Settles O41: NOOP changes no device (`List.modify_id`), and each other frame is the write of its register at the edge
(`writeAtEdge_cons`). -/
theorem framesWriteTheirRegister : Obligations.FramesWriteTheirRegister := by
  unfold Obligations.FramesWriteTheirRegister
  intro s k ks d hlatch
  have hnoop : exec .noop s = .next { s with latching := ks } := by
    simp only [exec, execNoop, atEdge_cons hlatch, List.modify_id]
  have hwrite (r : DevReg) : (.next (writeAtEdge r d s) : Result) =
      .next { s with latching := ks, devices := s.devices.modify k (writeReg r d) } :=
    congrArg _ (writeAtEdge_cons hlatch r d)
  exact ⟨hnoop, hwrite .digit0, hwrite .digit1, hwrite .digit2, hwrite .digit3, hwrite .digit4, hwrite .digit5,
    hwrite .digit6, hwrite .digit7, hwrite .decode, hwrite .intensity, hwrite .scanlimit, hwrite .shutdown,
    hwrite .disptest⟩

/-! ### An undocumented frame -/

/-- The step of a device with an undocumented frame takes every register's value from it, and nothing else changes (R133). -/
theorem step_of_undocumented {s : State} {k : Nat} {ks : List Nat} {a d : Byte} (hundocumented : Undocumented a d)
    (hlatch : s.latching = k :: ks) (hframe : frameAt k s = some (frameOf a d)) :
    step s = .next { s with latching := ks, devices := s.devices.modify k loseRegs } := by
  have hdecode : decodeFrame (frameAddr (frameOf a d)) (frameData (frameOf a d)) = none := by
    rw [frameAddr_frameOf, frameData_frameOf]
    exact decodeFrame_eq_none_iff.2 hundocumented
  calc step s = stepFrame k s := step_of_latching hlatch
    _ = .next (atEdge loseRegs s) := by simp only [stepFrame, hframe, hdecode, execUndocumented]
    _ = _ := congrArg _ (atEdge_cons hlatch)

/-- After an undocumented frame a documented one gives its register the value and leaves the others with none (R133). -/
theorem regOf_applyFrame_loseRegs (r r' : DevReg) (v : Byte) (dev : Device) :
    regOf r' (applyFrame (regAddr r) v (loseRegs dev)) = if r' = r then some v else none := by
  rw [applyFrame_regAddr, regOf_writeReg, regOf_loseRegs]

/-- Settles O45: the step takes the device's registers (`step_of_undocumented`), whose observation then faults
(`regOf_loseRegs`), and a later frame gives one a value (`regOf_applyFrame_loseRegs`). -/
theorem undocumentedFrameLosesTheDevice : Obligations.UndocumentedFrameLosesTheDevice := by
  unfold Obligations.UndocumentedFrameLosesTheDevice
  intro s k ks a d hundocumented hlatch hframe
  obtain ⟨dev, hdev, _⟩ := Option.map_eq_some_iff.1 hframe
  have hlost : (s.devices.modify k loseRegs)[k]? = some (loseRegs dev) := by
    rw [List.getElem?_modify_eq, hdev]
    rfl
  refine ⟨_, step_of_undocumented hundocumented hlatch hframe, fun r => ?_, fun j hj => ?_, fun dev' hdev' r r' v => ?_⟩
  · rw [observeReg_of_device hlost, regOf_loseRegs]
    rfl
  · exact List.getElem?_modify_ne loseRegs s.devices hj.symm
  · obtain rfl := Option.some.inj (hlost.symm.trans hdev')
    have hreg (q : DevReg) := regOf_applyFrame_loseRegs r q v dev
    exact ⟨(hreg r).trans (if_pos rfl), fun hr => (hreg r').trans (if_neg hr)⟩

end Sys2Proof.Machine
end

section
/-! PROOFS. What ends a command early or keeps it from running (spec/60_exceptions.md R142, R143, R148 to R150, R159): the
recorded fault, the command that is executing, the operand out of range, and the failure of construction's SSINIT.
Obligations O30, O34, O35 and O52, and the range errors of O32. -/

namespace Sys2Proof.Machine

variable {s : State}

/-- Settles O30: the command only returns (`exec_sshex_of_digit_gt`). -/
theorem sshexDigitOverSevenDoesNothing : Obligations.SshexDigitOverSevenDoesNothing := by
  unfold Obligations.SshexDigitOverSevenDoesNothing
  intro s digit hexval tgt hready hsevenseg hdigit
  exact exec_sshex_of_digit_gt hready hsevenseg hdigit hexval tgt

/-! ### The acceptance of a command -/

/-- Once a fault is recorded no command is taken (R150). -/
theorem accept_of_fault {need : Frontend} {op : Nat} {body : State → Result} {r : FaultRecord} (hfault : s.fault = some r) :
    accept need op body s = .fault .afterFault := by
  simp [accept, hfault]

/-- A command given while another is executing is refused (R148, R149). -/
theorem accept_of_busy {need : Frontend} {op : Nat} {body : State → Result} (hfault : s.fault = none)
    (hbusy : s.activity ≠ .idle) : accept need op body s = .next (refuse .reentrant s) := by
  simp [accept, hfault, hbusy]

/-- Every command begins with an acceptance. -/
theorem command_eq_accept {i : Instr} (hcommand : i.isFrame = false) (s : State) :
    ∃ op body, exec i s = accept i.frontend op body s := by
  obtain ⟨op, hop⟩ := Instr.isFrame_eq_false_iff.1 hcommand
  exact ⟨op, exec_eq_accept hop s⟩

/-- Settles O34: the command's acceptance (`command_eq_accept`) refuses it (`accept_of_busy`). -/
theorem reentrantIssueIsRefused : Obligations.ReentrantIssueIsRefused := by
  unfold Obligations.ReentrantIssueIsRefused
  intro i s hcommand hfault hbusy
  obtain ⟨op, body, hexec⟩ := command_eq_accept hcommand s
  exact hexec.trans (accept_of_busy hfault hbusy)

/-! ### A recorded fault -/

/-- With a fault recorded and no edge under way there is no further step (R150). -/
theorem step_of_fault {r : FaultRecord} (hlatch : s.latching = []) (hfault : s.fault = some r) :
    step s = .fault .afterFault := by
  simp [step, hlatch, hfault]

/-- Settles O35: no command is accepted (`accept_of_fault`), no step is the controller's (`step_of_fault`), and the mark is
sticky (`marksAndHistoryOnlyGrow`). -/
theorem faultIsFinal : Obligations.FaultIsFinal := by
  unfold Obligations.FaultIsFinal
  intro s r hfault
  refine ⟨fun i hcommand => ?_, fun hlatch => step_of_fault hlatch hfault, fun t h => ?_⟩
  · obtain ⟨op, body, hexec⟩ := command_eq_accept hcommand s
    exact hexec.trans (accept_of_fault hfault)
  · obtain ⟨hsticky, _⟩ := marksAndHistoryOnlyGrow s t h
    exact hsticky r hfault

/-- Settles O52: SSINIT's one transaction fails at byte `j` (`transact_fail`) while construction is executing, so the record
has no command index and nothing is counted; the fault leaves no further step (`step_of_fault`). -/
theorem constructionFailure : Obligations.ConstructionFailure := by
  unfold Obligations.ConstructionFailure
  intro p answers j hlegal hsevenseg hj hok hfail
  have hrun : initSegments (constructing p answers) =
      .stop (raiseTransport 0 j (duringTransact (initBytes p) (j + 1) (constructing p answers))) :=
    transact_fail (s := constructing p answers) (by rwa [uniSeq_length]) hok hfail
  have hfault := raiseTransport_fault (duringTransact (initBytes p) (j + 1) (constructing p answers)) 0 j rfl
  exact ⟨_, (construct_of_sevenseg hlegal hsevenseg answers).trans (congrArg builtFrom hrun), hfault, rfl,
    step_of_fault rfl hfault⟩

/-! ### A range error -/

/-- A matrix command out of range only returns FAIL (R142). -/
theorem exec_of_out_of_range {i : Instr} (hready : Ready s) (hfrontend : s.params.frontend = .matrix)
    (hmatrix : isMatrixCommand i = true) (hrange : inRange s.params.n i = false) :
    exec i s = .next (returning .fail s) := by
  have ⟨_, hidle, _⟩ := hready
  obtain ⟨op, hexec⟩ := exec_matrix hmatrix s
  rw [hexec, accept_matrix hready hfrontend, ifInRange_false hrange, complete_fail_idle hidle]

end Sys2Proof.Machine
end

section
/-! PROOFS. How every command ends, with the number of transactions it makes (spec/70_reset_and_hazards.md R176): a run is
counted transaction by transaction (`Sends`, `Makes`), and a command answers in one of five ways (`CommandOutcome`).
Obligations O32 and O40. -/

namespace Sys2Proof.Machine

variable {s u t : State} {m : Nat}

/-! ### Counting the transactions of a run -/

/-- `u` is reached from `s` within a command by at most `m` completed transactions, and writes of cells. -/
structure Sends (m : Nat) (s u : State) : Prop extends Continues s u where
  count : ∃ txs : List (List Byte), txs.length ≤ m ∧ transactions u = transactions s ++ txs

/-- The run completed from `s` with at most `m` transactions, or a further one halted it. -/
inductive Makes (m : Nat) (s : State) : Run → Prop
  | completed (u : State) (hrun : Sends m s u) : Makes m s (.go u)
  | halted (u t : State) (hrun : Sends m s u) (hhalt : Halts u t) : Makes m s (.stop t)

theorem Sends.refl (s : State) : Sends 0 s s where
  toContinues := .refl s
  count := ⟨[], le_rfl, (List.append_nil _).symm⟩

theorem Sends.mono {m' : Nat} (h : Sends m s u) (hm : m ≤ m') : Sends m' s u where
  toContinues := h.toContinues
  count := by
    obtain ⟨txs, hlen, htxs⟩ := h.count
    exact ⟨txs, hlen.trans hm, htxs⟩

/-- A write of a cell is no transaction. -/
theorem Sends.writeCell (h : Sends m s u) (row d : Nat) (v : Byte) : Sends m s (writeCell row d v u) where
  toContinues := h.toContinues.writeCell row d v
  count := h.count

theorem Sends.writeRow (h : Sends m s u) (row : Nat) (v : Nat → Byte) : Sends m s (writeRow row v u) :=
  (writeRow_keeps row v u.params.n (fun _ d b _ hw => hw.writeCell row d b) rfl h).1

theorem Sends.clearCells (h : Sends m s u) : Sends m s (clearCells u) :=
  List.foldlRecOn (List.range 8) _ h fun _ hw row _ => hw.writeRow row _

/-- A completed transaction of whole chain length is one more on record (R28). -/
theorem transactions_afterTransact {bytes : List Byte} (hlen : bytes.length = 2 * u.params.n) :
    transactions (afterTransact bytes u) = transactions u ++ [bytes] := by
  have hrecord := tx_append u.params.n .outside u.history (transactionEvents bytes)
  rwa [tx_transaction _ _ _ hlen] at hrecord

/-- One more transaction counts if it completes, and halts the command if not. -/
theorem Sends.transact (h : Sends m s u) (k : Nat) {bytes : List Byte} (hlen : bytes.length = 2 * u.params.n) :
    Makes (m + 1) s (transact k bytes u) := by
  obtain ⟨hgo, hstop⟩ := transact_completes_or_halts k hlen
  cases hrun : Machine.transact k bytes u with
  | go v =>
    obtain ⟨txs, hcount, htxs⟩ := h.count
    rw [hgo v hrun]
    refine .completed _ ⟨h.toContinues.afterTransact bytes, txs ++ [bytes], ?_, ?_⟩
    · simpa using hcount
    · rw [transactions_afterTransact hlen, htxs, List.append_assoc]
  | stop t => exact .halted u t (h.mono (Nat.le_succ m)) (hstop t hrun)

theorem Sends.pushRow (h : Sends m s u) (k row : Nat) : Makes (m + 1) s (pushRow k row u) :=
  h.transact k (by rw [paySeq_length, readRow_length])

/-- A loop whose rounds make one transaction each makes at most one for each round (R93). -/
theorem Sends.forEach {f : Nat → State → Run} (hround : ∀ k m v, Sends m s v → Makes (m + 1) s (f k v)) (ks : List Nat)
    (h : Sends m s u) : Makes (m + ks.length) s (Machine.forEach ks f u) := by
  induction ks generalizing m u with
  | nil => exact .completed u h
  | cons k ks ih =>
    have hlen : m + (k :: ks).length = m + 1 + ks.length := by rw [List.length_cons]; omega
    have hfirst := hround k m u h
    rw [hlen, Machine.forEach]
    generalize f k u = r at hfirst
    cases hfirst with
    | completed v hv => exact ih hv
    | halted v t hv hhalt => exact .halted v t (hv.mono (Nat.le_add_right _ _)) hhalt

/-- A loop over the eight rows or digits. -/
theorem Sends.forEach_range_eight {f : Nat → State → Run} (hround : ∀ k m v, Sends m s v → Makes (m + 1) s (f k v))
    (h : Sends 0 s u) : Makes 8 s (Machine.forEach (List.range 8) f u) := by
  have hloop := h.forEach hround (List.range 8)
  rwa [List.length_range, Nat.zero_add] at hloop

/-! ### The runs of the commands -/

/-- MXCLR clears the cells, then pushes each row (R97). -/
theorem clearMatrix_makes (s : State) : Makes 8 s (clearMatrix s) := by
  have hclear : Sends 0 s (clearCells s) := (Sends.refl s).clearCells
  unfold clearMatrix
  exact hclear.forEach_range_eight fun k _ _ hv => hv.pushRow k k

/-- MXCOL updates the column's cell of each row and pushes the row (R99). -/
theorem setCol_makes (col : Nat) (cmask : Byte) (s : State) : Makes 8 s (setCol col cmask s) := by
  unfold setCol
  exact (Sends.refl s).forEach_range_eight fun k _ _ hv => (hv.writeCell k (col / 8) _).pushRow k k

/-- A matrix command pushes one row, or all eight (R97 to R100, R176). -/
theorem matrixRun_makes {i : Instr} (hmatrix : isMatrixCommand i = true) (s : State) :
    Makes (transactionBound i) s (matrixRun i s) := by
  cases i with
  | mxclr => exact clearMatrix_makes s
  | mxrow row rmask => exact ((Sends.refl s).writeRow row.toNat (maskByte rmask)).pushRow 0 row.toNat
  | mxcol col cmask => exact setCol_makes col.toNat cmask s
  | mxled row col led => exact ((Sends.refl s).writeCell row.toNat (col.toNat / 8) _).pushRow 0 row.toNat
  | _ => simp [isMatrixCommand, Instr.frontend] at hmatrix

/-- A command that sends one byte string of whole chain length. -/
theorem transact_makes {bytes : List Byte} (hlen : bytes.length = 2 * s.params.n) : Makes 1 s (transact 0 bytes s) :=
  (Sends.refl s).transact 0 hlen

/-- SSCLR blanks each of the eight digits by one broadcast (R110, R176). -/
theorem clearSegments_makes (s : State) : Makes 8 s (clearSegments s) :=
  (Sends.refl s).forEach_range_eight fun k _ _ hv => hv.transact k (uniSeq_length _ _ _ _)

/-! ### How a command ends -/

/-- The answers of a command where no fault is recorded: it is refused; SSHEX ignores a digit over 7; a matrix command is
out of range; its pseudocode runs within the bound of R176; or SSHEX lacks the table's entry, which legal parameters have. -/
inductive CommandOutcome (i : Instr) (s : State) : Result → Prop
  | refused (r : RefuseReason) : CommandOutcome i s (.next (refuse r s))
  | ignored : CommandOutcome i s (.next (complete .ok s))
  | outOfRange (hmatrix : isMatrixCommand i = true) : CommandOutcome i s (.next (complete .fail s))
  | ran (r : Run) (hrun : Makes (transactionBound i) (start s) r) : CommandOutcome i s (finish r)
  | noEntry (hillegal : ¬ s.params.Legal) : CommandOutcome i s (.fault .noHexEntry)

/-- The acceptance of a command refuses it or runs it, where no fault is recorded (R148). -/
theorem CommandOutcome.accept {i : Instr} {need : Frontend} {op : Nat} {body : State → Result} (hfault : s.fault = none)
    (h : CommandOutcome i s (body s)) : CommandOutcome i s (accept need op body s) := by
  unfold Machine.accept
  rw [hfault]
  split_ifs with hnever
  · cases hnever
  · exact .refused _
  · exact .refused _
  · exact h

/-- SSHEX ignores a digit over 7; otherwise it sends the numeral's pattern, which legal parameters have (R108, R111). -/
theorem sshex_outcome (hfault : s.fault = none) (digit hexval : Byte) (tgt : Nat) :
    CommandOutcome (.sshex digit hexval tgt) s (exec (.sshex digit hexval tgt) s) := by
  simp only [exec, execSshex]
  refine .accept hfault ?_
  split_ifs with hdigit
  · exact .ignored
  · cases hpattern : s.params.hexTable[hexIndex hexval]? with
    | some pattern => exact .ran _ (transact_makes (uniSeq_length _ _ _ _))
    | none =>
      refine .noEntry fun hlegal => ?_
      obtain ⟨pattern, hentry⟩ := hexTable_of_lt hlegal (hexIndex_eq_mod hexval ▸ Nat.mod_lt hexval.toNat (by decide))
      rw [hpattern] at hentry
      cases hentry

/-- Every command answers in one of these ways: the matrix commands by `exec_matrix`, the others each by its meaning. -/
theorem command_outcome {i : Instr} (hcommand : i.isFrame = false) (hfault : s.fault = none) :
    CommandOutcome i s (exec i s) := by
  by_cases hmatrix : isMatrixCommand i = true
  · obtain ⟨op, hexec⟩ := exec_matrix hmatrix s
    rw [hexec]
    refine .accept hfault ?_
    unfold ifInRange
    split_ifs with hrange
    · exact .ran _ (matrixRun_makes hmatrix _)
    · exact .outOfRange hmatrix
  · cases i with
    | wrreg reg val tgt =>
      simp only [exec, execWrreg]
      exact .accept hfault (.ran _ (transact_makes (uniSeq_length _ _ _ _)))
    | wrall reg payload =>
      simp only [exec, execWrall]
      refine .accept hfault ?_
      split_ifs with hlen
      · exact .ran _ (transact_makes (by rw [paySeq_length, hlen]; rfl))
      · exact .refused _
    | mxclr | mxrow | mxcol | mxled => exact absurd rfl hmatrix
    | ssinit =>
      simp only [exec, execSsinit]
      exact .accept hfault (.ran _ (transact_makes (uniSeq_length _ _ _ _)))
    | ssclr =>
      simp only [exec, execSsclr]
      exact .accept hfault (.ran _ (clearSegments_makes _))
    | sshex digit hexval tgt => exact sshex_outcome hfault digit hexval tgt
    | _ => cases hcommand

/-! ### No FAIL but of a range error -/

/-- Only a matrix command returns FAIL (R142). -/
theorem CommandOutcome.returned {i : Instr} {answer : Result} (h : CommandOutcome i s answer)
    (hother : isMatrixCommand i = false) (hanswer : answer = .next t) :
    t.returned = s.returned ∨ t.returned = s.returned ++ [(s.cmdIndex, .ok)] := by
  cases h with
  | refused r =>
    cases hanswer
    exact .inl rfl
  | ignored =>
    cases hanswer
    exact .inr rfl
  | outOfRange hmatrix => simp [hother] at hmatrix
  | noEntry => cases hanswer
  | ran r hrun =>
    cases hrun with
    | completed u hu =>
      cases hanswer
      right
      rw [complete_returned, hu.returned, hu.cmdIndex]
      rfl
    | halted u v hu hhalt =>
      cases hanswer
      exact .inl (hhalt.returned.trans hu.returned)

/-- Settles O32: the matrix commands out of range by `exec_of_out_of_range`, the others by what `CommandOutcome.returned`
says of every command that is no matrix command. -/
theorem rangeErrorsDoNothing : Obligations.RangeErrorsDoNothing := by
  unfold Obligations.RangeErrorsDoNothing
  constructor
  · intro s hready hfrontend
    refine ⟨fun row rmask hrow => ?_, fun col cmask hcol => ?_, fun row col led hrowcol => ?_⟩ <;>
      refine exec_of_out_of_range hready hfrontend rfl ?_
    · exact decide_eq_false hrow.not_ge
    · exact decide_eq_false hcol.not_gt
    · rw [inRange, Bool.and_eq_false_iff]
      exact hrowcol.imp (fun h => decide_eq_false h.not_ge) (fun h => decide_eq_false h.not_ge)
  · intro i s t hi h
    obtain ⟨hcommand, hother⟩ : i.isFrame = false ∧ isMatrixCommand i = false := by
      rcases hi with ⟨reg, val, tgt, rfl⟩ | ⟨reg, payload, rfl⟩ | rfl | rfl | ⟨digit, hexval, tgt, rfl⟩ <;>
        exact ⟨rfl, rfl⟩
    obtain ⟨hfault, _⟩ := command_effect hcommand h trivial (fun _ _ => keptByWrites_true _)
    exact (command_outcome hcommand hfault).returned hother h

/-! ### A live transport -/

/-- Where the transport has no stall to answer, a halted transaction has failed: nothing executes any more, and it is not
on record as complete (R28, R144). -/
theorem Halts.of_live (h : Halts u t) (hlive : Answer.stall ∉ u.transport) :
    t.activity = .idle ∧ transactions t = transactions u := by
  cases h with
  | failed k j bytes => exact ⟨rfl, transactions_raiseTransport k j (j + 1) bytes u⟩
  | stalled j bytes _ _ hstall => exact absurd (List.mem_of_getElem? hstall) hlive

/-- The command ended in `t`: it counts, nothing executes, and at most `m` transactions were added to those on record. -/
def Ended (m : Nat) (s : State) (answer : Result) : Prop :=
  ∃ t txs, answer = .next t ∧ t.activity = .idle ∧ t.cmdIndex = s.cmdIndex + 1 ∧ txs.length ≤ m ∧
    transactions t = transactions s ++ txs

/-- A command that adds no transaction. -/
theorem ended_of_transactions_eq (hidle : t.activity = .idle) (hcount : t.cmdIndex = s.cmdIndex + 1)
    (hsame : transactions t = transactions s) : Ended m s (.next t) :=
  ⟨t, [], rfl, hidle, hcount, Nat.zero_le m, hsame.trans (List.append_nil _).symm⟩

/-- A run that no stall can halt ends the command (R139, R145). -/
theorem Makes.ended {r : Run} (h : Makes m (start s) r) (hlive : Answer.stall ∉ s.transport) : Ended m s (finish r) := by
  cases h with
  | completed u hu =>
    obtain ⟨hrun, txs, hlen, htxs⟩ := hu
    exact ⟨complete .ok u, txs, rfl, rfl, congrArg (· + 1) hrun.cmdIndex, hlen, htxs⟩
  | halted u t hu hhalt =>
    obtain ⟨hrun, txs, hlen, htxs⟩ := hu
    obtain ⟨hidle, hsame⟩ := hhalt.of_live fun hmem => hlive (hrun.transport.subset hmem)
    have hcount : t.cmdIndex = u.cmdIndex + 1 :=
      (hhalt.cmdIndex hrun.activity).resolve_right fun hbusy => by simp [hidle] at hbusy
    exact ⟨t, txs, rfl, hidle, hcount.trans (congrArg (· + 1) hrun.cmdIndex), hlen, hsame.trans htxs⟩

/-- Each way a command answers from an idle controller ends it; legal parameters rule out the fault of SSHEX. -/
theorem CommandOutcome.ended {i : Instr} {answer : Result} (h : CommandOutcome i s answer) (hlegal : s.params.Legal)
    (hidle : s.activity = .idle) (hlive : Answer.stall ∉ s.transport) : Ended (transactionBound i) s answer := by
  cases h with
  | refused r => exact ended_of_transactions_eq hidle rfl rfl
  | ignored | outOfRange => exact ended_of_transactions_eq rfl rfl rfl
  | ran r hrun => exact hrun.ended hlive
  | noEntry hillegal => exact absurd hlegal hillegal

/-- Settles O40: a command ends however it answers (`CommandOutcome.ended`), for with a live transport nothing executes between
commands and no answer is a stall. -/
theorem liveCommandsComplete : Obligations.LiveCommandsComplete := by
  unfold Obligations.LiveCommandsComplete
  intro i s hcommand ⟨hlegal, _, _, _, _, hlive, _⟩ htransport hfault
  obtain ⟨hidle, hnostall⟩ := hlive htransport
  exact (command_outcome hcommand hfault).ended hlegal hidle hnostall

end Sys2Proof.Machine
end
